-- ==== Sys2Proof/Word.lean ====
section
/-! DEFINITION. The word types of the block (R3, R12, R60). -/

namespace Sys2Proof

/-- A byte of a memory, a source or a sink (R40: "A byte is 8 bits"). -/
abbrev Byte := BitVec 8

/-- A 64-bit value: an operand, a result, an accumulator, a cursor (00_scope.md section 4.4: "Every value in pseudocode is
64 bits wide unless the text names another width"). -/
abbrev Word := BitVec 64

/-- A command word `CW` (R60). -/
abbrev CmdWord := BitVec 32

/-- A byte array or byte stream: buffer memory, source file, source or sink (R21 to R24). The byte at address `k` is the list's
element `k`; the length is the list's length. -/
abbrev Bytes := List Byte

end Sys2Proof
end

