-- ==== Sys2Proof/Syntax.lean ====
section
/-! DEFINITION. The fifteen commands of the opcode map (R65), each with the operands that reach it: the argument fields `A` and
`B` of its word, read as unsigned integers (R61), and `DIN` where the command uses it (R62). -/

namespace Sys2Proof

/-- What the host presents at the command port (R60): the command word and the 64-bit operand. -/
structure Command where
  cw : CmdWord
  din : Word
deriving DecidableEq, Repr

/-- One constructor per row of the opcode table (R65). -/
inductive Instr where
  /-- `BX.INIT`: `A = stepBits`, `DIN = sizeBytes` (R91). -/
  | bxInit (stepBits : Nat) (sizeBytes : Word)
  /-- `BX.HASNEXT` (R93). -/
  | bxHasNext
  /-- `BX.ADVANCE` (R94). -/
  | bxAdvance
  /-- `BX.UNUSED` (R95). -/
  | bxUnused
  /-- `BP.INIT`: `A = width` (R106). -/
  | bpInit (width : Nat)
  /-- `BP.PUSH`: `DIN = value` (R108). -/
  | bpPush (value : Word)
  /-- `BP.CLOSE` (R109). -/
  | bpClose
  /-- `VR.INIT` (R121). -/
  | vrInit
  /-- `VR.READ`: `A = width` (R122). -/
  | vrRead (width : Nat)
  /-- `VW.INIT` (R126). -/
  | vwInit
  /-- `VW.WRITE`: `A = width`, `DIN = value` (R128). -/
  | vwWrite (width : Nat) (value : Word)
  /-- `VW.CLOSE` (R129). -/
  | vwClose
  /-- `RE.ENCODE`: `A = keyWidth`, `B = numFragmentProducers` (R141). -/
  | reEncode (keyWidth numFragmentProducers : Nat)
  /-- `RD.DECODE` (R166). -/
  | rdDecode
  /-- `PD.RUN`: `A = keyWidth`, `B = N` (R186). -/
  | pdRun (keyWidth n : Nat)
deriving DecidableEq, Repr

end Sys2Proof
end

