-- ==== Sys2Proof/WellFormed.lean ====
section
/-! DEFINITION. Which terms of `Instr` stand for a command word: the argument fields are 8 bits wide (R60, R61). A width outside 1
to 64 is well formed; the command runs and raises `BAD_ARGUMENT` (R61). -/

namespace Sys2Proof

/-- An 8-bit argument field holds this value (R61). -/
abbrev FitsField (a : Nat) : Prop := a < 2 ^ 8

/-- Every argument of the command fits its field. -/
def Instr.WellFormed : Instr → Prop
  | .bxInit stepBits _ => FitsField stepBits
  | .bxHasNext => True
  | .bxAdvance => True
  | .bxUnused => True
  | .bpInit width => FitsField width
  | .bpPush _ => True
  | .bpClose => True
  | .vrInit => True
  | .vrRead width => FitsField width
  | .vwInit => True
  | .vwWrite width _ => FitsField width
  | .vwClose => True
  | .reEncode keyWidth np => FitsField keyWidth ∧ FitsField np
  | .rdDecode => True
  | .pdRun keyWidth n => FitsField keyWidth ∧ FitsField n

end Sys2Proof
end

