-- ==== Sys2Proof/Decode.lean ====
section
/-! DEFINITION. The opcode map as a table, the decoder (R61, R66), and the encoder that inverts it. -/

namespace Sys2Proof

/-- The fifteen operations, without operands. -/
inductive Opcode where
  | bxInit | bxHasNext | bxAdvance | bxUnused
  | bpInit | bpPush | bpClose
  | vrInit | vrRead
  | vwInit | vwWrite | vwClose
  | reEncode | rdDecode | pdRun
deriving DecidableEq, Repr

/-- A row of the opcode map (R65). -/
structure OpcodeRow where
  op : Opcode
  matchBits : CmdWord
  mask : CmdWord
deriving DecidableEq, Repr

/-- The opcode map, row by row (R65). -/
def opcodeRow : Opcode → OpcodeRow
  | .bxInit => ⟨.bxInit, 0x10000000#32, 0xFFFFFF00#32⟩
  | .bxHasNext => ⟨.bxHasNext, 0x11000000#32, 0xFFFFFFFF#32⟩
  | .bxAdvance => ⟨.bxAdvance, 0x12000000#32, 0xFFFFFFFF#32⟩
  | .bxUnused => ⟨.bxUnused, 0x13000000#32, 0xFFFFFFFF#32⟩
  | .bpInit => ⟨.bpInit, 0x20000000#32, 0xFFFFFF00#32⟩
  | .bpPush => ⟨.bpPush, 0x21000000#32, 0xFFFFFFFF#32⟩
  | .bpClose => ⟨.bpClose, 0x22000000#32, 0xFFFFFFFF#32⟩
  | .vrInit => ⟨.vrInit, 0x30000000#32, 0xFFFFFFFF#32⟩
  | .vrRead => ⟨.vrRead, 0x31000000#32, 0xFFFFFF00#32⟩
  | .vwInit => ⟨.vwInit, 0x40000000#32, 0xFFFFFFFF#32⟩
  | .vwWrite => ⟨.vwWrite, 0x41000000#32, 0xFFFFFF00#32⟩
  | .vwClose => ⟨.vwClose, 0x42000000#32, 0xFFFFFFFF#32⟩
  | .reEncode => ⟨.reEncode, 0x50000000#32, 0xFFFF0000#32⟩
  | .rdDecode => ⟨.rdDecode, 0x60000000#32, 0xFFFFFFFF#32⟩
  | .pdRun => ⟨.pdRun, 0x70000000#32, 0xFFFF0000#32⟩

/-- The rows in the order of R65. -/
def opcodeTable : List OpcodeRow :=
  [.bxInit, .bxHasNext, .bxAdvance, .bxUnused, .bpInit, .bpPush, .bpClose, .vrInit, .vrRead, .vwInit, .vwWrite, .vwClose,
    .reEncode, .rdDecode, .pdRun].map opcodeRow

/-- The word lies in the row (R61: "comparing `CW & mask` with `match`"). -/
def OpcodeRow.covers (row : OpcodeRow) (cw : CmdWord) : Bool := cw &&& row.mask == row.matchBits

/-- Field `UNIT` (R60). -/
def unitField (cw : CmdWord) : Nat := (cw.extractLsb' 28 4).toNat

/-- Field `OP` (R60). -/
def opField (cw : CmdWord) : Nat := (cw.extractLsb' 24 4).toNat

/-- Field `MBZ` (R60). -/
def mbzField (cw : CmdWord) : Nat := (cw.extractLsb' 16 8).toNat

/-- Field `B`, an unsigned integer (R60, R61). -/
def argB (cw : CmdWord) : Nat := (cw.extractLsb' 8 8).toNat

/-- Field `A`, an unsigned integer (R60, R61). -/
def argA (cw : CmdWord) : Nat := (cw.extractLsb' 0 8).toNat

/-- Why a command word is illegal (R66). All four raise the same fault. -/
inductive Illegal where
  /-- `UNIT = 0` or `UNIT >= 8`. -/
  | unknownUnit
  /-- An `OP` beyond the unit's last. -/
  | unknownOp
  /-- `MBZ != 0`. -/
  | mbzNonzero
  /-- A nonzero `A` or `B` in a command that has none there. -/
  | argumentNonzero
deriving DecidableEq, Repr

/-- The number of operations of a unit (R65, R66); 0 for a unit that does not exist. -/
def opCount : Nat → Nat
  | 1 => 4
  | 2 => 3
  | 3 => 2
  | 4 => 3
  | 5 => 1
  | 6 => 1
  | 7 => 1
  | _ => 0

/-- The name of what makes an unmatched word illegal (R66), checked from the top field down. -/
def illegalReason (cw : CmdWord) : Illegal :=
  if opCount (unitField cw) = 0 then .unknownUnit
  else if opCount (unitField cw) ≤ opField cw then .unknownOp
  else if mbzField cw ≠ 0 then .mbzNonzero
  else .argumentNonzero

/-- The command of an operation with its argument fields and `DIN` (R61, R62). -/
def Opcode.instr (op : Opcode) (a b : Nat) (din : Word) : Instr :=
  match op with
  | .bxInit => .bxInit a din
  | .bxHasNext => .bxHasNext
  | .bxAdvance => .bxAdvance
  | .bxUnused => .bxUnused
  | .bpInit => .bpInit a
  | .bpPush => .bpPush din
  | .bpClose => .bpClose
  | .vrInit => .vrInit
  | .vrRead => .vrRead a
  | .vwInit => .vwInit
  | .vwWrite => .vwWrite a din
  | .vwClose => .vwClose
  | .reEncode => .reEncode a b
  | .rdDecode => .rdDecode
  | .pdRun => .pdRun a b

/-- The decoder (R61, R66): total, and an illegal word is rejected by name. -/
def decode (c : Command) : Except Illegal Instr :=
  match opcodeTable.find? (fun row => row.covers c.cw) with
  | some row => .ok (row.op.instr (argA c.cw) (argB c.cw) c.din)
  | none => .error (illegalReason c.cw)

/-- The operation of a command. -/
def Instr.opcode : Instr → Opcode
  | .bxInit _ _ => .bxInit
  | .bxHasNext => .bxHasNext
  | .bxAdvance => .bxAdvance
  | .bxUnused => .bxUnused
  | .bpInit _ => .bpInit
  | .bpPush _ => .bpPush
  | .bpClose => .bpClose
  | .vrInit => .vrInit
  | .vrRead _ => .vrRead
  | .vwInit => .vwInit
  | .vwWrite _ _ => .vwWrite
  | .vwClose => .vwClose
  | .reEncode _ _ => .reEncode
  | .rdDecode => .rdDecode
  | .pdRun _ _ => .pdRun

/-- The value of field `A` (R65): 0 in a command that has none (R60). -/
def Instr.fieldA : Instr → Nat
  | .bxInit stepBits _ => stepBits
  | .bpInit width => width
  | .vrRead width => width
  | .vwWrite width _ => width
  | .reEncode keyWidth _ => keyWidth
  | .pdRun keyWidth _ => keyWidth
  | .bxHasNext => 0
  | .bxAdvance => 0
  | .bxUnused => 0
  | .bpPush _ => 0
  | .bpClose => 0
  | .vrInit => 0
  | .vwInit => 0
  | .vwClose => 0
  | .rdDecode => 0

/-- The value of field `B` (R65): 0 in a command that has none (R60). -/
def Instr.fieldB : Instr → Nat
  | .reEncode _ np => np
  | .pdRun _ n => n
  | .bxInit _ _ => 0
  | .bxHasNext => 0
  | .bxAdvance => 0
  | .bxUnused => 0
  | .bpInit _ => 0
  | .bpPush _ => 0
  | .bpClose => 0
  | .vrInit => 0
  | .vrRead _ => 0
  | .vwInit => 0
  | .vwWrite _ _ => 0
  | .vwClose => 0
  | .rdDecode => 0

/-- The operand `DIN` (R62): 0 for a command that ignores it (R68: "the encoding then carries `DIN = 0`"). -/
def Instr.din : Instr → Word
  | .bxInit _ sizeBytes => sizeBytes
  | .bpPush value => value
  | .vwWrite _ value => value
  | .bxHasNext => 0#64
  | .bxAdvance => 0#64
  | .bxUnused => 0#64
  | .bpInit _ => 0#64
  | .bpClose => 0#64
  | .vrInit => 0#64
  | .vrRead _ => 0#64
  | .vwInit => 0#64
  | .vwClose => 0#64
  | .reEncode _ _ => 0#64
  | .rdDecode => 0#64
  | .pdRun _ _ => 0#64

/-- The command word of a command: the row's `match` with `B` in bits 15 to 8 and `A` in bits 7 to 0 (R60, R65). -/
def Instr.word (i : Instr) : CmdWord :=
  (opcodeRow i.opcode).matchBits ||| (BitVec.ofNat 32 i.fieldB <<< 8) ||| BitVec.ofNat 32 i.fieldA

/-- The encoder: what the host presents at the port to issue the command. -/
def encode (i : Instr) : Command := ⟨i.word, i.din⟩

/-- The command whose bits are `w`, numbered as the opcode table numbers them: bits 31 to 0 the command word, the bits above them
`DIN` (log 20), and every bit at or above `nbits` zero. -/
def commandOfBits (nbits w : Nat) : Command :=
  ⟨BitVec.ofNat 32 (w % 2 ^ nbits), BitVec.ofNat 64 (w % 2 ^ nbits / 2 ^ 32)⟩

/-- The command the decoder reads from a word of the opcode table; none where it rejects. -/
def decodeTableWord (nbits w : Nat) : Option Instr :=
  match decode (commandOfBits nbits w) with
  | .ok i => some i
  | .error _ => none

end Sys2Proof
end

