-- ==== Sys2Proof/Config.lean ====
section
/-! DEFINITION. What an implementation fixes (R4, U19) and the free values (U5, U10, R195). The opaque constants have no body:
nothing can be proved about which value they take, so a theorem holds for every one. -/

namespace Sys2Proof.Config

/-- The implementation's choice of `BUF_MAX` before the constraint of R4. -/
opaque bufMaxChoice : Nat

/-- `BUF_MAX` (R4): any value from 0 to `2^45 - 1`. -/
def bufMax : Nat := min bufMaxChoice (2 ^ 45 - 1)

/-- The implementation's choice of `NLANES` before the constraint of R4. -/
opaque nLanesChoice : Nat

/-- `NLANES` (R4): any value from 1 to 255. -/
def nLanes : Nat := max 1 (min nLanesChoice 255)

/-- Content and length of `BUFMEM` at power-on (U10), before its length is cut to `BUF_MAX`. -/
opaque powerOnBufMem : Bytes

/-- Content and length of `VR.SRC` at power-on (U10). -/
opaque powerOnVrSrc : Bytes

/-- Content and length of `RD.META_SRC` at power-on (U10). -/
opaque powerOnRdMetaSrc : Bytes

/-- Content and length of `RD.DATA_SRC` at power-on (U10). -/
opaque powerOnRdDataSrc : Bytes

/-- Content and length of `PD.FILE` at power-on (U10), before its length is cut below `2^64`. -/
opaque powerOnPdFile : Bytes

/-- The bits of the k-th group that `BX.ADVANCE` took partly from beyond the end of a shortened `BUFMEM` (U5: "`any value` for
every bit of the returned group that lies at or beyond the new length", log 5). -/
opaque absentBits : Nat → Word

/-- The byte at an address of a lane's buffer between allocation and transfer (R195: "content unspecified until step 4", log 12), by
lane and address. -/
opaque allocByte : Nat → Nat → Byte

end Sys2Proof.Config
end

