-- ==== Sys2Proof/Machine/State.lean ====
section
/-! DEFINITION. The state of the block (10_state.md), the host's pending actions, the reset state (R29), and the reasons for which
the model stops. -/

namespace Sys2Proof.Machine

/-- The values of `FAULT.CODE` (R216, U15): 0, no fault, and the seven fault codes. -/
inductive Code where
  /-- 0x00: no fault. -/
  | ok
  /-- 0x01: the command word matches no row of the opcode map. -/
  | illegalCommand
  /-- 0x02: a width outside 1 to 64, or `N` outside 1 to `NLANES`. -/
  | badArgument
  /-- 0x03: the unit is not in a state that allows the command. -/
  | badState
  /-- 0x04: `BX.ADVANCE` when no group remains. -/
  | exhausted
  /-- 0x05: a read asks for more bits than the source still has. -/
  | sourceUnderrun
  /-- 0x06: a width read from a fragment header is 0 or above 64. -/
  | badHeader
  /-- 0x07: a buffer larger than the memory that must hold it. -/
  | resource
deriving DecidableEq, Repr

/-- The values of `STATUS` (R64): `OK` or a fault code, or `REFUSED`. -/
inductive Status where
  /-- The command completed (`ok`) or raised the fault. -/
  | ended (code : Code)
  /-- 0xFF: a fault is already latched (R220). -/
  | refused
deriving DecidableEq, Repr

/-- The reply of a command: `STATUS` and `DOUT` (R63, R64). -/
structure Reply where
  status : Status
  dout : Word
deriving DecidableEq, Repr

/-- A unit's lifecycle state `ST` (R13); encoding 3 is never produced. -/
inductive UnitState where
  /-- 0: never initialised since reset. -/
  | uninit
  /-- 1: initialised, operations allowed. -/
  | ready
  /-- 2: closed. -/
  | closed
deriving DecidableEq, Repr

/-- An extractor record (R14). -/
structure Extractor where
  st : UnitState
  step : BitVec 7
  size : Word
  cur : Word
deriving DecidableEq, Repr

/-- A packer record (R15). -/
structure Packer where
  st : UnitState
  width : BitVec 7
  acc : Word
  fill : BitVec 6
deriving DecidableEq, Repr

/-- A reader record (R16). -/
structure Reader where
  st : UnitState
  curb : Byte
  used : BitVec 4
  pos : Word
deriving DecidableEq, Repr

/-- A writer record (R17). -/
structure Writer where
  st : UnitState
  curb : Byte
  used : BitVec 3
deriving DecidableEq, Repr

/-- The state of an encoder: `RE`, and one private copy in every lane (R18, R20). -/
structure Encoder where
  haveRun : Bool
  last : Word
  count : Word
  rcs : List Word
  maxCount : Word
  it : Extractor
  pk : Packer
  mw : Writer
  keyWidth : BitVec 7
  np : BitVec 8
  numRuns : BitVec 48
  runWidth : BitVec 7
deriving DecidableEq, Repr

/-- The state of the decoder `RD` (R19). -/
structure Decoder where
  np : BitVec 8
  numRuns : BitVec 48
  runWidth : BitVec 8
  keyWidth : BitVec 8
  i : BitVec 48
  rm : Reader
  rk : Reader
  wo : Writer
deriving DecidableEq, Repr

/-- A lane's protocol phase (R191); encoding 6 is not used. -/
inductive Phase where
  /-- 0: not started or not part of the run. -/
  | idle
  /-- 1: passed barrier 1. -/
  | named
  /-- 2: passed barrier 2, the size is valid. -/
  | sized
  /-- 3: passed barrier 3, the buffer exists. -/
  | allocated
  /-- 4: passed barrier 4, the buffer is filled. -/
  | loaded
  /-- 5: the Fragment is complete. -/
  | done
  /-- 7: the group was aborted. -/
  | aborted
deriving DecidableEq, Repr

/-- One worker lane (R20). -/
structure Lane where
  phase : Phase
  size : Word
  buf : Bytes
  enc : Encoder
  dataSink : Bytes
  metaSink : Bytes
deriving DecidableEq, Repr

/-- The distributor's own registers (R20). -/
structure Distributor where
  n : BitVec 8
  kw : BitVec 7
  chunk : Word
deriving DecidableEq, Repr

/-- The fault register (R12). -/
structure FaultReg where
  code : Code
  cw : CmdWord
  aux : Word
deriving DecidableEq, Repr

/-- The sinks that the host may empty between commands (R23, R45). -/
inductive SinkName where
  | bp | vw | reData | reMeta | rdOut
  | laneData (r : Nat)
  | laneMeta (r : Nat)
deriving DecidableEq, Repr

/-- What the host can do to the block: issue a command (R60), load a memory or a source, empty a sink (R45), reset (R245). -/
inductive HostAction where
  | command (c : Command)
  | loadBufMem (bytes : Bytes)
  | loadVrSrc (bytes : Bytes)
  | loadRdMetaSrc (bytes : Bytes)
  | loadRdDataSrc (bytes : Bytes)
  | loadPdFile (bytes : Bytes)
  | emptySink (sink : SinkName)
  | reset
deriving DecidableEq, Repr

/-- The state of the block (10_state.md), and four fields of the model: `bufMax`, the parameter `BUF_MAX` of the instance (R4; the
parameter `NLANES` is the length of `lanes`); `drawn`, how many free values have been drawn (U5); `pending`, what the host does next
(R11, R28); `reply`, the reply of the last command (R64). -/
structure State where
  fault : FaultReg
  bx : Extractor
  bp : Packer
  vr : Reader
  vw : Writer
  re : Encoder
  rd : Decoder
  pd : Distributor
  lanes : List Lane
  bufMem : Bytes
  vrSrc : Bytes
  rdMetaSrc : Bytes
  rdDataSrc : Bytes
  pdFile : Bytes
  bpSink : Bytes
  vwSink : Bytes
  reDataSink : Bytes
  reMetaSink : Bytes
  rdOutSink : Bytes
  bufMax : Nat
  drawn : Nat
  pending : List HostAction
  reply : Option Reply
deriving DecidableEq, Repr

/-- Reasons for the machine to stop. There is none: every command ends with a reply, and a fault of the spec is a latched state
that the machine goes on from (R219, R256; 93_implementation_defined.md: "no command of the block can hang"). -/
inductive Fault : Type
deriving DecidableEq, Repr

/-- Reasons for the model not to accept an input. -/
inductive Refusal where
  /-- A command without a meaning; no arm of `exec` answers it. Safe. -/
  | notModelled (mnemonic : String)
  /-- The host loads `BUFMEM` with more than `BUF_MAX` bytes (U8: "`BUFMEM` cannot be loaded longer"). Raised by the host action
  `loadBufMem`. Safe. -/
  | bufMemTooLong
  /-- The host loads `PD.FILE` with `2^64` bytes or more (R24: "`0 <= fileSize < 2^64`"). Raised by the host action `loadPdFile`.
  Safe. -/
  | pdFileTooLong
  /-- The host empties a sink of a lane at or beyond `NLANES` (R20). Raised by the host action `emptySink`. Safe. -/
  | noSuchLane
deriving DecidableEq, Repr

/-- An extractor after reset (R29). -/
def Extractor.reset : Extractor := ⟨.uninit, 0#7, 0#64, 0#64⟩

/-- A packer after reset (R29). -/
def Packer.reset : Packer := ⟨.uninit, 0#7, 0#64, 0#6⟩

/-- A reader after reset: `USED = 8` (R29). -/
def Reader.reset : Reader := ⟨.uninit, 0#8, 8#4, 0#64⟩

/-- A writer after reset (R29). -/
def Writer.reset : Writer := ⟨.uninit, 0#8, 0#3⟩

/-- An encoder after reset (R29; for a lane's private encoder, log 11). -/
def Encoder.reset : Encoder where
  haveRun := false
  last := 0#64
  count := 0#64
  rcs := []
  maxCount := 0#64
  it := Extractor.reset
  pk := Packer.reset
  mw := Writer.reset
  keyWidth := 0#7
  np := 0#8
  numRuns := 0#48
  runWidth := 0#7

/-- The decoder after reset (R29). -/
def Decoder.reset : Decoder := ⟨0#8, 0#48, 0#8, 0#8, 0#48, Reader.reset, Reader.reset, Writer.reset⟩

/-- A lane after reset (R29). -/
def Lane.reset : Lane := ⟨.idle, 0#64, [], Encoder.reset, [], []⟩

/-- The state right after power-on and reset (R29, R245). The memories and sources that the host loads hold free values (U10, log 3),
the parameters are the implementation's (U19, log 4). -/
def State.reset : State where
  fault := ⟨.ok, 0#32, 0#64⟩
  bx := Extractor.reset
  bp := Packer.reset
  vr := Reader.reset
  vw := Writer.reset
  re := Encoder.reset
  rd := Decoder.reset
  pd := ⟨0#8, 0#7, 0#64⟩
  lanes := List.replicate Config.nLanes Lane.reset
  bufMem := Config.powerOnBufMem.take Config.bufMax
  vrSrc := Config.powerOnVrSrc
  rdMetaSrc := Config.powerOnRdMetaSrc
  rdDataSrc := Config.powerOnRdDataSrc
  pdFile := Config.powerOnPdFile.take (2 ^ 64 - 1)
  bpSink := []
  vwSink := []
  reDataSink := []
  reMetaSink := []
  rdOutSink := []
  bufMax := Config.bufMax
  drawn := 0
  pending := []
  reply := none

end Sys2Proof.Machine
end

