-- ==== Sys2Proof/Machine/Flags.lean ====
section
/-! DEFINITION. The block has no condition codes (R25). What stands in their place: the 8-bit encodings of `STATUS` and
`FAULT.CODE` (R64, R216), the 2-bit and 3-bit encodings of `ST` and `PHASE` (R13, R191), and the one condition that is computed
anew at each use, whether a group remains (R93). -/

namespace Sys2Proof.Machine

/-- The 8-bit number of a fault code (R216). -/
def Code.bits : Code → BitVec 8
  | .ok => 0x00#8
  | .illegalCommand => 0x01#8
  | .badArgument => 0x02#8
  | .badState => 0x03#8
  | .exhausted => 0x04#8
  | .sourceUnderrun => 0x05#8
  | .badHeader => 0x06#8
  | .resource => 0x07#8

/-- The 8-bit `STATUS` (R64). -/
def Status.bits : Status → BitVec 8
  | .ended code => code.bits
  | .refused => 0xFF#8

/-- The 2-bit encoding of a unit state (R13). -/
def UnitState.bits : UnitState → BitVec 2
  | .uninit => 0#2
  | .ready => 1#2
  | .closed => 2#2

/-- The 3-bit encoding of a lane phase (R191). -/
def Phase.bits : Phase → BitVec 3
  | .idle => 0#3
  | .named => 1#3
  | .sized => 2#3
  | .allocated => 3#3
  | .loaded => 4#3
  | .done => 5#3
  | .aborted => 7#3

/-- The block is latched: `FAULT.CODE != 0` (R12, R220). -/
def FaultReg.latched (f : FaultReg) : Bool := f.code != .ok

/-- A group remains: at least one real buffer bit lies at or after the cursor (R93). -/
def Extractor.hasNext (x : Extractor) : Bool := decide (x.cur.toNat < 8 * x.size.toNat)

end Sys2Proof.Machine
end

