-- ==== Sys2Proof/Machine/Operands.lean ====
section
/-! DEFINITION. The operand forms: the range check of a width argument (R217), the part of a value operand that counts (R62, R107,
R128), the two justifications of a key (R6), and the value a fault records of an argument (R216). -/

namespace Sys2Proof.Machine

/-- A width argument is in range: `1 <= A <= 64` (R217). -/
abbrev WidthOk (a : Nat) : Prop := 1 ≤ a ∧ a ≤ 64

/-- The low `w` bits of a value, zero-extended: `v[w-1:0]` (R107). -/
def lowBits (w : Nat) (v : Word) : Word := BitVec.ofNat 64 (v.toNat % 2 ^ w)

/-- A right-justified group of `w` bits, left-justified (R6). -/
def leftJustify (w : Nat) (v : Word) : Word := v <<< (64 - w)

/-- A left-justified group of `w` bits, right-justified (R6). -/
def rightJustify (w : Nat) (v : Word) : Word := v >>> (64 - w)

/-- What `FAULT.AUX` records of an argument: its value, zero-extended (R216). -/
def auxOfNat (a : Nat) : Word := BitVec.ofNat 64 a

/-- What `FAULT.AUX` records of a unit's state: the `ST` value (R216). -/
def auxOfState (st : UnitState) : Word := st.bits.zeroExtend 64

end Sys2Proof.Machine
end

