-- ==== Sys2Proof/Machine/Ops.lean ====
section
/-! DEFINITION. The shared operations: bit streams (R5), reading a buffer (R92), the extractor, packer, reader and writer records on
which the host-visible units and the private records of `RE`, `RD` and the lanes run alike, and how a command ends: an answer
(R64), a fault (R219), a refusal (R220). -/

namespace Sys2Proof.Machine

/-! ### Bit streams -/

/-- Bit `k` of a byte in stream order: 0 is the most significant (R5). -/
def byteBit (b : Byte) (k : Nat) : Bool := b.getLsbD (7 - k)

/-- Stream bit `i` of a byte list; none at or past its end (R5: "bit `7 - (i mod 8)` of byte `b(i div 8)`"). -/
def streamBit? (b : Bytes) (i : Nat) : Option Bool :=
  match b[i / 8]? with
  | some x => some (byteBit x (i % 8))
  | none => none

/-- The `w` bits of a field with value `v`, most significant first (00_scope.md section 4.2, `field(w, v)`). -/
def field (w : Nat) (v : Word) : List Bool := (List.range w).map fun k => v.getLsbD (w - 1 - k)

/-- Shift one bit in from the right: `(g << 1) | bit` (R94, R122). -/
def pushBit (g : Word) (b : Bool) : Word := (g <<< 1) ||| (if b then 1#64 else 0#64)

/-- The number whose bits are the list, the first most significant. -/
def ofBits (bits : List Bool) : Word := bits.foldl pushBit 0#64

/-- The bytes of a 64-bit word, most significant first (R43). -/
def wordBytes (v : Word) : Bytes := (List.range 8).map fun k => v.extractLsb' (56 - 8 * k) 8

/-- The number of leading zero bits of a 64-bit value (00_scope.md section 4.1, `clz64`; PRESUMED, log 25). -/
def clz64 (v : Word) : Nat := ((List.range 64).takeWhile fun k => !v.getLsbD (63 - k)).length

/-! ### Buffers -/

/-- `BufBit(M, S, i)` (R92): stream bit `i` of the first `S` bytes of `M`, and 0 from `8 * S` on. Where `M` itself is shorter than `S`,
none for every bit at or beyond its end (U5). -/
def bufBit? (mem : Bytes) (size : Nat) (i : Nat) : Option Bool :=
  if i < 8 * size ∨ mem.length < size then streamBit? mem i else some false

/-- `MemRead(M, addr, n)` (00_scope.md section 4.4). -/
def memRead (mem : Bytes) (addr n : Nat) : Bytes := (mem.drop addr).take n

/-! ### Extractor record -/

/-- An extractor record just initialised (R91, R142). -/
def Extractor.init (step : Nat) (size : Word) : Extractor := ⟨.ready, BitVec.ofNat 7 step, size, 0#64⟩

/-- The next group, left-justified (R94). `bit j` is the stream bit `j` places after the cursor. -/
def Extractor.group (x : Extractor) (bit : Nat → Bool) : Word :=
  leftJustify x.step.toNat (ofBits ((List.range x.step.toNat).map bit))

/-- The cursor moved past one group (R94). -/
def Extractor.moved (x : Extractor) : Extractor := { x with cur := x.cur + x.step.zeroExtend 64 }

/-- The number of real buffer bits at or past the cursor, 0 past the end (R95). -/
def Extractor.unused (x : Extractor) : Word := BitVec.ofNat 64 (8 * x.size.toNat - x.cur.toNat)

/-! ### Packer record -/

/-- A packer record just initialised (R106, R142). -/
def Packer.init (width : Nat) : Packer := ⟨.ready, BitVec.ofNat 7 width, 0#64, 0#6⟩

/-- Push one value (R108): the packer after it and the bytes appended to its sink, none or eight. -/
def Packer.push (p : Packer) (value : Word) : Packer × Bytes :=
  let x := lowBits p.width.toNat value
  let total := p.fill.toNat + p.width.toNat
  if total < 64 then
    ({ p with acc := p.acc ||| (x <<< (64 - total)), fill := BitVec.ofNat 6 total }, [])
  else
    let spill := total - 64
    let word := p.acc ||| (x >>> spill)
    let rest := if spill = 0 then 0#64 else x <<< (64 - spill)
    ({ p with acc := rest, fill := BitVec.ofNat 6 spill }, wordBytes word)

/-- Close the packer (R109): the packer after it and the `ceil(FILL / 8)` bytes appended to its sink. -/
def Packer.close (p : Packer) : Packer × Bytes :=
  ({ p with st := .closed, acc := 0#64, fill := 0#6 }, (wordBytes p.acc).take ((p.fill.toNat + 7) / 8))

/-! ### Reader record -/

/-- A reader record just initialised: nothing fetched (R121, R167). -/
def Reader.init : Reader := ⟨.ready, 0#8, 8#4, 0#64⟩

/-- The unread bits, lookahead included (R122). No byte is unfetched once the index is at or past the end (R48, log 7). -/
def Reader.avail (r : Reader) (src : Bytes) : Nat := (8 - r.used.toNat) + 8 * (src.length - r.pos.toNat)

/-- Fetch a byte if the current one is exhausted (R122; the index wraps, log 8). -/
def Reader.refill (r : Reader) (src : Bytes) : Reader :=
  if r.used = 8#4 then { r with curb := src.getD r.pos.toNat 0#8, pos := r.pos + 1#64, used := 0#4 } else r

/-- Take one bit (R122). -/
def Reader.takeBit (r : Reader) (src : Bytes) : Reader × Bool :=
  let r := r.refill src
  ({ r with used := r.used + 1#4 }, byteBit r.curb r.used.toNat)

/-- Take `n` bits one at a time, shifting each into `acc` (R122). -/
def Reader.takeBits (src : Bytes) : Nat → Reader → Word → Reader × Word
  | 0, r, acc => (r, acc)
  | n + 1, r, acc =>
    let (r', b) := r.takeBit src
    Reader.takeBits src n r' (pushBit acc b)

/-- Read a field of `width` bits, right-justified (R122); none, and nothing consumed, if the source has too few bits (R124). -/
def Reader.read (r : Reader) (src : Bytes) (width : Nat) : Option (Reader × Word) :=
  if r.avail src < width then none else some (Reader.takeBits src width r 0#64)

/-! ### Writer record -/

/-- A writer record just initialised (R126, R151, R167). -/
def Writer.init : Writer := ⟨.ready, 0#8, 0#3⟩

/-- Write one bit (R128): the writer after it and the byte appended if it was completed. -/
def Writer.writeBit (w : Writer) (b : Bool) : Writer × Bytes :=
  let curb := w.curb ||| ((if b then 1#8 else 0#8) <<< (7 - w.used.toNat))
  if w.used.toNat + 1 = 8 then ({ w with curb := 0#8, used := 0#3 }, [curb])
  else ({ w with curb := curb, used := w.used + 1#3 }, [])

/-- Write bits one after another. -/
def Writer.writeBits : Writer → List Bool → Writer × Bytes
  | w, [] => (w, [])
  | w, b :: bs =>
    let (w1, out1) := w.writeBit b
    let (w2, out2) := Writer.writeBits w1 bs
    (w2, out1 ++ out2)

/-- Write the low `width` bits of a value, most significant first (R128). -/
def Writer.write (w : Writer) (width : Nat) (value : Word) : Writer × Bytes := w.writeBits (field width value)

/-- Write several fields, each a width and a value, in order. -/
def Writer.writeFields : Writer → List (Nat × Word) → Writer × Bytes
  | w, [] => (w, [])
  | w, f :: fs =>
    let (w1, out1) := w.write f.1 f.2
    let (w2, out2) := Writer.writeFields w1 fs
    (w2, out1 ++ out2)

/-- Close the writer (R129): the writer after it and the partial byte, if there is one. -/
def Writer.close (w : Writer) : Writer × Bytes :=
  ({ w with st := .closed, curb := 0#8, used := 0#3 }, if w.used = 0#3 then [] else [w.curb])

/-! ### How a command ends -/

/-- `return v` (R64): `STATUS = OK`, `DOUT = v`. -/
def answer (v : Word) (s : State) : State := { s with reply := some ⟨.ended .ok, v⟩ }

/-- `raise code(aux)` by the command with word `cw` (R219): the fault is latched, `STATUS` is its code, `DOUT` is 0, and nothing else
changes. There is no return from it but reset (R223). -/
def raise (cw : CmdWord) (code : Code) (aux : Word) (s : State) : State :=
  { s with fault := ⟨code, cw, aux⟩, reply := some ⟨.ended code, 0#64⟩ }

/-- A command while a fault is latched (R220): `STATUS = REFUSED`, `DOUT = 0`, and nothing else changes. -/
def refuse (s : State) : State := { s with reply := some ⟨.refused, 0#64⟩ }

/-- The first thing every command does (R220): refuse if a fault is latched, else run. -/
def accept (s : State) (run : State → State) : State := if s.fault.latched then refuse s else run s

/-- The check of a width argument (R217): `BAD_ARGUMENT` with the argument in `FAULT.AUX`, else go on. -/
def checkWidth (cw : CmdWord) (a : Nat) (run : State → State) (s : State) : State :=
  if WidthOk a then run s else raise cw .badArgument (auxOfNat a) s

/-- The check that a unit is `READY` (R13): `BAD_STATE` with the unit's `ST` in `FAULT.AUX`, else go on. -/
def checkReady (cw : CmdWord) (st : UnitState) (run : State → State) (s : State) : State :=
  if st = .ready then run s else raise cw .badState (auxOfState st) s

/-- The check that a unit is not `READY` (R106, R126): `BAD_STATE` with the unit's `ST` in `FAULT.AUX`, else go on. -/
def checkNotReady (cw : CmdWord) (st : UnitState) (run : State → State) (s : State) : State :=
  if st = .ready then raise cw .badState (auxOfState st) s else run s

end Sys2Proof.Machine
end

