-- ==== Sys2Proof/Machine/Bp.lean ====
section
/-! DEFINITION. The commands of `BP`, the bit-packer accumulator (41_bp_packer.md). -/

namespace Sys2Proof.Machine

/-- `BP.INIT` (R106). The sink is not emptied. -/
def execBpInit (width : Nat) (s : State) : Host.Outcome State Fault Refusal :=
  let cw := (Instr.bpInit width).word
  .next (accept s (checkWidth cw width (checkNotReady cw s.bp.st fun s =>
    answer 0#64 { s with bp := Packer.init width })))

/-- `BP.PUSH` (R108). -/
def execBpPush (value : Word) (s : State) : Host.Outcome State Fault Refusal :=
  .next (accept s (checkReady (Instr.bpPush value).word s.bp.st fun s =>
    answer 0#64 { s with bp := (s.bp.push value).1, bpSink := s.bpSink ++ (s.bp.push value).2 }))

/-- `BP.CLOSE` (R109). -/
def execBpClose (s : State) : Host.Outcome State Fault Refusal :=
  .next (accept s (checkReady Instr.bpClose.word s.bp.st fun s =>
    answer 0#64 { s with bp := s.bp.close.1, bpSink := s.bpSink ++ s.bp.close.2 }))

end Sys2Proof.Machine
end

