-- ==== Sys2Proof/Machine/Bx.lean ====
section
/-! DEFINITION. The commands of `BX`, the bit-width variable extractor (40_bx_extractor.md). -/

namespace Sys2Proof.Machine

/-- `BX.INIT` (R91): the argument check, then the size check (R217). -/
def execBxInit (stepBits : Nat) (sizeBytes : Word) (s : State) : Host.Outcome State Fault Refusal :=
  let cw := (Instr.bxInit stepBits sizeBytes).word
  .next (accept s (checkWidth cw stepBits fun s =>
    if s.bufMem.length < sizeBytes.toNat then raise cw .resource sizeBytes s
    else answer 0#64 { s with bx := Extractor.init stepBits sizeBytes }))

/-- `BX.HASNEXT` (R93). -/
def execBxHasNext (s : State) : Host.Outcome State Fault Refusal :=
  .next (accept s (checkReady Instr.bxHasNext.word s.bx.st fun s => answer (if s.bx.hasNext then 1#64 else 0#64) s))

/-- The stream bits after the cursor as `BX` sees them (R92), the bits of a shortened `BUFMEM` free (U5). -/
def bxBit (s : State) (j : Nat) : Bool :=
  (bufBit? s.bufMem s.bx.size.toNat (s.bx.cur.toNat + j)).getD ((Config.absentBits s.drawn).getLsbD j)

/-- `BX.ADVANCE` (R94). A free value is drawn when `BUFMEM` is shorter than `BX.SIZE` (U5). -/
def execBxAdvance (s : State) : Host.Outcome State Fault Refusal :=
  let cw := Instr.bxAdvance.word
  .next (accept s (checkReady cw s.bx.st fun s =>
    if s.bx.hasNext then
      answer (s.bx.group (bxBit s))
        { s with bx := s.bx.moved, drawn := if s.bufMem.length < s.bx.size.toNat then s.drawn + 1 else s.drawn }
    else raise cw .exhausted s.bx.cur s))

/-- `BX.UNUSED` (R95). -/
def execBxUnused (s : State) : Host.Outcome State Fault Refusal :=
  .next (accept s (checkReady Instr.bxUnused.word s.bx.st fun s => answer s.bx.unused s))

end Sys2Proof.Machine
end

