-- ==== Sys2Proof/Machine/Re.lean ====
section
/-! DEFINITION. `RE`, the run-length encoder (43_re_encoder.md). The operations on an encoder record serve `RE.ENCODE` and the private
encoder of a lane alike (R197). An operation that appends to the data sink answers the bytes it appends. -/

namespace Sys2Proof.Machine

/-- Start (R142): the working state cleared, the private extractor and packer initialised, the header byte written. -/
def Encoder.start (e : Encoder) (keyWidth np size : Nat) : Encoder × Bytes :=
  ({ e with keyWidth := BitVec.ofNat 7 keyWidth, np := BitVec.ofNat 8 np, haveRun := false, last := 0#64, count := 0#64, rcs := [],
            maxCount := 0#64, it := Extractor.init keyWidth (BitVec.ofNat 64 size), pk := Packer.init keyWidth },
    [BitVec.ofNat 8 keyWidth])

/-- EmitRun (R147): the pending run's key pushed right-justified, its count recorded. -/
def Encoder.emitRun (e : Encoder) : Encoder × Bytes :=
  let p := e.pk.push (rightJustify e.keyWidth.toNat e.last)
  ({ e with pk := p.1, rcs := e.rcs ++ [e.count], maxCount := if e.maxCount < e.count then e.count else e.maxCount }, p.2)

/-- FirstKey (R144). -/
def Encoder.firstKey (e : Encoder) (k : Word) : Encoder := { e with haveRun := true, last := k, count := 1#64 }

/-- SameKey (R145). -/
def Encoder.sameKey (e : Encoder) : Encoder := { e with count := e.count + 1#64 }

/-- OtherKey (R146). -/
def Encoder.otherKey (e : Encoder) (k : Word) : Encoder × Bytes :=
  let p := e.emitRun
  ({ p.1 with last := k, count := 1#64 }, p.2)

/-- What one key does (R141): the three-way case. -/
def Encoder.onKey (e : Encoder) (k : Word) : Encoder × Bytes :=
  if !e.haveRun then (e.firstKey k, [])
  else if k = e.last then (e.sameKey, [])
  else e.otherKey k

/-- The private extractor's view of the buffer (R92). Its size is the buffer's length, so no bit it asks for is absent. -/
def Encoder.keyBit (e : Encoder) (buf : Bytes) (j : Nat) : Bool :=
  (bufBit? buf e.it.size.toNat (e.it.cur.toNat + j)).getD false

/-- One turn of the key loop: `Advance(RE.IT)` and the key's effect (R141). -/
def Encoder.turn (e : Encoder) (buf : Bytes) : Encoder × Bytes :=
  { e with it := e.it.moved }.onKey (e.it.group (e.keyBit buf))

/-- The key loop (R141), cut after `fuel` turns. -/
def Encoder.loop (buf : Bytes) : Nat → Encoder → Encoder × Bytes
  | 0, e => (e, [])
  | fuel + 1, e =>
    if e.it.hasNext then
      let (e1, out1) := e.turn buf
      let (e2, out2) := Encoder.loop buf fuel e1
      (e2, out1 ++ out2)
    else (e, [])

/-- The final flush (R148): a pending run is emitted. -/
def Encoder.flush (e : Encoder) : Encoder × Bytes := if e.haveRun then e.emitRun else (e, [])

/-- Closing the DataRecord (R150). -/
def Encoder.closeData (e : Encoder) : Encoder × Bytes :=
  ({ e with pk := e.pk.close.1 }, e.pk.close.2)

/-- The run width (R149): `max(1, 64 - clz64(MAXCOUNT))`. -/
def runWidthOf (maxCount : Word) : Nat := max 1 (64 - clz64 maxCount)

/-- The fields of the MetaRecord in order (R151). -/
def Encoder.metaFields (e : Encoder) : List (Nat × Word) :=
  [(8, e.np.zeroExtend 64), (48, e.numRuns.zeroExtend 64), (8, e.runWidth.zeroExtend 64)] ++
    e.rcs.map fun c => (e.runWidth.toNat, c)

/-- Finish (R149, R151): the run width, the number of runs, the MetaRecord written and closed, the counts discarded. The bytes are
those of the MetaRecord. -/
def Encoder.finish (e : Encoder) : Encoder × Bytes :=
  let e := { e with runWidth := BitVec.ofNat 7 (runWidthOf e.maxCount), numRuns := BitVec.ofNat 48 e.rcs.length }
  let w := Writer.init.writeFields e.metaFields
  ({ e with mw := w.1.close.1, rcs := [] }, w.2 ++ w.1.close.2)

/-- A finished encode: the encoder record and the two records of the Fragment (R152). -/
structure Encoded where
  enc : Encoder
  dataBytes : Bytes
  metaBytes : Bytes
deriving DecidableEq, Repr

/-- The whole algorithm on one buffer (R141). One turn of the key loop moves the cursor by at least one bit, so `8 * length` turns
reach the end. -/
def Encoder.run (e : Encoder) (keyWidth np : Nat) (buf : Bytes) : Encoded :=
  let header := e.start keyWidth np buf.length
  let body := Encoder.loop buf (8 * buf.length) header.1
  let last := body.1.flush
  let tail := last.1.closeData
  let record := tail.1.finish
  ⟨record.1, header.2 ++ body.2 ++ last.2 ++ tail.2, record.2⟩

/-- The block after a finished encode of `BUFMEM`: both sinks were emptied at the start and hold the Fragment (R142, R152). -/
def withEncoded (s : State) (r : Encoded) : State :=
  { s with re := r.enc, reDataSink := r.dataBytes, reMetaSink := r.metaBytes }

/-- `RE.ENCODE` (R141): `DOUT` is the number of runs. -/
def execReEncode (keyWidth np : Nat) (s : State) : Host.Outcome State Fault Refusal :=
  .next (accept s (checkWidth (Instr.reEncode keyWidth np).word keyWidth fun s =>
    let r := s.re.run keyWidth np s.bufMem
    answer (r.enc.numRuns.zeroExtend 64) (withEncoded s r)))

end Sys2Proof.Machine
end

