-- ==== Sys2Proof/Machine/Pd.lean ====
section
/-! DEFINITION. `PD`, the partition buffer distributor (45_pd_distributor.md). `PD.RUN` runs the protocol of R193 to R197 phase by phase
on all lanes of the run, which is one interleaving of the lanes' steps; every other one ends alike (R190). The lanes as agents that
step one at a time stand in Protocol.lean. -/

namespace Sys2Proof.Machine

/-- `PD.CHUNK` (R192): `fileSize div N`. -/
def chunkSize (file : Bytes) (n : Nat) : Nat := file.length / n

/-- `size(r)` (R192): the last lane absorbs the remainder. -/
def laneSize (file : Bytes) (n r : Nat) : Nat :=
  if r + 1 = n then chunkSize file n + file.length % n else chunkSize file n

/-- `offset(r)` (R192). -/
def laneOffset (file : Bytes) (n r : Nat) : Nat := r * chunkSize file n

/-- Lane r's byte range of the source file (R192). -/
def laneBytes (file : Bytes) (n r : Nat) : Bytes := memRead file (laneOffset file n r) (laneSize file n r)

/-- What `PD.RUN` clears of a lane at its start (R186). -/
def Lane.cleared (l : Lane) : Lane := { l with phase := .idle, size := 0#64, buf := [], dataSink := [], metaSink := [] }

/-- A step of the lanes of the run: each lane below `N` by its rank, the others untouched. -/
def onLanes (n : Nat) (step : Nat → Lane → Lane) (lanes : List Lane) : List Lane :=
  lanes.mapIdx fun r l => if r < n then step r l else l

/-- A message (R188): its receiver and its value. -/
structure Message (α : Type) where
  dst : Nat
  value : α

/-- What lane `r` receives of the messages lane 0 sends: the value of the first that names it. -/
def receive {α : Type} (messages : List (Message α)) (r : Nat) : Option α :=
  (messages.find? fun m => m.dst == r).map Message.value

/-- Step 1 (R193): after barrier 1 every lane of the run is `NAMED`. -/
def Lane.named (l : Lane) : Lane := { l with phase := .named }

/-- The size messages of lane 0, in rank order (R194). -/
def sizeMessages (file : Bytes) (n : Nat) : List (Message Word) :=
  (List.range n).tail.map fun r => ⟨r, BitVec.ofNat 64 (laneSize file n r)⟩

/-- Step 2 (R194): lane 0 takes its own size, every other lane the size it receives; after barrier 2 the lane is `SIZED`. -/
def Lane.sized (file : Bytes) (n r : Nat) (l : Lane) : Lane :=
  let own := BitVec.ofNat 64 (laneSize file n 0)
  { l with size := if r = 0 then own else (receive (sizeMessages file n) r).getD l.size, phase := .sized }

/-- The content of a lane's buffer between allocation and transfer (R195): unspecified. -/
def allocated (r size : Nat) : Bytes := (List.range size).map (Config.allocByte r)

/-- Step 3 (R195) where no allocation fails: the buffer exists; after barrier 3 the lane is `ALLOCATED`. -/
def Lane.withBuffer (r : Nat) (l : Lane) : Lane := { l with buf := allocated r l.size.toNat, phase := .allocated }

/-- The data messages of lane 0, in rank order (R196). -/
def dataMessages (file : Bytes) (n : Nat) : List (Message Bytes) :=
  (List.range n).tail.map fun r => ⟨r, laneBytes file n r⟩

/-- Step 4 (R196): every other lane takes the bytes it receives, lane 0 reads its own range from the start of the file; after barrier
4 the lane is `LOADED` (R197). -/
def Lane.loaded (file : Bytes) (n r : Nat) (l : Lane) : Lane :=
  let own := memRead file 0 (laneSize file n 0)
  { l with buf := if r = 0 then own else (receive (dataMessages file n) r).getD l.buf, phase := .loaded }

/-- Step 5 (R197): the lane encodes its own buffer into its own sinks with its private encoder. -/
def Lane.compressed (kw n : Nat) (l : Lane) : Lane :=
  let r := l.enc.run kw n l.buf
  { l with enc := r.enc, dataSink := r.dataBytes, metaSink := r.metaBytes, phase := .done }

/-- The lowest-numbered lane of the run whose size exceeds `BUF_MAX` (R195, R199). -/
def failingLane (n bufMax : Nat) (lanes : List Lane) : Option Lane :=
  (lanes.take n).find? fun l => decide (bufMax < l.size.toNat)

/-- The abort of a lane of the run (R199, log 10): buffer released, sinks empty, size kept. -/
def Lane.abort (l : Lane) : Lane := { l with phase := .aborted, buf := [], dataSink := [], metaSink := [] }

/-- Start and sizing (R186, R192): the registers, and every lane of the block cleared. -/
def pdStart (kw n : Nat) (s : State) : State :=
  { s with
    pd := ⟨BitVec.ofNat 8 n, BitVec.ofNat 7 kw, BitVec.ofNat 64 (chunkSize s.pdFile n)⟩
    lanes := s.lanes.map Lane.cleared }

/-- The protocol up to barrier 2 (R193, R194). -/
def pdSized (n : Nat) (s : State) : State :=
  { s with lanes := onLanes n (Lane.sized s.pdFile n) (onLanes n (fun _ l => l.named) s.lanes) }

/-- The protocol from the allocation on (R195 to R197) where no allocation fails. -/
def pdFinish (kw n : Nat) (s : State) : State :=
  { s with
    lanes := onLanes n (fun _ l => l.compressed kw n)
      (onLanes n (Lane.loaded s.pdFile n) (onLanes n Lane.withBuffer s.lanes)) }

/-- `PD.RUN` after its argument checks (R186): `DOUT` is the chunk size, or the group is aborted with `RESOURCE` (R195, R199). -/
def pdProtocol (cw : CmdWord) (kw n : Nat) (s : State) : State :=
  let s := pdSized n (pdStart kw n s)
  match failingLane n s.bufMax s.lanes with
  | some failing => raise cw .resource failing.size { s with lanes := onLanes n (fun _ l => l.abort) s.lanes }
  | none => answer s.pd.chunk (pdFinish kw n s)

/-- The check of the worker count (R186, R217): `1 <= N <= NLANES`, else `BAD_ARGUMENT`. -/
def checkWorkers (cw : CmdWord) (n : Nat) (run : State → State) (s : State) : State :=
  if 1 ≤ n ∧ n ≤ s.lanes.length then run s else raise cw .badArgument (auxOfNat n) s

/-- `PD.RUN` (R186): `A` is checked before `B` (R221). -/
def execPdRun (keyWidth n : Nat) (s : State) : Host.Outcome State Fault Refusal :=
  let cw := (Instr.pdRun keyWidth n).word
  .next (accept s (checkWidth cw keyWidth (checkWorkers cw n (pdProtocol cw keyWidth n))))

end Sys2Proof.Machine
end

