-- ==== Sys2Proof/Machine/Rd.lean ====
section
/-! DEFINITION. `RD`, the run-length decoder (44_rd_decoder.md). -/

namespace Sys2Proof.Machine

/-- What a decode works on: the decoder record and the output so far. -/
structure Decoding where
  rd : Decoder
  out : Bytes
deriving DecidableEq, Repr

/-- How far a decode has come: it goes on, or it has raised a fault and its state stays as it was at that moment (R174, R222). -/
inductive Progress where
  | going (d : Decoding)
  | raised (d : Decoding) (code : Code) (aux : Word)
deriving DecidableEq, Repr

/-- Go on with the next part unless a fault was raised. -/
def Progress.andThen (p : Progress) (next : Decoding → Progress) : Progress :=
  match p with
  | .going d => next d
  | .raised d code aux => .raised d code aux

/-- `Read(RD.RM, width)`: `SOURCE_UNDERRUN` with `FAULT.AUX = 0` if the meta source runs short (R174). -/
def Decoding.readMeta (d : Decoding) (metaSrc : Bytes) (width : Nat) (next : Word → Decoding → Progress) : Progress :=
  match d.rd.rm.read metaSrc width with
  | some (r, v) => next v { d with rd := { d.rd with rm := r } }
  | none => .raised d .sourceUnderrun 0#64

/-- `Read(RD.RK, width)`: `SOURCE_UNDERRUN` with `FAULT.AUX = 1` if the data source runs short (R174). -/
def Decoding.readData (d : Decoding) (dataSrc : Bytes) (width : Nat) (next : Word → Decoding → Progress) : Progress :=
  match d.rd.rk.read dataSrc width with
  | some (r, v) => next v { d with rd := { d.rd with rk := r } }
  | none => .raised d .sourceUnderrun 1#64

/-- `Write(RD.WO, RD.KEYWIDTH, key)` (R170). -/
def Decoding.emit (d : Decoding) (key : Word) : Decoding :=
  let w := d.rd.wo.write d.rd.keyWidth.toNat key
  { rd := { d.rd with wo := w.1 }, out := d.out ++ w.2 }

/-- `repeat n times: Write(RD.WO, RD.KEYWIDTH, key)` (R170). -/
def Decoding.emitTimes (key : Word) : Nat → Decoding → Decoding
  | 0, d => d
  | n + 1, d => Decoding.emitTimes key n (d.emit key)

/-- Start (R167): the output empty, the three private records initialised. -/
def Decoding.start (rd : Decoder) : Decoding :=
  { rd := { rd with rm := Reader.init, rk := Reader.init, wo := Writer.init }, out := [] }

/-- The four header reads in order (R167). -/
def Decoding.readHeaders (d : Decoding) (metaSrc dataSrc : Bytes) : Progress :=
  d.readMeta metaSrc 8 fun np d =>
    { d with rd := { d.rd with np := np.setWidth 8 } }.readMeta metaSrc 48 fun numRuns d =>
      { d with rd := { d.rd with numRuns := numRuns.setWidth 48 } }.readMeta metaSrc 8 fun runWidth d =>
        { d with rd := { d.rd with runWidth := runWidth.setWidth 8 } }.readData dataSrc 8 fun keyWidth d =>
          .going { d with rd := { d.rd with keyWidth := keyWidth.setWidth 8 } }

/-- What `BAD_HEADER` records: `(keyWidth << 8) | runWidth` (R168). -/
def headerAux (rd : Decoder) : Word := (rd.keyWidth.zeroExtend 64 <<< 8) ||| rd.runWidth.zeroExtend 64

/-- The header check (R168). -/
def Decoding.checkHeaders (d : Decoding) : Progress :=
  if WidthOk d.rd.runWidth.toNat ∧ WidthOk d.rd.keyWidth.toNat then .going d else .raised d .badHeader (headerAux d.rd)

/-- Repeat (R170): one key read once, written `run` times. -/
def Decoding.repeatKey (d : Decoding) (dataSrc : Bytes) (run : Word) : Progress :=
  d.readData dataSrc d.rd.keyWidth.toNat fun key d => .going (d.emitTimes key run.toNat)

/-- `repeat n times`: read one key and write it once (R171). -/
def Decoding.literals (dataSrc : Bytes) : Nat → Decoding → Progress
  | 0, d => .going d
  | n + 1, d => d.readData dataSrc d.rd.keyWidth.toNat fun key d => Decoding.literals dataSrc n (d.emit key)

/-- Escape (R171): the literal count, then that many literal keys. -/
def Decoding.escape (d : Decoding) (metaSrc dataSrc : Bytes) : Progress :=
  d.readMeta metaSrc d.rd.runWidth.toNat fun literalCount d => Decoding.literals dataSrc literalCount.toNat d

/-- One iteration (R166, R169): a run, or an escape with its literals. -/
def Decoding.iteration (d : Decoding) (metaSrc dataSrc : Bytes) : Progress :=
  (d.readMeta metaSrc d.rd.runWidth.toNat fun run d =>
    if run = 0#64 then d.escape metaSrc dataSrc else d.repeatKey dataSrc run).andThen fun d =>
      .going { d with rd := { d.rd with i := d.rd.i + 1#48 } }

/-- `n` iterations, stopping at the first fault (R166). -/
def Decoding.iterations (metaSrc dataSrc : Bytes) : Nat → Decoding → Progress
  | 0, d => .going d
  | n + 1, d => (d.iteration metaSrc dataSrc).andThen (Decoding.iterations metaSrc dataSrc n)

/-- End (R172): the writer closed, a partial byte completed with zero bits. -/
def Decoding.finish (d : Decoding) : Decoding :=
  { rd := { d.rd with wo := d.rd.wo.close.1 }, out := d.out ++ d.rd.wo.close.2 }

/-- The whole algorithm on one Fragment (R166; `RD.I` is set after the header check, log 23). -/
def Decoder.run (rd : Decoder) (metaSrc dataSrc : Bytes) : Progress :=
  (((Decoding.start rd).readHeaders metaSrc dataSrc).andThen Decoding.checkHeaders).andThen fun d =>
    (Decoding.iterations metaSrc dataSrc d.rd.numRuns.toNat { d with rd := { d.rd with i := 0#48 } }).andThen fun d =>
      .going d.finish

/-- The block with the state of a decode. -/
def withDecoding (s : State) (d : Decoding) : State := { s with rd := d.rd, rdOutSink := d.out }

/-- `RD.DECODE` (R166). After a fault in the middle the state is what its steps had produced (R222). -/
def execRdDecode (s : State) : Host.Outcome State Fault Refusal :=
  .next (accept s fun s =>
    match s.rd.run s.rdMetaSrc s.rdDataSrc with
    | .going d => answer 0#64 (withDecoding s d)
    | .raised d code aux => raise Instr.rdDecode.word code aux (withDecoding s d))

end Sys2Proof.Machine
end

