-- ==== Sys2Proof/Machine/Vio.lean ====
section
/-! DEFINITION. The commands of `VR` and `VW`, the variable-width bit reader and writer (42_vio_reader_writer.md). -/

namespace Sys2Proof.Machine

/-- `VR.INIT` (R121): allowed in any unit state. -/
def execVrInit (s : State) : Host.Outcome State Fault Refusal :=
  .next (accept s fun s => answer 0#64 { s with vr := Reader.init })

/-- `VR.READ` (R122, R124). -/
def execVrRead (width : Nat) (s : State) : Host.Outcome State Fault Refusal :=
  let cw := (Instr.vrRead width).word
  .next (accept s (checkWidth cw width (checkReady cw s.vr.st fun s =>
    match s.vr.read s.vrSrc width with
    | some (r, v) => answer v { s with vr := r }
    | none => raise cw .sourceUnderrun s.vr.pos s)))

/-- `VW.INIT` (R126). The sink is not emptied. -/
def execVwInit (s : State) : Host.Outcome State Fault Refusal :=
  .next (accept s (checkNotReady Instr.vwInit.word s.vw.st fun s => answer 0#64 { s with vw := Writer.init }))

/-- `VW.WRITE` (R128). -/
def execVwWrite (width : Nat) (value : Word) (s : State) : Host.Outcome State Fault Refusal :=
  let cw := (Instr.vwWrite width value).word
  .next (accept s (checkWidth cw width (checkReady cw s.vw.st fun s =>
    answer 0#64 { s with vw := (s.vw.write width value).1, vwSink := s.vwSink ++ (s.vw.write width value).2 })))

/-- `VW.CLOSE` (R129). -/
def execVwClose (s : State) : Host.Outcome State Fault Refusal :=
  .next (accept s (checkReady Instr.vwClose.word s.vw.st fun s =>
    answer 0#64 { s with vw := s.vw.close.1, vwSink := s.vwSink ++ s.vw.close.2 }))

end Sys2Proof.Machine
end

