-- ==== Sys2Proof/Machine/Dispatch.lean ====
section
/-! DEFINITION. One arm per command of the opcode map (R65). -/

namespace Sys2Proof.Machine

def exec (i : Instr) (s : State) : Host.Outcome State Fault Refusal :=
  match i with
  | .bxInit stepBits sizeBytes => Sys2Proof.Machine.execBxInit stepBits sizeBytes s
  | .bxHasNext => Sys2Proof.Machine.execBxHasNext s
  | .bxAdvance => Sys2Proof.Machine.execBxAdvance s
  | .bxUnused => Sys2Proof.Machine.execBxUnused s
  | .bpInit width => Sys2Proof.Machine.execBpInit width s
  | .bpPush value => Sys2Proof.Machine.execBpPush value s
  | .bpClose => Sys2Proof.Machine.execBpClose s
  | .vrInit => Sys2Proof.Machine.execVrInit s
  | .vrRead width => Sys2Proof.Machine.execVrRead width s
  | .vwInit => Sys2Proof.Machine.execVwInit s
  | .vwWrite width value => Sys2Proof.Machine.execVwWrite width value s
  | .vwClose => Sys2Proof.Machine.execVwClose s
  | .reEncode keyWidth np => Sys2Proof.Machine.execReEncode keyWidth np s
  | .rdDecode => Sys2Proof.Machine.execRdDecode s
  | .pdRun keyWidth n => Sys2Proof.Machine.execPdRun keyWidth n s

end Sys2Proof.Machine
end

