-- ==== Sys2Proof/Machine/HostPort.lean ====
section
/-! DEFINITION. What the host does to the block: a command through the command port (R60, R64), loads of memories and sources,
emptying of sinks (R45), and reset (R245). -/

namespace Sys2Proof.Machine

/-- An illegal command word (R66): `ILLEGAL_COMMAND`, unless a fault is latched already (R221). -/
def illegalCommand (cw : CmdWord) (s : State) : State := accept s (raise cw .illegalCommand 0#64)

/-- A command at the port: decoded and executed to its end (R61, R251). -/
def issue (c : Command) (s : State) : Host.Outcome State Fault Refusal :=
  match decode c with
  | .ok i => exec i s
  | .error _ => .next (illegalCommand c.cw s)

/-- The reset event (R245): every piece of state of R29's table takes its reset value; the memories and sources that the host loads are
not touched. The host's further actions, the parameters and the counter of free values are no state of the block. -/
def resetBlock (s : State) : State :=
  { State.reset with
    lanes := s.lanes.map fun _ => Lane.reset
    bufMem := s.bufMem
    vrSrc := s.vrSrc
    rdMetaSrc := s.rdMetaSrc
    rdDataSrc := s.rdDataSrc
    pdFile := s.pdFile
    bufMax := s.bufMax
    drawn := s.drawn
    pending := s.pending }

/-- The host loads `BUFMEM` (R45), with at most `BUF_MAX` bytes (R21, U8). -/
def hostLoadBufMem (bytes : Bytes) (s : State) : Host.Outcome State Fault Refusal :=
  if bytes.length ≤ s.bufMax then .next { s with bufMem := bytes } else .refused .bufMemTooLong

/-- The host loads `PD.FILE` (R45), with fewer than `2^64` bytes (R24). -/
def hostLoadPdFile (bytes : Bytes) (s : State) : Host.Outcome State Fault Refusal :=
  if bytes.length < 2 ^ 64 then .next { s with pdFile := bytes } else .refused .pdFileTooLong

/-- A change of lane `r`, which must exist (R20). -/
def onLane (r : Nat) (change : Lane → Lane) (s : State) : Host.Outcome State Fault Refusal :=
  if r < s.lanes.length then .next { s with lanes := s.lanes.modify r change } else .refused .noSuchLane

/-- The host empties a sink (R45). -/
def emptySink (sink : SinkName) (s : State) : Host.Outcome State Fault Refusal :=
  match sink with
  | .bp => .next { s with bpSink := [] }
  | .vw => .next { s with vwSink := [] }
  | .reData => .next { s with reDataSink := [] }
  | .reMeta => .next { s with reMetaSink := [] }
  | .rdOut => .next { s with rdOutSink := [] }
  | .laneData r => onLane r (fun l => { l with dataSink := [] }) s
  | .laneMeta r => onLane r (fun l => { l with metaSink := [] }) s

/-- One action of the host. -/
def perform (a : HostAction) (s : State) : Host.Outcome State Fault Refusal :=
  match a with
  | .command c => issue c s
  | .loadBufMem bytes => hostLoadBufMem bytes s
  | .loadVrSrc bytes => .next { s with vrSrc := bytes }
  | .loadRdMetaSrc bytes => .next { s with rdMetaSrc := bytes }
  | .loadRdDataSrc bytes => .next { s with rdDataSrc := bytes }
  | .loadPdFile bytes => hostLoadPdFile bytes s
  | .emptySink sink => emptySink sink s
  | .reset => .next (resetBlock s)

/-- With no host action pending the block holds its state (R224: "Nothing outside a command changes block state between commands except
the host's loads ... and reset", log 14). -/
def hold (s : State) : Host.Outcome State Fault Refusal := .next s

/-- Put a command before the host's other actions. -/
def present (c : Command) (s : State) : State := { s with pending := .command c :: s.pending }

end Sys2Proof.Machine
end

