-- ==== Sys2Proof/Machine/Step.lean ====
section
/-! DEFINITION. One step: the host's next action, a command executed to its end among them (R251). -/

namespace Sys2Proof.Machine

/-- One step of the block: it performs the first pending action of the host; with none pending it holds its state. -/
def step (s : State) : Host.Outcome State Fault Refusal :=
  match s.pending with
  | [] => hold s
  | a :: rest => perform a { s with pending := rest }

/-- The state with the command of an opcode-table word presented next at the command port. -/
def State.withFetchWord (s : State) (nbits w : Nat) : State := present (commandOfBits nbits w) s

end Sys2Proof.Machine
end

