-- ==== Sys2Proof/Machine/Protocol.lean ====
section
/-! DEFINITION. The lanes of `PD.RUN` as agents (R190): each executes its own column of R193 to R197 one step at a time; a message and a
barrier are joint steps of the lanes involved (R188, R189). A schedule is a list of moves; any lane that is not blocked may move next.
`exec` runs one interleaving (Pd.lean); these definitions say what every other one does. -/

namespace Sys2Proof.Machine

/-- Where an agent stands in its column of R193 to R197. -/
inductive AgentPc where
  /-- It has reached barrier k (R189). -/
  | atBarrier (k : Nat)
  /-- Lane 0: the next size goes to lane `r`; at `r = N`, it takes its own (R194). -/
  | sendSize (r : Nat)
  /-- It waits for its size (R194). -/
  | recvSize
  /-- It allocates next (R195). -/
  | alloc
  /-- Lane 0: the next byte range goes to lane `r`; at `r = N`, it reads its own (R196). -/
  | sendData (r : Nat)
  /-- It waits for its bytes (R196). -/
  | recvData
  /-- It compresses next (R197). -/
  | compress
  /-- Its Fragment is complete (R197). -/
  | finished
  /-- Its group was aborted (R199). -/
  | stopped
deriving DecidableEq, Repr

/-- An agent: where it stands, and its lane. -/
structure Agent where
  pc : AgentPc
  lane : Lane
deriving DecidableEq, Repr

/-- What is common to all lanes of a run: the file, the key width and the worker count (R186), the parameter `BUF_MAX`. -/
structure RunConfig where
  file : Bytes
  kw : Nat
  n : Nat
  bufMax : Nat
deriving DecidableEq, Repr

/-- The agents of a run, by rank. -/
abbrev Group := List Agent

/-- A step of the group: one lane alone, a message of lane 0 to lane `dst`, or all lanes through a barrier. -/
inductive Move where
  | alone (r : Nat)
  | message (dst : Nat)
  | barrier (k : Nat)
deriving DecidableEq, Repr

/-- Where a lane goes from barrier k, and the phase it then has (R191, R193 to R197). -/
def Agent.passBarrier (k r : Nat) (a : Agent) : Agent :=
  match k with
  | 1 => ⟨if r = 0 then .sendSize 1 else .recvSize, { a.lane with phase := .named }⟩
  | 2 => ⟨.alloc, { a.lane with phase := .sized }⟩
  | 3 => ⟨if r = 0 then .sendData 1 else .recvData, { a.lane with phase := .allocated }⟩
  | _ => ⟨.compress, { a.lane with phase := .loaded }⟩

/-- A barrier (R189): possible when every lane of the run has reached it; then all continue. -/
def moveBarrier (k : Nat) (g : Group) : Option Group :=
  if g.all fun a => a.pc == .atBarrier k then some (g.mapIdx (Agent.passBarrier k)) else none

/-- A message (R188): possible when lane 0 sends to `dst` and `dst` waits for that kind of message; both continue. -/
def moveMessage (c : RunConfig) (dst : Nat) (g : Group) : Option Group :=
  match g[0]?, g[dst]? with
  | some sender, some receiver =>
    if sender.pc = .sendSize dst ∧ receiver.pc = .recvSize then
      some ((g.set 0 { sender with pc := .sendSize (dst + 1) }).set dst
        ⟨.atBarrier 2, { receiver.lane with size := BitVec.ofNat 64 (laneSize c.file c.n dst) }⟩)
    else if sender.pc = .sendData dst ∧ receiver.pc = .recvData then
      some ((g.set 0 { sender with pc := .sendData (dst + 1) }).set dst
        ⟨.atBarrier 4, { receiver.lane with buf := laneBytes c.file c.n dst }⟩)
    else none
  | _, _ => none

/-- The abort of the whole group (R199). -/
def abortGroup (g : Group) : Group := g.map fun a => ⟨.stopped, a.lane.abort⟩

/-- A step of one lane alone: lane 0 takes its own size or its own bytes once its messages are sent, a lane allocates (or aborts the
group), a lane compresses (R194 to R197). -/
def moveAlone (c : RunConfig) (r : Nat) (g : Group) : Option Group :=
  match g[r]? with
  | some a =>
    match a.pc with
    | .sendSize k =>
      if k = c.n then
        some (g.set r ⟨.atBarrier 2, { a.lane with size := BitVec.ofNat 64 (laneSize c.file c.n 0) }⟩)
      else none
    | .alloc =>
      if c.bufMax < a.lane.size.toNat then some (abortGroup g)
      else some (g.set r ⟨.atBarrier 3, { a.lane with buf := allocated r a.lane.size.toNat }⟩)
    | .sendData k =>
      if k = c.n then some (g.set r ⟨.atBarrier 4, { a.lane with buf := memRead c.file 0 (laneSize c.file c.n 0) }⟩)
      else none
    | .compress => some (g.set r ⟨.finished, a.lane.compressed c.kw c.n⟩)
    | .atBarrier _ => none
    | .recvSize => none
    | .recvData => none
    | .finished => none
    | .stopped => none
  | none => none

/-- One move of the group; none where the lanes it involves are blocked. -/
def Group.move (c : RunConfig) (g : Group) : Move → Option Group
  | .alone r => moveAlone c r g
  | .message dst => moveMessage c dst g
  | .barrier k => moveBarrier k g

/-- The group after a schedule; none where the schedule moves a blocked lane. -/
def Group.follow (c : RunConfig) : Group → List Move → Option Group
  | g, [] => some g
  | g, m :: ms => (g.move c m).bind fun g' => Group.follow c g' ms

/-- The group at the start of a run: every lane of the run, cleared, about to reach barrier 1 (R186, R193). -/
def Group.start (n : Nat) (lanes : List Lane) : Group := (lanes.take n).map fun l => ⟨.atBarrier 1, l.cleared⟩

/-- The run has ended: every lane is done, or the group was aborted. -/
def Group.ended (g : Group) : Bool :=
  (g.all fun a => a.pc == .finished) || (g.all fun a => a.pc == .stopped)

/-- The configuration of `PD.RUN kw, n` in a state. -/
def runConfig (kw n : Nat) (s : State) : RunConfig := ⟨s.pdFile, kw, n, s.bufMax⟩

/-- The rendezvous of a schedule: its messages. -/
def messageCount (ms : List Move) : Nat := ms.countP fun | .message _ => true | .alone _ => false | .barrier _ => false

/-- The barriers of a schedule. -/
def barrierCount (ms : List Move) : Nat := ms.countP fun | .barrier _ => true | .alone _ => false | .message _ => false

end Sys2Proof.Machine
end

