-- ==== Sys2Proof/Machine/Format.lean ====
section
/-! DEFINITION. The container format of a Fragment (30_encoding.md part B), the helper functions of 00_scope.md section 4.2 that the
rules are written with, and the keys and runs of a buffer (R97, R154). None of these is executed by a command: they say what the
bytes a command reads or writes mean. -/

namespace Sys2Proof.Machine

/-- `bitsOf(B)` (00_scope.md section 4.2): the stream bits of a byte list in stream order. -/
def bitsOf (b : Bytes) : List Bool := b.flatMap fun x => (List.range 8).map (byteBit x)

/-- The byte whose bits, most significant first, are the first eight of the list, with zero bits where the list is shorter. -/
def packByte (bits : List Bool) : Byte :=
  (List.range 8).foldl (fun acc k => (acc <<< 1) ||| (if bits.getD k false then 1#8 else 0#8)) 0#8

/-- `packBits(L)` (00_scope.md section 4.2): the `ceil(len(L) / 8)` bytes whose stream bits are L followed by zero bits. -/
def packBits (bits : List Bool) : Bytes :=
  (List.range ((bits.length + 7) / 8)).map fun k => packByte (bits.drop (8 * k))

/-- The DataRecord of right-justified keys (R71). -/
def dataRecord (keyWidth : Nat) (keys : List Word) : Bytes :=
  BitVec.ofNat 8 keyWidth :: packBits (keys.flatMap (field keyWidth))

/-- The header and body fields of a MetaRecord as bits (R72). -/
def metaBits (np numRuns runWidth : Nat) (body : List Bool) : List Bool :=
  field 8 (BitVec.ofNat 64 np) ++ field 48 (BitVec.ofNat 64 numRuns) ++ field 8 (BitVec.ofNat 64 runWidth) ++ body

/-- The MetaRecord of run counts, without an escape marker (R72). -/
def metaRecord (np runWidth : Nat) (counts : List Word) : Bytes :=
  packBits (metaBits np counts.length runWidth (counts.flatMap (field runWidth)))

/-- The number of groups of width `w` in `n` bytes (R96): `ceil(8 * n / w)`. -/
def groupCount (n w : Nat) : Nat := (8 * n + w - 1) / w

/-- The right-justified keys that a buffer yields at a width (R97): groups of the padded stream. -/
def keysOf (w : Nat) (buf : Bytes) : List Word :=
  (List.range (groupCount buf.length w)).map fun g =>
    ofBits ((List.range w).map fun j => (bitsOf buf).getD (g * w + j) false)

/-- The keys that runs stand for: each key as often as its count says. -/
def expandRuns (keys counts : List Word) : List Word :=
  (keys.zip counts).flatMap fun r => List.replicate r.2.toNat r.1

/-- No two neighbours are equal (R74: "Adjacent keys differ"). -/
def NeighboursDiffer : List Word → Prop
  | [] => True
  | [_] => True
  | a :: b :: rest => a ≠ b ∧ NeighboursDiffer (b :: rest)

/-- A run record of a MetaRecord with its part of the DataRecord (R75): a key repeated, or an escape marker with its literal keys. -/
inductive RunRecord where
  | run (count : Word) (key : Word)
  | escape (literals : List Word)
deriving DecidableEq, Repr

/-- The record can be written with these widths: a run's count is not 0 and fits, a literal count fits, the keys fit (R75). -/
def RunRecord.Fits (runWidth keyWidth : Nat) : RunRecord → Prop
  | .run count key => count ≠ 0#64 ∧ count.toNat < 2 ^ runWidth ∧ key.toNat < 2 ^ keyWidth
  | .escape literals => literals.length < 2 ^ runWidth ∧ ∀ key ∈ literals, key.toNat < 2 ^ keyWidth

/-- The fields of the record in the MetaRecord body (R72, R75). -/
def RunRecord.countBits (runWidth : Nat) : RunRecord → List Bool
  | .run count _ => field runWidth count
  | .escape literals => field runWidth 0#64 ++ field runWidth (BitVec.ofNat 64 literals.length)

/-- The keys of the record in the DataRecord body (R71, R75). -/
def RunRecord.keys : RunRecord → List Word
  | .run _ key => [key]
  | .escape literals => literals

/-- The keys that the record stands for in the output (R170, R171). -/
def RunRecord.output : RunRecord → List Word
  | .run count key => List.replicate count.toNat key
  | .escape literals => literals

/-- How a run record is cut short by the end of a source (R174), from the bits that are left of the meta and the data source where the
record begins: the literal keys emitted before the failing read, the bits of the two sources it leaves unread, and the value of
`FAULT.AUX`, 0 where the meta source ran short and 1 where the data source did. -/
inductive CutShort (runWidth keyWidth : Nat) :
    (metaBits dataBits : List Bool) → (emitted : List Word) → (metaLeft dataLeft : List Bool) → (aux : Word) → Prop where
  /-- The count is missing (R166). -/
  | count {m d : List Bool} : m.length < runWidth → CutShort runWidth keyWidth m d [] m d 0#64
  /-- The count is the escape marker and the literal count is missing (R171). -/
  | literalCount {m d : List Bool} :
      m.length < runWidth → CutShort runWidth keyWidth (field runWidth 0#64 ++ m) d [] m d 0#64
  /-- The key of a run is missing (R170). -/
  | runKey {count : Word} {m d : List Bool} :
      count ≠ 0#64 → count.toNat < 2 ^ runWidth → d.length < keyWidth →
      CutShort runWidth keyWidth (field runWidth count ++ m) d [] m d 1#64
  /-- Of the literal keys of an escape only some are there (R171). -/
  | literalKey {literals : List Word} {n : Nat} {m d : List Bool} :
      literals.length < n → n < 2 ^ runWidth → (∀ key ∈ literals, key.toNat < 2 ^ keyWidth) → d.length < keyWidth →
      CutShort runWidth keyWidth (field runWidth 0#64 ++ field runWidth (BitVec.ofNat 64 n) ++ m)
        (literals.flatMap (field keyWidth) ++ d) literals m d 1#64

/-! ### What the registers of a bit unit hold, as bits -/

/-- The valid bits of a packer's accumulator, earliest first (R15). -/
def Packer.pendingBits (p : Packer) : List Bool := (List.range p.fill.toNat).map fun k => p.acc.getLsbD (63 - k)

/-- The bits of a writer's partial byte, earliest first (R17). -/
def Writer.pendingBits (w : Writer) : List Bool := (List.range w.used.toNat).map (byteBit w.curb)

/-- The unread bits of a reader, lookahead first (R16). -/
def Reader.unread (r : Reader) (src : Bytes) : List Bool :=
  ((List.range 8).map (byteBit r.curb)).drop r.used.toNat ++ bitsOf (src.drop r.pos.toNat)

end Sys2Proof.Machine
end

