-- ==== Sys2Proof/Safety.lean ====
section
/-! DEFINITION. What counts as a safe run, and the invariants of the block between commands (10_state.md rules R14 to R24). -/

namespace Sys2Proof.Machine

/-- No fault is latched, so the next command is accepted (R220). -/
abbrev State.Clear (s : State) : Prop := s.fault.code = .ok

/-- A safe run of commands: each ends `OK`. The state after them and their results `DOUT`; none where one of them does not end `OK`. -/
def runOk : List Instr → State → Option (State × List Word)
  | [], s => some (s, [])
  | i :: rest, s =>
    match exec i s with
    | .next t =>
      match t.reply with
      | some ⟨.ended .ok, v⟩ => (runOk rest t).map fun r => (r.1, v :: r.2)
      | some ⟨_, _⟩ => none
      | none => none
    | .fault _ => none
    | .refused _ => none

/-- The extractor's invariant (R14): the group width is legal, the cursor stands at a multiple of it and less than one group past
the end. -/
structure Extractor.Inv (bufMax : Nat) (x : Extractor) : Prop where
  notClosed : x.st ≠ .closed
  width : x.st = .ready → WidthOk x.step.toNat
  multiple : x.st = .ready → x.step.toNat ∣ x.cur.toNat
  bounded : x.st = .ready → x.cur.toNat < 8 * x.size.toNat + x.step.toNat
  size : x.st = .ready → x.size.toNat ≤ bufMax

/-- The packer's invariant (R15): a legal width, and zero bits below the valid ones; nothing held unless open. -/
structure Packer.Inv (p : Packer) : Prop where
  width : p.st = .ready → WidthOk p.width.toNat
  low : ∀ k < 64 - p.fill.toNat, p.acc.getLsbD k = false
  empty : p.st ≠ .ready → p.acc = 0#64 ∧ p.fill = 0#6

/-- The reader's invariant (R16): at most 8 bits of the current byte are consumed. -/
structure Reader.Inv (r : Reader) : Prop where
  notClosed : r.st ≠ .closed
  used : r.used.toNat ≤ 8

/-- The writer's invariant (R17): zero bits below the ones produced; nothing held unless open. -/
structure Writer.Inv (w : Writer) : Prop where
  low : ∀ k < 8 - w.used.toNat, w.curb.getLsbD k = false
  empty : w.st ≠ .ready → w.curb = 0#8 ∧ w.used = 0#3

/-- The encoder's invariant between commands (R18, R149, R151): its private packer and writer are not open, the counts are
discarded, the widths are legal and every count fits the run width. -/
structure Encoder.Inv (e : Encoder) : Prop where
  rcs : e.rcs = []
  pk : e.pk.Inv
  pkClosed : e.pk.st ≠ .ready
  mw : e.mw.Inv
  mwClosed : e.mw.st ≠ .ready
  keyWidth : e.keyWidth.toNat ≤ 64
  runWidth : e.runWidth.toNat ≤ 64
  maxCount : e.maxCount.toNat < 2 ^ e.runWidth.toNat

/-- The decoder's invariant between commands (R19). -/
structure Decoder.Inv (rd : Decoder) : Prop where
  rm : rd.rm.Inv
  rk : rd.rk.Inv
  wo : rd.wo.Inv

/-- A lane's invariant between commands (R20, R191, R198, R199): idle and empty, done with a filled buffer, or aborted and empty. -/
structure Lane.Inv (bufMax : Nat) (l : Lane) : Prop where
  phase : l.phase = .idle ∨ l.phase = .done ∨ l.phase = .aborted
  idle : l.phase = .idle → l.size = 0#64 ∧ l.buf = [] ∧ l.dataSink = [] ∧ l.metaSink = []
  done : l.phase = .done → l.buf.length = l.size.toNat
  aborted : l.phase = .aborted → l.buf = [] ∧ l.dataSink = [] ∧ l.metaSink = []
  buf : l.buf.length ≤ bufMax
  enc : l.enc.Inv

/-- The bounds of the block's storage: `BUF_MAX` within the limit of R4, `BUFMEM` and every lane buffer within `BUF_MAX` (R20, R21), the
source file below `2^64` bytes (R24). -/
abbrev Memory.wf (s : State) : Prop :=
  s.bufMax ≤ 2 ^ 45 - 1 ∧ s.bufMem.length ≤ s.bufMax ∧ s.pdFile.length < 2 ^ 64 ∧ ∀ l ∈ s.lanes, l.buf.length ≤ s.bufMax

/-- The block's invariant between commands. -/
structure State.Inv (s : State) : Prop where
  memory : Memory.wf s
  nLanes : 1 ≤ s.lanes.length ∧ s.lanes.length ≤ 255
  bx : s.bx.Inv s.bufMax
  bp : s.bp.Inv
  vr : s.vr.Inv
  vw : s.vw.Inv
  re : s.re.Inv
  rd : s.rd.Inv
  lanes : ∀ l ∈ s.lanes, l.Inv s.bufMax
  noFault : s.fault.code = .ok → s.fault.cw = 0#32 ∧ s.fault.aux = 0#64

end Sys2Proof.Machine
end

