-- ==== Sys2Proof/Certificates/Slice0/Obligations.lean ====
section
/-! DEFINITION. The statements for the provers. Every docstring names the rules of spec/ its statement rests on. -/

open Sys2Proof Sys2Proof.Machine

/-! ### Words used below -/

/-- The block after command `i` ended `OK` with result `v` and changed nothing but what `s` already shows (R63, R64). -/
abbrev Sys2Proof.Claims.answered (v : Word) (s : State) : State := { s with reply := some ⟨.ended .ok, v⟩ }

/-- The block after command `i` raised a fault in state `s` (R219): the fault register and the reply, nothing else. -/
abbrev Sys2Proof.Claims.faulted (i : Instr) (code : Code) (aux : Word) (s : State) : State :=
  { s with fault := ⟨code, i.word, aux⟩, reply := some ⟨.ended code, 0#64⟩ }

/-- Stream bit `i` of the padded stream of the first `size` bytes of a buffer (R92). -/
abbrev Sys2Proof.Claims.paddedBit (buf : Bytes) (size i : Nat) : Bool := (bitsOf (buf.take size)).getD i false

/-- R29's table of reset values, but for the storage that the host loads. -/
structure Sys2Proof.Claims.ResetTable (s : State) : Prop where
  fault : s.fault = ⟨.ok, 0#32, 0#64⟩
  bx : s.bx = ⟨.uninit, 0#7, 0#64, 0#64⟩
  bp : s.bp = ⟨.uninit, 0#7, 0#64, 0#6⟩
  vr : s.vr = ⟨.uninit, 0#8, 8#4, 0#64⟩
  vw : s.vw = ⟨.uninit, 0#8, 0#3⟩
  reRun : s.re.haveRun = false ∧ s.re.last = 0#64 ∧ s.re.count = 0#64 ∧ s.re.maxCount = 0#64 ∧ s.re.rcs = []
  reResult : s.re.keyWidth = 0#7 ∧ s.re.np = 0#8 ∧ s.re.numRuns = 0#48 ∧ s.re.runWidth = 0#7
  rePrivate : s.re.it = ⟨.uninit, 0#7, 0#64, 0#64⟩ ∧ s.re.pk = ⟨.uninit, 0#7, 0#64, 0#6⟩ ∧ s.re.mw = ⟨.uninit, 0#8, 0#3⟩
  rdHeader : s.rd.np = 0#8 ∧ s.rd.numRuns = 0#48 ∧ s.rd.runWidth = 0#8 ∧ s.rd.keyWidth = 0#8 ∧ s.rd.i = 0#48
  rdPrivate : s.rd.rm = ⟨.uninit, 0#8, 8#4, 0#64⟩ ∧ s.rd.rk = ⟨.uninit, 0#8, 8#4, 0#64⟩ ∧ s.rd.wo = ⟨.uninit, 0#8, 0#3⟩
  pd : s.pd = ⟨0#8, 0#7, 0#64⟩
  lanes : ∀ l ∈ s.lanes, l.phase = .idle ∧ l.size = 0#64 ∧ l.buf = [] ∧ l.dataSink = [] ∧ l.metaSink = []
  sinks : s.bpSink = [] ∧ s.vwSink = [] ∧ s.reDataSink = [] ∧ s.reMetaSink = [] ∧ s.rdOutSink = []

open Sys2Proof.Claims

/-! ### Encoding -/

/-- The encodings of V-CM-1 (95_test_vectors.md), one word of each of the fifteen commands. -/
def Obligations.DecodeReadsTheWordsOfTheSpec : Prop :=
  decode ⟨0x1000000C#32, 5#64⟩ = .ok (.bxInit 12 5#64) ∧
  decode ⟨0x11000000#32, 0#64⟩ = .ok .bxHasNext ∧
  decode ⟨0x12000000#32, 0#64⟩ = .ok .bxAdvance ∧
  decode ⟨0x13000000#32, 0#64⟩ = .ok .bxUnused ∧
  decode ⟨0x20000018#32, 0#64⟩ = .ok (.bpInit 24) ∧
  decode ⟨0x21000000#32, 7#64⟩ = .ok (.bpPush 7#64) ∧
  decode ⟨0x22000000#32, 0#64⟩ = .ok .bpClose ∧
  decode ⟨0x30000000#32, 0#64⟩ = .ok .vrInit ∧
  decode ⟨0x31000030#32, 0#64⟩ = .ok (.vrRead 48) ∧
  decode ⟨0x40000000#32, 0#64⟩ = .ok .vwInit ∧
  decode ⟨0x41000002#32, 3#64⟩ = .ok (.vwWrite 2 3#64) ∧
  decode ⟨0x42000000#32, 0#64⟩ = .ok .vwClose ∧
  decode ⟨0x50000308#32, 0#64⟩ = .ok (.reEncode 8 3) ∧
  decode ⟨0x60000000#32, 0#64⟩ = .ok .rdDecode ∧
  decode ⟨0x70000308#32, 0#64⟩ = .ok (.pdRun 8 3)

/-- R60, R61, R65: decoding what the encoder makes of a well-formed command gives the command back, every operand at every value. -/
def Obligations.DecodeInvertsEncode : Prop := ∀ i : Instr, i.WellFormed → decode (encode i) = .ok i

/-- R61, R65: a word that decodes has one meaning: its command is well formed and has exactly that word. -/
def Obligations.EncodeInvertsDecode : Prop := ∀ (c : Command) (i : Instr), decode c = .ok i → i.WellFormed ∧ i.word = c.cw

/-- R61: "the masks make the rows disjoint, so at most one row matches". -/
def Obligations.OpcodeRowsAreDisjoint : Prop :=
  ∀ (cw : CmdWord) (p q : OpcodeRow), p ∈ opcodeTable → q ∈ opcodeTable → p.covers cw = true → q.covers cw = true → p = q

/-- R66: exactly which words are illegal, and what one does: `ILLEGAL_COMMAND`, and no other state changes. -/
def Obligations.IllegalWordsRaiseIllegalCommand : Prop :=
  (∀ c : Command, (∃ e, decode c = .error e) ↔
    (unitField c.cw = 0 ∨ 8 ≤ unitField c.cw ∨
      (unitField c.cw = 1 ∧ 4 ≤ opField c.cw) ∨
      ((unitField c.cw = 2 ∨ unitField c.cw = 4) ∧ 3 ≤ opField c.cw) ∨
      (unitField c.cw = 3 ∧ 2 ≤ opField c.cw) ∨
      ((unitField c.cw = 5 ∨ unitField c.cw = 6 ∨ unitField c.cw = 7) ∧ 1 ≤ opField c.cw) ∨
      mbzField c.cw ≠ 0 ∨
      (argA c.cw ≠ 0 ∧ (unitField c.cw, opField c.cw) ∉ [(1, 0), (2, 0), (3, 1), (4, 1), (5, 0), (7, 0)]) ∨
      (argB c.cw ≠ 0 ∧ (unitField c.cw, opField c.cw) ∉ [(5, 0), (7, 0)]))) ∧
  (∀ (s : State) (c : Command) (rest : List HostAction), s.Clear → s.pending = .command c :: rest →
    (∃ e, decode c = .error e) →
    step s = .next { s with pending := rest, fault := ⟨.illegalCommand, c.cw, 0#64⟩,
                            reply := some ⟨.ended .illegalCommand, 0#64⟩ })

/-- R62: which commands `DIN` reaches, and that of a pushed or written value only the low `width` bits count. -/
def Obligations.DinReachesOnlyThreeCommands : Prop :=
  (∀ (cw : CmdWord) (d d' : Word) (i : Instr), decode ⟨cw, d⟩ = .ok i →
    if i.opcode = .bxInit ∨ i.opcode = .bpPush ∨ i.opcode = .vwWrite then i.din = d else decode ⟨cw, d'⟩ = .ok i) ∧
  (∀ (s : State) (v v' : Word), (∀ k < s.bp.width.toNat, v.getLsbD k = v'.getLsbD k) →
    exec (.bpPush v) s = exec (.bpPush v') s) ∧
  (∀ (s : State) (w : Nat) (v v' : Word), (∀ k < w, v.getLsbD k = v'.getLsbD k) →
    exec (.vwWrite w v) s = exec (.vwWrite w v') s)

/-! ### The step and the host -/

/-- R251 for the execution of one command to its end. The rest is the model's: that the host's commands stand in the list `pending` and
that `withFetchWord` puts a command before them is log 1, that the bits of a table word above bit 31 are `DIN` is log 20 (both DESIGN
CHOICE). A step whose next host action is a command executes exactly the command its word decodes to; and a word of the opcode table
presented by `withFetchWord` is executed by the very next step. -/
def Obligations.StepRunsTheDecodedCommand : Prop :=
  (∀ (s : State) (c : Command) (rest : List HostAction) (i : Instr), s.pending = .command c :: rest → decode c = .ok i →
    step s = exec i { s with pending := rest }) ∧
  (∀ (s : State) (nbits w : Nat) (i : Instr), decodeTableWord nbits w = some i → step (s.withFetchWord nbits w) = exec i s)

/-- R45, R224, U8, R24: what each action of the host changes between commands; with none pending nothing changes (the pending list
is the model's, log 1, log 14; the refusals are those of log 13). -/
def Obligations.HostActionsChangeOnlyWhatTheyName : Prop :=
  ∀ (s : State) (bytes : Bytes),
    (s.pending = [] → step s = .next s) ∧
    (bytes.length ≤ s.bufMax → perform (.loadBufMem bytes) s = .next { s with bufMem := bytes }) ∧
    (s.bufMax < bytes.length → perform (.loadBufMem bytes) s = .refused .bufMemTooLong) ∧
    perform (.loadVrSrc bytes) s = .next { s with vrSrc := bytes } ∧
    perform (.loadRdMetaSrc bytes) s = .next { s with rdMetaSrc := bytes } ∧
    perform (.loadRdDataSrc bytes) s = .next { s with rdDataSrc := bytes } ∧
    (bytes.length < 2 ^ 64 → perform (.loadPdFile bytes) s = .next { s with pdFile := bytes }) ∧
    (2 ^ 64 ≤ bytes.length → perform (.loadPdFile bytes) s = .refused .pdFileTooLong) ∧
    perform (.emptySink .bp) s = .next { s with bpSink := [] } ∧
    perform (.emptySink .vw) s = .next { s with vwSink := [] } ∧
    perform (.emptySink .reData) s = .next { s with reDataSink := [] } ∧
    perform (.emptySink .reMeta) s = .next { s with reMetaSink := [] } ∧
    perform (.emptySink .rdOut) s = .next { s with rdOutSink := [] } ∧
    (∀ r l, s.lanes[r]? = some l →
      perform (.emptySink (.laneData r)) s = .next { s with lanes := s.lanes.set r { l with dataSink := [] } } ∧
      perform (.emptySink (.laneMeta r)) s = .next { s with lanes := s.lanes.set r { l with metaSink := [] } })

/-- R29, R245: the state after power-on and the effect of the reset event: every piece of state of R29's table takes the value it gives;
the storage that the host loads is not touched, and the number of lanes stays. -/
def Obligations.ResetTakesTheValuesOfTheTable : Prop :=
  ResetTable State.reset ∧
  ∀ s : State, ∃ t, perform .reset s = .next t ∧ ResetTable t ∧ t.lanes.length = s.lanes.length ∧ t.bufMem = s.bufMem ∧
    t.vrSrc = s.vrSrc ∧ t.rdMetaSrc = s.rdMetaSrc ∧ t.rdDataSrc = s.rdDataSrc ∧ t.pdFile = s.pdFile ∧ t.bufMax = s.bufMax

/-- R220: while a fault is latched every command, legal or not, is refused and nothing changes; only reset clears the fault. -/
def Obligations.LatchedBlockRefusesEveryCommand : Prop :=
  (∀ (s : State) (c : Command) (rest : List HostAction), ¬ s.Clear → s.pending = .command c :: rest →
    step s = .next { s with pending := rest, reply := some ⟨.refused, 0#64⟩ }) ∧
  (∀ (s t : State) (a : HostAction) (rest : List HostAction), ¬ s.Clear → s.pending = a :: rest → a ≠ .reset →
    step s = .next t → t.fault = s.fault)

/-- R219, R222: a fault writes the fault register and the reply; a primitive command and `RE.ENCODE` change nothing else. -/
def Obligations.FaultsArePrecise : Prop :=
  ∀ (i : Instr) (s t : State), s.Clear → exec i s = .next t → ¬ t.Clear →
    t.fault.cw = i.word ∧ t.reply = some ⟨.ended t.fault.code, 0#64⟩ ∧
    (i ≠ .rdDecode → (∀ kw n, i ≠ .pdRun kw n) → t = { s with fault := t.fault, reply := t.reply })

/-- R64, R256: every command, in every state, ends with a reply: `OK`, a fault code with result 0, or `REFUSED` with result 0. -/
def Obligations.EveryCommandEndsWithAReply : Prop :=
  ∀ (i : Instr) (s : State), ∃ t r, exec i s = .next t ∧ t.reply = some r ∧
    ((s.Clear ∧ r.status = .ended .ok ∧ t.fault = s.fault) ∨
      (s.Clear ∧ t.fault.code ≠ .ok ∧ t.fault.cw = i.word ∧ r = ⟨.ended t.fault.code, 0#64⟩) ∨
      (¬ s.Clear ∧ r = ⟨.refused, 0#64⟩ ∧ t.fault = s.fault))

/-- R216, R217, R221: which fault each primitive command, `RE.ENCODE` and `PD.RUN` raise, argument checks (A before B, then the size)
before state checks before data checks, and what `FAULT.AUX` records. -/
def Obligations.ChecksComeInTheOrderOfTheSpec : Prop :=
  ∀ (s : State) (a b : Nat) (d : Word), s.Clear →
    (¬ WidthOk a → exec (.bxInit a d) s = .next (faulted (.bxInit a d) .badArgument (BitVec.ofNat 64 a) s)) ∧
    (WidthOk a → s.bufMem.length < d.toNat → exec (.bxInit a d) s = .next (faulted (.bxInit a d) .resource d s)) ∧
    (s.bx.st ≠ .ready → exec .bxHasNext s = .next (faulted .bxHasNext .badState (auxOfState s.bx.st) s)) ∧
    (s.bx.st ≠ .ready → exec .bxAdvance s = .next (faulted .bxAdvance .badState (auxOfState s.bx.st) s)) ∧
    (s.bx.st = .ready → 8 * s.bx.size.toNat ≤ s.bx.cur.toNat →
      exec .bxAdvance s = .next (faulted .bxAdvance .exhausted s.bx.cur s)) ∧
    (s.bx.st ≠ .ready → exec .bxUnused s = .next (faulted .bxUnused .badState (auxOfState s.bx.st) s)) ∧
    (¬ WidthOk a → exec (.bpInit a) s = .next (faulted (.bpInit a) .badArgument (BitVec.ofNat 64 a) s)) ∧
    (WidthOk a → s.bp.st = .ready → exec (.bpInit a) s = .next (faulted (.bpInit a) .badState 1#64 s)) ∧
    (s.bp.st ≠ .ready → exec (.bpPush d) s = .next (faulted (.bpPush d) .badState (auxOfState s.bp.st) s)) ∧
    (s.bp.st ≠ .ready → exec .bpClose s = .next (faulted .bpClose .badState (auxOfState s.bp.st) s)) ∧
    (¬ WidthOk a → exec (.vrRead a) s = .next (faulted (.vrRead a) .badArgument (BitVec.ofNat 64 a) s)) ∧
    (WidthOk a → s.vr.st ≠ .ready → exec (.vrRead a) s = .next (faulted (.vrRead a) .badState (auxOfState s.vr.st) s)) ∧
    (WidthOk a → s.vr.st = .ready → (s.vr.unread s.vrSrc).length < a →
      exec (.vrRead a) s = .next (faulted (.vrRead a) .sourceUnderrun s.vr.pos s)) ∧
    (s.vw.st = .ready → exec .vwInit s = .next (faulted .vwInit .badState 1#64 s)) ∧
    (¬ WidthOk a → exec (.vwWrite a d) s = .next (faulted (.vwWrite a d) .badArgument (BitVec.ofNat 64 a) s)) ∧
    (WidthOk a → s.vw.st ≠ .ready →
      exec (.vwWrite a d) s = .next (faulted (.vwWrite a d) .badState (auxOfState s.vw.st) s)) ∧
    (s.vw.st ≠ .ready → exec .vwClose s = .next (faulted .vwClose .badState (auxOfState s.vw.st) s)) ∧
    (¬ WidthOk a → exec (.reEncode a b) s = .next (faulted (.reEncode a b) .badArgument (BitVec.ofNat 64 a) s)) ∧
    (¬ WidthOk a → exec (.pdRun a b) s = .next (faulted (.pdRun a b) .badArgument (BitVec.ofNat 64 a) s)) ∧
    (WidthOk a → ¬ (1 ≤ b ∧ b ≤ s.lanes.length) →
      exec (.pdRun a b) s = .next (faulted (.pdRun a b) .badArgument (BitVec.ofNat 64 b) s))

/-- R13, R64, R191, R216: the numbers of the status and fault codes, the unit states and the lane phases. -/
def Obligations.CodesHaveTheNumbersOfTheSpec : Prop :=
  Code.bits .ok = 0x00#8 ∧ Code.bits .illegalCommand = 0x01#8 ∧ Code.bits .badArgument = 0x02#8 ∧
  Code.bits .badState = 0x03#8 ∧ Code.bits .exhausted = 0x04#8 ∧ Code.bits .sourceUnderrun = 0x05#8 ∧
  Code.bits .badHeader = 0x06#8 ∧ Code.bits .resource = 0x07#8 ∧ Status.bits .refused = 0xFF#8 ∧
  (∀ c : Code, Status.bits (.ended c) = c.bits) ∧
  auxOfState .uninit = 0#64 ∧ auxOfState .ready = 1#64 ∧ auxOfState .closed = 2#64 ∧
  Phase.bits .idle = 0#3 ∧ Phase.bits .named = 1#3 ∧ Phase.bits .sized = 2#3 ∧ Phase.bits .allocated = 3#3 ∧
  Phase.bits .loaded = 4#3 ∧ Phase.bits .done = 5#3 ∧ Phase.bits .aborted = 7#3

/-- R10, R25: `STATUS` and `DOUT` hold no value between commands: no command reads the reply of an earlier one. -/
def Obligations.NoCommandReadsAnEarlierReply : Prop :=
  ∀ (i : Instr) (s : State) (r : Option Reply), exec i { s with reply := r } = exec i s

/-! ### Frames -/

/-- R27, R40, R252: what each of the fifteen commands leaves unchanged: it changes only its own unit's state, its own sinks, the fault
register and the reply. No command writes a memory or a source that the host loads. -/
def Obligations.CommandsChangeOnlyTheirOwnUnit : Prop :=
  ∀ (s t : State) (a b : Nat) (d : Word),
    (exec (.bxInit a d) s = .next t → t = { s with bx := t.bx, fault := t.fault, reply := t.reply }) ∧
    (exec .bxHasNext s = .next t → t = { s with fault := t.fault, reply := t.reply }) ∧
    (exec .bxAdvance s = .next t → t = { s with bx := t.bx, drawn := t.drawn, fault := t.fault, reply := t.reply }) ∧
    (exec .bxUnused s = .next t → t = { s with fault := t.fault, reply := t.reply }) ∧
    (exec (.bpInit a) s = .next t → t = { s with bp := t.bp, fault := t.fault, reply := t.reply }) ∧
    (exec (.bpPush d) s = .next t → t = { s with bp := t.bp, bpSink := t.bpSink, fault := t.fault, reply := t.reply }) ∧
    (exec .bpClose s = .next t → t = { s with bp := t.bp, bpSink := t.bpSink, fault := t.fault, reply := t.reply }) ∧
    (exec .vrInit s = .next t → t = { s with vr := t.vr, reply := t.reply }) ∧
    (exec (.vrRead a) s = .next t → t = { s with vr := t.vr, fault := t.fault, reply := t.reply }) ∧
    (exec .vwInit s = .next t → t = { s with vw := t.vw, fault := t.fault, reply := t.reply }) ∧
    (exec (.vwWrite a d) s = .next t →
      t = { s with vw := t.vw, vwSink := t.vwSink, fault := t.fault, reply := t.reply }) ∧
    (exec .vwClose s = .next t → t = { s with vw := t.vw, vwSink := t.vwSink, fault := t.fault, reply := t.reply }) ∧
    (exec (.reEncode a b) s = .next t →
      t = { s with re := t.re, reDataSink := t.reDataSink, reMetaSink := t.reMetaSink, fault := t.fault, reply := t.reply }) ∧
    (exec .rdDecode s = .next t → t = { s with rd := t.rd, rdOutSink := t.rdOutSink, fault := t.fault, reply := t.reply }) ∧
    (exec (.pdRun a b) s = .next t →
      t = { s with pd := t.pd, lanes := t.lanes, fault := t.fault, reply := t.reply })

/-- R252: commands to different units commute: issued in either order, each gives the same reply, and the block ends in the same state.
The two hypotheses that neither faults shut out the one thing the units share, `FAULT`. -/
def Obligations.CommandsOfDifferentUnitsCommute : Prop :=
  ∀ (i j : Instr) (s t t' : State),
    unitField (opcodeRow i.opcode).matchBits ≠ unitField (opcodeRow j.opcode).matchBits → s.Clear →
    exec i s = .next t → t.Clear → exec j s = .next t' → t'.Clear →
    ∃ u u' : State, exec j t = .next u ∧ exec i t' = .next u' ∧ u.Clear ∧ u.reply = t'.reply ∧ u'.reply = t.reply ∧
      u = { u' with reply := u.reply }

/-- R23, R142, R167, R186: who changes a sink, and how. `BP.SINK` and `VW.SINK` only grow, whatever the command. The sinks of `RE`, `RD`
and the lanes are changed by `RE.ENCODE`, `RD.DECODE` and `PD.RUN` alone; an accepted one of these empties its sinks first, so that
nothing they held before has any effect on what it does, and a refused argument leaves them as they are. -/
def Obligations.SinksChangeOnlyByTheirOwnCommands : Prop :=
  (∀ (i : Instr) (s t : State), exec i s = .next t →
    s.bpSink <+: t.bpSink ∧ s.vwSink <+: t.vwSink ∧
    ((∀ a b, i ≠ .reEncode a b) → t.reDataSink = s.reDataSink ∧ t.reMetaSink = s.reMetaSink) ∧
    (i ≠ .rdDecode → t.rdOutSink = s.rdOutSink) ∧ ((∀ a b, i ≠ .pdRun a b) → t.lanes = s.lanes)) ∧
  (∀ (s : State) (kw np : Nat), s.Clear →
    (WidthOk kw → exec (.reEncode kw np) s = exec (.reEncode kw np) { s with reDataSink := [], reMetaSink := [] }) ∧
    (∀ t, ¬ WidthOk kw → exec (.reEncode kw np) s = .next t →
      t.reDataSink = s.reDataSink ∧ t.reMetaSink = s.reMetaSink)) ∧
  (∀ s : State, s.Clear → exec .rdDecode s = exec .rdDecode { s with rdOutSink := [] }) ∧
  (∀ (s : State) (kw n : Nat), s.Clear →
    (WidthOk kw → 1 ≤ n → n ≤ s.lanes.length →
      exec (.pdRun kw n) s =
        exec (.pdRun kw n) { s with lanes := s.lanes.map fun l => { l with dataSink := [], metaSink := [] } }) ∧
    (∀ t, ¬ (WidthOk kw ∧ 1 ≤ n ∧ n ≤ s.lanes.length) → exec (.pdRun kw n) s = .next t → t.lanes = s.lanes))

/-! ### BX -/

/-- R91: `BX.INIT`. -/
def Obligations.BxInitStartsTheExtractor : Prop :=
  ∀ (s : State) (stepBits : Nat) (sizeBytes : Word), s.Clear →
    exec (.bxInit stepBits sizeBytes) s = .next
      (if ¬ WidthOk stepBits then faulted (.bxInit stepBits sizeBytes) .badArgument (BitVec.ofNat 64 stepBits) s
       else if s.bufMem.length < sizeBytes.toNat then faulted (.bxInit stepBits sizeBytes) .resource sizeBytes s
       else answered 0#64 { s with bx := ⟨.ready, BitVec.ofNat 7 stepBits, sizeBytes, 0#64⟩ })

/-- R93: `BX.HASNEXT`. -/
def Obligations.BxHasNextTellsWhetherABitRemains : Prop :=
  ∀ s : State, s.Clear →
    exec .bxHasNext s = .next
      (if s.bx.st ≠ .ready then faulted .bxHasNext .badState (auxOfState s.bx.st) s
       else answered (if s.bx.cur.toNat < 8 * s.bx.size.toNat then 1#64 else 0#64) s)

/-- R94: `BX.ADVANCE` returns the next group left-justified and moves the cursor; its two faults. -/
def Obligations.BxAdvanceReturnsTheNextGroup : Prop :=
  ∀ s : State, s.Clear →
    (s.bx.st ≠ .ready → exec .bxAdvance s = .next (faulted .bxAdvance .badState (auxOfState s.bx.st) s)) ∧
    (s.bx.st = .ready → 8 * s.bx.size.toNat ≤ s.bx.cur.toNat →
      exec .bxAdvance s = .next (faulted .bxAdvance .exhausted s.bx.cur s)) ∧
    (s.bx.st = .ready → s.bx.cur.toNat < 8 * s.bx.size.toNat → WidthOk s.bx.step.toNat →
      s.bx.cur.toNat + s.bx.step.toNat < 2 ^ 64 → s.bx.size.toNat ≤ s.bufMem.length →
      ∃ g : Word,
        exec .bxAdvance s = .next (answered g
          { s with bx := { s.bx with cur := BitVec.ofNat 64 (s.bx.cur.toNat + s.bx.step.toNat) } }) ∧
        (∀ j < s.bx.step.toNat, g.getLsbD (63 - j) = paddedBit s.bufMem s.bx.size.toNat (s.bx.cur.toNat + j)) ∧
        (∀ k < 64 - s.bx.step.toNat, g.getLsbD k = false))

/-- R253, U5: `BX.ADVANCE` after the host has made `BUFMEM` shorter than `BX.SIZE`: no fault, the cursor moves as usual, the bits below
the new length are those of R94; of the group's bits at or beyond it nothing is said; below the group the result is zero. -/
def Obligations.BxAdvanceOnAShortenedBufferRuns : Prop :=
  ∀ s : State, s.Clear → s.bx.st = .ready → WidthOk s.bx.step.toNat → s.bx.cur.toNat + s.bx.step.toNat < 2 ^ 64 →
    s.bx.cur.toNat < 8 * s.bx.size.toNat → s.bufMem.length < s.bx.size.toNat →
      ∃ (g : Word) (t : State), exec .bxAdvance s = .next t ∧ t.reply = some ⟨.ended .ok, g⟩ ∧ t.fault = s.fault ∧
        t.bx = { s.bx with cur := BitVec.ofNat 64 (s.bx.cur.toNat + s.bx.step.toNat) } ∧
        (∀ j < s.bx.step.toNat, s.bx.cur.toNat + j < 8 * s.bufMem.length →
          some (g.getLsbD (63 - j)) = (bitsOf s.bufMem)[s.bx.cur.toNat + j]?) ∧
        (∀ k < 64 - s.bx.step.toNat, g.getLsbD k = false)

/-- R95: `BX.UNUSED`, and its agreement with `BX.HASNEXT`. -/
def Obligations.BxUnusedCountsTheRemainingBits : Prop :=
  ∀ s : State, s.Clear →
    (s.bx.st ≠ .ready → exec .bxUnused s = .next (faulted .bxUnused .badState (auxOfState s.bx.st) s)) ∧
    (s.bx.st = .ready → 8 * s.bx.size.toNat < 2 ^ 64 →
      ∃ n : Word, exec .bxUnused s = .next (answered n s) ∧
        n.toNat = (if s.bx.cur.toNat ≤ 8 * s.bx.size.toNat then 8 * s.bx.size.toNat - s.bx.cur.toNat else 0) ∧
        (n ≠ 0#64 ↔ exec .bxHasNext s = .next (answered 1#64 s)))

/-- R97, with the count of R96: from `BX.INIT` the groups reproduce the buffer's bits, with less than one group of zero padding; at width
8 they are its bytes. -/
def Obligations.BxGroupsReproduceTheBuffer : Prop :=
  ∀ (s : State) (w n : Nat), s.Clear → WidthOk w → n ≤ s.bufMem.length → n ≤ 2 ^ 45 - 1 →
    ∃ (t : State) (groups : List Word),
      runOk (.bxInit w (BitVec.ofNat 64 n) :: List.replicate (groupCount n w) .bxAdvance) s = some (t, 0#64 :: groups) ∧
      groups.length = groupCount n w ∧
      groups.flatMap (fun (g : Word) => field w (g >>> (64 - w))) =
        bitsOf (s.bufMem.take n) ++ List.replicate (groupCount n w * w - 8 * n) false ∧
      8 * n ≤ groupCount n w * w ∧ groupCount n w * w - 8 * n ≤ w - 1 ∧
      exec .bxHasNext t = .next (answered 0#64 t) ∧
      exec .bxAdvance t = .next (faulted .bxAdvance .exhausted t.bx.cur t) ∧
      (w = 8 → groups.map (fun (g : Word) => (g >>> 56).setWidth 8) = s.bufMem.take n)

/-- R47, R48, R98: `BX.ADVANCE` depends on no buffer byte but those its group covers below `BX.SIZE`. -/
def Obligations.BxAdvanceReadsOnlyTheBytesOfItsGroup : Prop :=
  ∀ (s : State) (other : Bytes), s.Clear → s.bx.st = .ready → WidthOk s.bx.step.toNat →
    s.bx.size.toNat ≤ s.bufMem.length → s.bx.size.toNat ≤ other.length →
    (∀ a, s.bx.cur.toNat / 8 ≤ a → a ≤ (s.bx.cur.toNat + s.bx.step.toNat - 1) / 8 → a < s.bx.size.toNat →
      s.bufMem[a]? = other[a]?) →
    ∃ t, exec .bxAdvance s = .next t ∧ exec .bxAdvance { s with bufMem := other } = .next { t with bufMem := other }

/-! ### BP -/

/-- R106: `BP.INIT`. -/
def Obligations.BpInitOpensThePacker : Prop :=
  ∀ (s : State) (width : Nat), s.Clear →
    exec (.bpInit width) s = .next
      (if ¬ WidthOk width then faulted (.bpInit width) .badArgument (BitVec.ofNat 64 width) s
       else if s.bp.st = .ready then faulted (.bpInit width) .badState 1#64 s
       else answered 0#64 { s with bp := ⟨.ready, BitVec.ofNat 7 width, 0#64, 0#6⟩ })

/-- R107, R108: `BP.PUSH` appends the low `width` bits to what the sink and the accumulator hold, emits a word of eight bytes exactly
when 64 bits have accumulated, and keeps the accumulator's low bits zero. -/
def Obligations.BpPushAppendsTheLowBits : Prop :=
  ∀ (s : State) (v : Word), s.Clear →
    (s.bp.st ≠ .ready → exec (.bpPush v) s = .next (faulted (.bpPush v) .badState (auxOfState s.bp.st) s)) ∧
    (s.bp.st = .ready → s.bp.Inv →
      ∃ (p : Packer) (out : Bytes),
        exec (.bpPush v) s = .next (answered 0#64 { s with bp := p, bpSink := s.bpSink ++ out }) ∧
        p.st = .ready ∧ p.width = s.bp.width ∧ p.Inv ∧
        p.fill.toNat = (s.bp.fill.toNat + s.bp.width.toNat) % 64 ∧
        out.length = (if s.bp.fill.toNat + s.bp.width.toNat < 64 then 0 else 8) ∧
        bitsOf out ++ p.pendingBits = s.bp.pendingBits ++ field s.bp.width.toNat v)

/-- R109: `BP.CLOSE` appends the pending bits, zero-padded to a byte, and closes the packer. -/
def Obligations.BpCloseFlushesThePendingBits : Prop :=
  ∀ s : State, s.Clear →
    (s.bp.st ≠ .ready → exec .bpClose s = .next (faulted .bpClose .badState (auxOfState s.bp.st) s)) ∧
    (s.bp.st = .ready → s.bp.Inv →
      exec .bpClose s = .next (answered 0#64
        { s with bp := ⟨.closed, s.bp.width, 0#64, 0#6⟩, bpSink := s.bpSink ++ packBits s.bp.pendingBits }))

/-- R110: from `BP.INIT` to `BP.CLOSE` the sink receives the pushed fields back to back, zero-padded to a byte, which is what `VW` makes
of the same fields. -/
def Obligations.PackerWritesItsFieldsBackToBack : Prop :=
  ∀ (s : State) (w : Nat) (vs : List Word), s.Clear → WidthOk w → s.bp.st ≠ .ready → s.vw.st ≠ .ready →
    ∃ (t u : State) (ds es : List Word),
      runOk (.bpInit w :: (vs.map Instr.bpPush ++ [.bpClose])) s = some (t, ds) ∧
      t.bpSink = s.bpSink ++ packBits (vs.flatMap (field w)) ∧
      (packBits (vs.flatMap (field w))).length = (vs.length * w + 7) / 8 ∧
      runOk (.vwInit :: (vs.map (Instr.vwWrite w) ++ [.vwClose])) s = some (u, es) ∧
      u.vwSink = s.vwSink ++ packBits (vs.flatMap (field w))

/-- R111: before the close only whole 64-bit words have reached the sink. -/
def Obligations.PackerEmitsOnlyWholeWords : Prop :=
  ∀ (s : State) (w : Nat) (vs : List Word), s.Clear → WidthOk w → s.bp.st ≠ .ready →
    ∃ (t : State) (ds : List Word) (out : Bytes),
      runOk (.bpInit w :: vs.map Instr.bpPush) s = some (t, ds) ∧ t.bpSink = s.bpSink ++ out ∧
      out.length = 8 * (vs.length * w / 64) ∧ t.bp.fill.toNat = vs.length * w % 64 ∧
      bitsOf out = (vs.flatMap (field w)).take (8 * out.length)

/-! ### VR and VW -/

/-- R121: `VR.INIT`. -/
def Obligations.VrInitRewindsTheReader : Prop :=
  ∀ s : State, s.Clear → exec .vrInit s = .next (answered 0#64 { s with vr := ⟨.ready, 0#8, 8#4, 0#64⟩ })

/-- R122, R124: `VR.READ` returns the next `width` unread bits right-justified, fetches bytes only when it needs them (R47), or raises
`SOURCE_UNDERRUN` and changes no reader state. -/
def Obligations.VrReadTakesTheNextBits : Prop :=
  ∀ (s : State) (width : Nat), s.Clear →
    (¬ WidthOk width → exec (.vrRead width) s = .next (faulted (.vrRead width) .badArgument (BitVec.ofNat 64 width) s)) ∧
    (WidthOk width → s.vr.st ≠ .ready →
      exec (.vrRead width) s = .next (faulted (.vrRead width) .badState (auxOfState s.vr.st) s)) ∧
    (WidthOk width → s.vr.st = .ready → (s.vr.unread s.vrSrc).length < width →
      exec (.vrRead width) s = .next (faulted (.vrRead width) .sourceUnderrun s.vr.pos s)) ∧
    (WidthOk width → s.vr.st = .ready → s.vr.used.toNat ≤ 8 → s.vrSrc.length < 2 ^ 64 →
      width ≤ (s.vr.unread s.vrSrc).length →
      ∃ (r : Reader) (v : Word),
        exec (.vrRead width) s = .next (answered v { s with vr := r }) ∧
        field width v = (s.vr.unread s.vrSrc).take width ∧ v.toNat < 2 ^ width ∧
        r.st = .ready ∧ r.unread s.vrSrc = (s.vr.unread s.vrSrc).drop width ∧
        r.pos.toNat = s.vr.pos.toNat + (width - (8 - s.vr.used.toNat) + 7) / 8 ∧
        r.curb = (if width ≤ 8 - s.vr.used.toNat then s.vr.curb else s.vrSrc.getD (r.pos.toNat - 1) 0#8) ∧
        r.used.toNat = (if width ≤ 8 - s.vr.used.toNat then s.vr.used.toNat + width
          else (width - (8 - s.vr.used.toNat) + 7) % 8 + 1))

/-- R123: from `VR.INIT` successive reads follow the source's bit stream. -/
def Obligations.SuccessiveReadsFollowTheStream : Prop :=
  ∀ (s : State) (ws : List Nat), s.Clear → (∀ w ∈ ws, WidthOk w) → s.vrSrc.length < 2 ^ 64 → ws.sum ≤ 8 * s.vrSrc.length →
    ∃ (t : State) (rs : List Word),
      runOk (.vrInit :: ws.map Instr.vrRead) s = some (t, 0#64 :: rs) ∧ rs.length = ws.length ∧
      ((ws.zip rs).flatMap fun p => field p.1 p.2) = (bitsOf s.vrSrc).take ws.sum ∧
      (∀ p ∈ ws.zip rs, p.2.toNat < 2 ^ p.1)

/-- R126: `VW.INIT`. -/
def Obligations.VwInitOpensTheWriter : Prop :=
  ∀ s : State, s.Clear →
    exec .vwInit s = .next
      (if s.vw.st = .ready then faulted .vwInit .badState 1#64 s else answered 0#64 { s with vw := ⟨.ready, 0#8, 0#3⟩ })

/-- R128: `VW.WRITE` appends the low `width` bits, most significant first; a byte is emitted the moment its eighth bit arrives. -/
def Obligations.VwWriteAppendsTheLowBits : Prop :=
  ∀ (s : State) (width : Nat) (v : Word), s.Clear →
    (¬ WidthOk width → exec (.vwWrite width v) s = .next (faulted (.vwWrite width v) .badArgument (BitVec.ofNat 64 width) s)) ∧
    (WidthOk width → s.vw.st ≠ .ready →
      exec (.vwWrite width v) s = .next (faulted (.vwWrite width v) .badState (auxOfState s.vw.st) s)) ∧
    (WidthOk width → s.vw.st = .ready → s.vw.Inv →
      ∃ (w : Writer) (out : Bytes),
        exec (.vwWrite width v) s = .next (answered 0#64 { s with vw := w, vwSink := s.vwSink ++ out }) ∧
        w.st = .ready ∧ w.Inv ∧ w.used.toNat = (s.vw.used.toNat + width) % 8 ∧
        out.length = (s.vw.used.toNat + width) / 8 ∧
        bitsOf out ++ w.pendingBits = s.vw.pendingBits ++ field width v)

/-- R129: `VW.CLOSE` appends the partial byte, zero-padded, and closes the writer. -/
def Obligations.VwCloseFlushesThePartialByte : Prop :=
  ∀ s : State, s.Clear →
    (s.vw.st ≠ .ready → exec .vwClose s = .next (faulted .vwClose .badState (auxOfState s.vw.st) s)) ∧
    (s.vw.st = .ready → s.vw.Inv →
      exec .vwClose s = .next (answered 0#64
        { s with vw := ⟨.closed, 0#8, 0#3⟩, vwSink := s.vwSink ++ packBits s.vw.pendingBits }))

/-- R130: from `VW.INIT` to `VW.CLOSE` the sink receives the written fields back to back, zero-padded to a byte; before the close, its
whole bytes; with equal widths, byte for byte what `BP` makes of the same values. -/
def Obligations.WriterWritesItsFieldsBackToBack : Prop :=
  ∀ (s : State) (fs : List (Nat × Word)), s.Clear → (∀ f ∈ fs, WidthOk f.1) → s.vw.st ≠ .ready →
    ∃ (t u : State) (ds es : List Word),
      runOk (.vwInit :: fs.map fun f => .vwWrite f.1 f.2) s = some (t, ds) ∧
      t.vwSink = s.vwSink ++
        (packBits (fs.flatMap fun f => field f.1 f.2)).take ((fs.map Prod.fst).sum / 8) ∧
      runOk (.vwInit :: ((fs.map fun f => .vwWrite f.1 f.2) ++ [.vwClose])) s = some (u, es) ∧
      u.vwSink = s.vwSink ++ packBits (fs.flatMap fun f => field f.1 f.2) ∧
      (∀ w, WidthOk w → (∀ f ∈ fs, f.1 = w) → s.bp.st ≠ .ready →
        ∃ (b : State) (bs : List Word),
          runOk (.bpInit w :: ((fs.map fun f => .bpPush f.2) ++ [.bpClose])) s = some (b, bs) ∧
          b.bpSink = s.bpSink ++ packBits (fs.flatMap fun f => field f.1 f.2))

/-- R131: reading a written stream back with the same widths returns the written values, cut to their widths; at most seven zero bits
remain. -/
def Obligations.ReadingInvertsWriting : Prop :=
  ∀ (s : State) (fs : List (Nat × Word)), s.Clear → (∀ f ∈ fs, WidthOk f.1) → s.vw.st ≠ .ready → s.vwSink = [] →
    (fs.map Prod.fst).sum < 2 ^ 64 →
    ∃ (t u : State) (ds rs : List Word),
      runOk (.vwInit :: ((fs.map fun f => .vwWrite f.1 f.2) ++ [.vwClose])) s = some (t, ds) ∧
      runOk (.vrInit :: fs.map fun f => .vrRead f.1) { t with vrSrc := t.vwSink } = some (u, 0#64 :: rs) ∧
      rs.map BitVec.toNat = fs.map (fun f => f.2.toNat % 2 ^ f.1) ∧
      (u.vr.unread u.vrSrc).length ≤ 7 ∧ ∀ b ∈ u.vr.unread u.vrSrc, b = false

/-! ### RE -/

/-- R154, with R71, R72, R74, R142, R149, R152: `RE.ENCODE` cuts the keys of `BUFMEM` into maximal runs and leaves the Fragment of those
runs in its sinks. Everything outside `RE` and its sinks is unchanged. -/
def Obligations.EncodeProducesTheFragmentOfTheRuns : Prop :=
  ∀ (s : State) (kw np : Nat), s.Clear → WidthOk kw → s.bufMem.length ≤ 2 ^ 45 - 1 →
    ∃ (t : State) (keys counts : List Word),
      exec (.reEncode kw np) s = .next t ∧
      t = { s with re := t.re, reDataSink := t.reDataSink, reMetaSink := t.reMetaSink,
                   reply := some ⟨.ended .ok, BitVec.ofNat 64 keys.length⟩ } ∧
      keys.length = counts.length ∧ expandRuns keys counts = keysOf kw s.bufMem ∧ NeighboursDiffer keys ∧
      (∀ c ∈ counts, c ≠ 0#64) ∧ (counts.map BitVec.toNat).sum = groupCount s.bufMem.length kw ∧
      t.reDataSink = dataRecord kw keys ∧ t.reMetaSink = metaRecord (np % 2 ^ 8) t.re.runWidth.toNat counts ∧
      t.re.keyWidth.toNat = kw ∧ t.re.np.toNat = np % 2 ^ 8 ∧ t.re.numRuns.toNat = keys.length ∧
      t.re.maxCount.toNat = (counts.map BitVec.toNat).foldl max 0 ∧ t.re.rcs = []

/-- R149: the run width is the least width, from 1 up, that holds the largest count; it is at most 48 within the limit of R4. -/
def Obligations.RunWidthIsTheLeastThatFits : Prop :=
  ∀ (s : State) (kw np : Nat), s.Clear → WidthOk kw →
    ∃ t, exec (.reEncode kw np) s = .next t ∧ 1 ≤ t.re.runWidth.toNat ∧
      t.re.maxCount.toNat < 2 ^ t.re.runWidth.toNat ∧
      (∀ w, 1 ≤ w → t.re.maxCount.toNat < 2 ^ w → t.re.runWidth.toNat ≤ w) ∧
      (s.bufMem.length ≤ 2 ^ 45 - 1 → t.re.runWidth.toNat ≤ 48)

/-- R156: the Fragment of an empty buffer. -/
def Obligations.EncodeOfAnEmptyBuffer : Prop :=
  ∀ (s : State) (kw np : Nat), s.Clear → WidthOk kw → s.bufMem = [] →
    ∃ t, exec (.reEncode kw np) s = .next t ∧ t.reply = some ⟨.ended .ok, 0#64⟩ ∧ t.reDataSink = [BitVec.ofNat 8 kw] ∧
      t.reMetaSink = [BitVec.ofNat 8 np, 0#8, 0#8, 0#8, 0#8, 0#8, 0#8, 1#8] ∧ t.re.numRuns = 0#48 ∧
      t.re.maxCount = 0#64 ∧ t.re.runWidth = 1#7 ∧ t.re.haveRun = false

/-- R148, R154 (S5 of 95_test_vectors.md): a buffer of L equal keys gives exactly one run record, the last run flushed. -/
def Obligations.EqualKeysMakeOneRun : Prop :=
  ∀ (s : State) (kw np n : Nat) (k : Word), s.Clear → WidthOk kw → s.bufMem.length ≤ 2 ^ 45 - 1 → 1 ≤ n →
    keysOf kw s.bufMem = List.replicate n k →
    ∃ t, exec (.reEncode kw np) s = .next t ∧ t.reply = some ⟨.ended .ok, 1#64⟩ ∧ t.reDataSink = dataRecord kw [k] ∧
      t.reMetaSink = metaRecord (np % 2 ^ 8) t.re.runWidth.toNat [BitVec.ofNat 64 n]

/-! ### RD -/

/-- R75, R166, R167, R169 to R173: `RD.DECODE` of any list of run records, escape markers among them, whatever bits follow in the two
sources: each run's key as often as its count says, each literal key once, the last byte zero-padded. -/
def Obligations.DecodeExpandsTheRunRecords : Prop :=
  ∀ (s : State) (np kw rw : Nat) (records : List RunRecord) (metaRest dataRest : List Bool),
    s.Clear → np < 2 ^ 8 → WidthOk kw → WidthOk rw → records.length < 2 ^ 48 → (∀ r ∈ records, r.Fits rw kw) →
    s.rdMetaSrc.length < 2 ^ 64 → s.rdDataSrc.length < 2 ^ 64 →
    bitsOf s.rdMetaSrc = metaBits np records.length rw (records.flatMap (RunRecord.countBits rw)) ++ metaRest →
    bitsOf s.rdDataSrc =
      field 8 (BitVec.ofNat 64 kw) ++ (records.flatMap RunRecord.keys).flatMap (field kw) ++ dataRest →
    ∃ t, exec .rdDecode s = .next t ∧
      t = { s with rd := t.rd, rdOutSink := t.rdOutSink, reply := some ⟨.ended .ok, 0#64⟩ } ∧
      t.rdOutSink = packBits ((records.flatMap RunRecord.output).flatMap (field kw)) ∧
      t.rd.np.toNat = np ∧ t.rd.numRuns.toNat = records.length ∧ t.rd.runWidth.toNat = rw ∧ t.rd.keyWidth.toNat = kw ∧
      t.rd.i.toNat = records.length ∧ t.rd.rm.unread s.rdMetaSrc = metaRest ∧ t.rd.rk.unread s.rdDataSrc = dataRest

/-- R168: a width outside 1 to 64 in a header raises `BAD_HEADER` before any output. -/
def Obligations.DecodeRejectsBadHeaders : Prop :=
  ∀ (s : State) (kw rw : Byte), s.Clear → s.rdMetaSrc.length < 2 ^ 64 → s.rdDataSrc.length < 2 ^ 64 →
    s.rdMetaSrc[7]? = some rw → s.rdDataSrc[0]? = some kw → ¬ (WidthOk rw.toNat ∧ WidthOk kw.toNat) →
    ∃ t, exec .rdDecode s = .next t ∧
      t = { s with rd := t.rd, rdOutSink := [],
                   fault := ⟨.badHeader, 0x60000000#32, BitVec.ofNat 64 (256 * kw.toNat + rw.toNat)⟩,
                   reply := some ⟨.ended .badHeader, 0#64⟩ } ∧
      t.rd.runWidth = rw ∧ t.rd.keyWidth = kw

/-- R174, R222: how `RD.DECODE` can end, and which source an underrun names: a meta source that ends in the header or right after
it with runs announced, a data source without its header byte, and, after any whole records, a record cut short at any of its fields:
there `RD.I` is the index of the failing iteration, `RD.OUT_SINK` holds the whole bytes of the keys emitted before, the writer is not
closed and holds the rest, and the failing read has consumed nothing. That a cut header leaves `RD.I` as it was is the model's choice
(log 23, DEDUCED). -/
def Obligations.DecodeUnderrunNamesItsSource : Prop :=
  (∀ s : State, s.Clear → ∃ t, exec .rdDecode s = .next t ∧
    ((t.fault = s.fault ∧ t.reply = some ⟨.ended .ok, 0#64⟩ ∧ t.rd.i = t.rd.numRuns) ∨
      (∃ aux, (aux = 0#64 ∨ aux = 1#64) ∧ t.fault = ⟨.sourceUnderrun, 0x60000000#32, aux⟩ ∧
        t.reply = some ⟨.ended .sourceUnderrun, 0#64⟩) ∨
      (t.fault.code = .badHeader ∧ t.fault.cw = 0x60000000#32 ∧ t.rdOutSink = []))) ∧
  (∀ s : State, s.Clear → s.rdMetaSrc.length < 8 → ∃ t, exec .rdDecode s = .next t ∧
    t.fault = ⟨.sourceUnderrun, 0x60000000#32, 0#64⟩ ∧ t.rdOutSink = [] ∧ t.rd.i = s.rd.i) ∧
  (∀ s : State, s.Clear → 8 ≤ s.rdMetaSrc.length → s.rdMetaSrc.length < 2 ^ 64 → s.rdDataSrc = [] →
    ∃ t, exec .rdDecode s = .next t ∧ t.fault = ⟨.sourceUnderrun, 0x60000000#32, 1#64⟩ ∧ t.rdOutSink = []) ∧
  (∀ (s : State) (kw rw : Byte), s.Clear → s.rdMetaSrc.length = 8 → s.rdDataSrc.length < 2 ^ 64 →
    s.rdMetaSrc[7]? = some rw → s.rdDataSrc[0]? = some kw → WidthOk rw.toNat → WidthOk kw.toNat →
    (((bitsOf s.rdMetaSrc).drop 8).take 48).any id = true →
    ∃ t, exec .rdDecode s = .next t ∧ t.fault = ⟨.sourceUnderrun, 0x60000000#32, 0#64⟩ ∧ t.rdOutSink = [] ∧
      t.rd.i = 0#48) ∧
  (∀ (s : State) (np kw rw numRuns : Nat) (records : List RunRecord) (metaRest dataRest metaLeft dataLeft : List Bool)
      (emitted : List Word) (aux : Word),
    s.Clear → np < 2 ^ 8 → WidthOk kw → WidthOk rw → records.length < numRuns → numRuns < 2 ^ 48 →
    (∀ r ∈ records, r.Fits rw kw) → s.rdMetaSrc.length < 2 ^ 64 → s.rdDataSrc.length < 2 ^ 64 →
    CutShort rw kw metaRest dataRest emitted metaLeft dataLeft aux →
    bitsOf s.rdMetaSrc = metaBits np numRuns rw (records.flatMap (RunRecord.countBits rw) ++ metaRest) →
    bitsOf s.rdDataSrc =
      field 8 (BitVec.ofNat 64 kw) ++ (records.flatMap RunRecord.keys).flatMap (field kw) ++ dataRest →
    ∃ (t : State) (bits : List Bool), exec .rdDecode s = .next t ∧
      t = { s with rd := t.rd, rdOutSink := t.rdOutSink, fault := ⟨.sourceUnderrun, 0x60000000#32, aux⟩,
                   reply := some ⟨.ended .sourceUnderrun, 0#64⟩ } ∧
      t.rd.i.toNat = records.length ∧ t.rd.numRuns.toNat = numRuns ∧
      bits = (records.flatMap RunRecord.output ++ emitted).flatMap (field kw) ∧
      t.rdOutSink = (packBits bits).take (bits.length / 8) ∧
      t.rd.wo.st = .ready ∧ t.rd.wo.pendingBits = bits.drop (8 * (bits.length / 8)) ∧
      t.rd.rm.unread s.rdMetaSrc = metaLeft ∧ t.rd.rk.unread s.rdDataSrc = dataLeft)

/-- R175: the round trip: decoding an encoded buffer gives the buffer back, followed by at most eight zero bytes, none exactly when the
key width divides the buffer's bit length. -/
def Obligations.DecodeInvertsEncodeOfABuffer : Prop :=
  ∀ (s : State) (kw np : Nat), s.Clear → WidthOk kw → s.bufMem.length ≤ 2 ^ 45 - 1 →
    ∃ t u, exec (.reEncode kw np) s = .next t ∧
      exec .rdDecode { t with rdMetaSrc := t.reMetaSink, rdDataSrc := t.reDataSink } = .next u ∧
      u.reply = some ⟨.ended .ok, 0#64⟩ ∧
      u.rdOutSink.length = (groupCount s.bufMem.length kw * kw + 7) / 8 ∧
      u.rdOutSink = s.bufMem ++ List.replicate (u.rdOutSink.length - s.bufMem.length) 0#8 ∧
      u.rdOutSink.length - s.bufMem.length ≤ 8 ∧
      (u.rdOutSink = s.bufMem ↔ kw ∣ 8 * s.bufMem.length)

/-! ### PD -/

/-- R192: the lanes' byte ranges are disjoint, in rank order, and cover the file exactly. -/
def Obligations.LaneRangesCoverTheFile : Prop :=
  ∀ (file : Bytes) (n : Nat), 1 ≤ n →
    (List.range n).flatMap (laneBytes file n) = file ∧
    (∀ r < n, (laneBytes file n r).length = laneSize file n r ∧ laneOffset file n r + laneSize file n r ≤ file.length) ∧
    (∀ r, r + 1 < n → laneSize file n r = file.length / n ∧
      laneOffset file n (r + 1) = laneOffset file n r + laneSize file n r) ∧
    laneSize file n (n - 1) = file.length / n + file.length % n

/-- R186, R192, R194 to R198, R200: the end state of a `PD.RUN` whose lanes all fit: every lane of the run is `DONE` with its byte range in
its buffer and in its sinks the Fragment that `RE.ENCODE` makes of it; the other lanes are idle and empty. -/
def Obligations.PdRunLeavesEveryLaneItsFragment : Prop :=
  ∀ (s : State) (kw n : Nat), s.Clear → WidthOk kw → 1 ≤ n → n ≤ s.lanes.length → s.pdFile.length < 2 ^ 64 →
    (∀ r < n, laneSize s.pdFile n r ≤ s.bufMax) →
    ∃ t, exec (.pdRun kw n) s = .next t ∧
      t = { s with pd := ⟨BitVec.ofNat 8 n, BitVec.ofNat 7 kw, BitVec.ofNat 64 (s.pdFile.length / n)⟩, lanes := t.lanes,
                   reply := some ⟨.ended .ok, BitVec.ofNat 64 (s.pdFile.length / n)⟩ } ∧
      t.lanes.length = s.lanes.length ∧
      (∀ r < n, ∃ l u, t.lanes[r]? = some l ∧ l.phase = .done ∧ l.size.toNat = laneSize s.pdFile n r ∧
        l.buf = laneBytes s.pdFile n r ∧ l.buf.length = laneSize s.pdFile n r ∧
        exec (.reEncode kw n) { s with bufMem := l.buf } = .next u ∧ l.dataSink = u.reDataSink ∧
        l.metaSink = u.reMetaSink) ∧
      (∀ (r : Nat) (l m : Lane), n ≤ r → t.lanes[r]? = some l → s.lanes[r]? = some m →
        l = { m with phase := .idle, size := 0#64, buf := [], dataSink := [], metaSink := [] })

/-- R175, R198, R201: decoding the lanes' Fragments, trimming each output to the lane's size and concatenating in rank order gives the
file. -/
def Obligations.PdFragmentsDecodeToTheFile : Prop :=
  ∀ (s : State) (kw n : Nat), s.Clear → WidthOk kw → 1 ≤ n → n ≤ s.lanes.length → s.pdFile.length < 2 ^ 64 →
    s.bufMax ≤ 2 ^ 45 - 1 → (∀ r < n, laneSize s.pdFile n r ≤ s.bufMax) →
    ∃ (t : State) (outs : List Bytes), exec (.pdRun kw n) s = .next t ∧ outs.length = n ∧ outs.flatten = s.pdFile ∧
      ∀ r < n, ∃ l u out, t.lanes[r]? = some l ∧ outs[r]? = some out ∧
        exec .rdDecode { t with rdMetaSrc := l.metaSink, rdDataSrc := l.dataSink } = .next u ∧
        u.reply = some ⟨.ended .ok, 0#64⟩ ∧ out = u.rdOutSink.take l.size.toNat ∧
        u.rdOutSink.length - l.size.toNat ≤ 8

/-- R195, R199: a `PD.RUN` with a lane that does not fit aborts the whole group with `RESOURCE` and the size of the lowest such lane. Two
points are the model's: that the lanes `ABORTED` are those of the run and the lanes from `N` on stay `IDLE` is log 10 (DEDUCED, R199
against R186), and that `PD.N` and `PD.KW` keep their new values is log 24 (DEDUCED; for `PD.CHUNK` V-PD-7 says so). -/
def Obligations.PdRunAbortsTheWholeGroup : Prop :=
  ∀ (s : State) (kw n r : Nat), s.Clear → WidthOk kw → 1 ≤ n → n ≤ s.lanes.length → s.pdFile.length < 2 ^ 64 →
    r < n → s.bufMax < laneSize s.pdFile n r →
    ∃ t, exec (.pdRun kw n) s = .next t ∧
      t = { s with
        pd := ⟨BitVec.ofNat 8 n, BitVec.ofNat 7 kw, BitVec.ofNat 64 (s.pdFile.length / n)⟩
        lanes := t.lanes
        fault := ⟨.resource, (Instr.pdRun kw n).word,
          BitVec.ofNat 64 (if s.bufMax < s.pdFile.length / n then s.pdFile.length / n else laneSize s.pdFile n (n - 1))⟩
        reply := some ⟨.ended .resource, 0#64⟩ } ∧
      (∀ (q : Nat) (m : Lane), s.lanes[q]? = some m →
        t.lanes[q]? = some
          (if q < n then { m with phase := .aborted, size := BitVec.ofNat 64 (laneSize s.pdFile n q), buf := [],
                                  dataSink := [], metaSink := [] }
           else { m with phase := .idle, size := 0#64, buf := [], dataSink := [], metaSink := [] }))

/-- R190, R198, R199, U12: whatever order the lanes take their steps in, a run of the protocol that ends leaves the lanes as `PD.RUN`
leaves them, and is aborted exactly when `PD.RUN` faults. -/
def Obligations.EveryScheduleEndsAsPdRunDoes : Prop :=
  ∀ (s : State) (kw n : Nat) (moves : List Move) (g : Group), s.Clear → WidthOk kw → 1 ≤ n → n ≤ s.lanes.length →
    s.pdFile.length < 2 ^ 64 → Group.follow (runConfig kw n s) (Group.start n s.lanes) moves = some g → g.ended = true →
    ∃ t, exec (.pdRun kw n) s = .next t ∧ g.map Agent.lane = t.lanes.take n ∧
      (t.Clear ↔ ∀ a ∈ g, a.pc = .finished)

/-- R190, R256: no schedule blocks for ever: a run that has not ended has a next move, and no run makes more than `4 * N + 4` moves. -/
def Obligations.NoScheduleBlocks : Prop :=
  ∀ (s : State) (kw n : Nat) (moves : List Move) (g : Group), 1 ≤ n → n ≤ s.lanes.length → s.pdFile.length < 2 ^ 64 →
    Group.follow (runConfig kw n s) (Group.start n s.lanes) moves = some g →
    moves.length ≤ 4 * n + 4 ∧ (g.ended = false → ∃ m g', g.move (runConfig kw n s) m = some g')

/-- R189, R194, R196, R255: a run that completes passes four barriers and exchanges `2 * (N - 1)` messages. -/
def Obligations.CompleteRunPassesFourBarriers : Prop :=
  ∀ (s : State) (kw n : Nat) (moves : List Move) (g : Group), 1 ≤ n → n ≤ s.lanes.length → s.pdFile.length < 2 ^ 64 →
    Group.follow (runConfig kw n s) (Group.start n s.lanes) moves = some g → (∀ a ∈ g, a.pc = .finished) →
    barrierCount moves = 4 ∧ messageCount moves = 2 * (n - 1)

/-! ### Invariants -/

/-- R29, R14 to R24: the block meets its invariant after power-on and reset. -/
def Obligations.ResetMeetsTheInvariant : Prop := State.reset.Inv

/-- R14 to R17, R20, R21, R24, R74: every step of the block, a command or another action of the host, keeps its invariant: legal widths,
cursors in range, zero bits below the valid ones, storage within its bounds, lanes idle, done or aborted. -/
def Obligations.EveryStepKeepsTheInvariant : Prop := ∀ s t : State, s.Inv → step s = .next t → t.Inv

/-- R20, R21, R24: every step keeps the storage within its bounds. -/
def Obligations.EveryStepKeepsStorageInBounds : Prop := ∀ s t : State, Memory.wf s → step s = .next t → Memory.wf t
end

