-- ==== Sys2Proof/Laws/Bits.lean ====
section
/-! SUPPORT. Laws of bit streams: fields, numbers made of bits, the bits of a byte list, packing (R5, 00_scope.md section 4.2). -/

namespace Sys2Proof.Machine

@[simp] theorem field_length (w : Nat) (v : Word) : (field w v).length = w := by simp [field]

theorem field_getElem? (w : Nat) (v : Word) (k : Nat) :
    (field w v)[k]? = if k < w then some (v.getLsbD (w - 1 - k)) else none := by
  unfold field
  by_cases h : k < w <;> simp [h]

theorem pushBit_getLsbD (g : Word) (b : Bool) (i : Nat) :
    (pushBit g b).getLsbD i = if i = 0 then b else (decide (i < 64) && g.getLsbD (i - 1)) := by
  unfold pushBit
  rcases Nat.eq_zero_or_pos i with rfl | hi
  · cases b <;> simp
  · have h1 : (1#64).getLsbD i = false := by
      rw [show (1#64) = BitVec.ofNat 64 (2 ^ 0) from rfl]
      simp [BitVec.getLsbD_one]; omega
    have h0 : ¬ i < 1 := by omega
    cases b <;> simp [BitVec.getLsbD_shiftLeft, h1, h0, Nat.ne_of_gt hi]

theorem ofBits_concat (l : List Bool) (b : Bool) : ofBits (l ++ [b]) = pushBit (ofBits l) b := by
  simp [ofBits, List.foldl_append]

/-- Bit `i` of a number made of bits is the i-th from the list's end. -/
theorem ofBits_getLsbD (l : List Bool) (i : Nat) :
    (ofBits l).getLsbD i = (decide (i < 64) && l.reverse.getD i false) := by
  induction l using List.reverseRecOn generalizing i with
  | nil => simp [ofBits]
  | append_singleton l b ih =>
    rw [ofBits_concat, pushBit_getLsbD, List.reverse_append]
    rcases i with _ | i
    · simp
    · simp only [Nat.add_one_ne_zero, if_false, Nat.add_sub_cancel, List.reverse_cons, List.reverse_nil, List.nil_append,
        List.singleton_append, List.getD_cons_succ, ih]
      by_cases h : i + 1 < 64
      · have : i < 64 := by omega
        simp [h, this]
      · simp [h]

theorem lowBits_getLsbD (w : Nat) (v : Word) (i : Nat) :
    (lowBits w v).getLsbD i = (decide (i < w) && v.getLsbD i) := by
  unfold lowBits
  rw [BitVec.getLsbD_ofNat, Nat.testBit_mod_two_pow]
  by_cases h : i < 64
  · simp [h, BitVec.getLsbD]
  · simp [h, BitVec.getLsbD_of_ge v i (by omega)]

theorem ofBits_field (w : Nat) (v : Word) : ofBits (field w v) = lowBits w v := by
  apply BitVec.eq_of_getLsbD_eq
  intro i hi
  rw [ofBits_getLsbD, lowBits_getLsbD]
  by_cases h : i < w
  · rw [List.getD_eq_getElem?_getD, List.getElem?_reverse (by simpa using h), field_getElem?]
    have : w - 1 - (w - 1 - i) = i := by omega
    simp [h, hi, this, show w - 1 - i < w by omega]
  · rw [List.getD_eq_getElem?_getD, List.getElem?_eq_none (by simpa using h)]
    simp [h]

theorem field_ofBits (l : List Bool) (h : l.length ≤ 64) : field l.length (ofBits l) = l := by
  apply List.ext_getElem?
  intro k
  rw [field_getElem?]
  by_cases hk : k < l.length
  · rw [if_pos hk, ofBits_getLsbD, List.getD_eq_getElem?_getD, List.getElem?_reverse (by omega)]
    have h1 : l.length - 1 - (l.length - 1 - k) = k := by omega
    simp [h1, hk, show l.length - 1 - k < 64 by omega]
  · simp [hk]

theorem field_lowBits (w : Nat) (v : Word) : field w (lowBits w v) = field w v := by
  apply List.ext_getElem?
  intro k
  simp only [field_getElem?, lowBits_getLsbD]
  by_cases h : k < w
  · simp [h, show w - 1 - k < w by omega]
  · simp [h]

theorem lowBits_toNat_lt (w : Nat) (v : Word) : (lowBits w v).toNat < 2 ^ w := by
  unfold lowBits
  rw [BitVec.toNat_ofNat]
  exact lt_of_le_of_lt (Nat.mod_le _ _) (Nat.mod_lt _ (by positivity))

theorem lowBits_eq_self (w : Nat) (v : Word) (h : v.toNat < 2 ^ w) : lowBits w v = v := by
  unfold lowBits
  rw [Nat.mod_eq_of_lt h]
  simp

/-! ### The bits of a byte list -/

@[simp] theorem bitsOf_nil : bitsOf [] = [] := rfl

theorem bitsOf_cons (x : Byte) (b : Bytes) : bitsOf (x :: b) = (List.range 8).map (byteBit x) ++ bitsOf b := rfl

theorem bitsOf_append (a b : Bytes) : bitsOf (a ++ b) = bitsOf a ++ bitsOf b := by simp [bitsOf]

@[simp] theorem bitsOf_length (b : Bytes) : (bitsOf b).length = 8 * b.length := by
  induction b with
  | nil => rfl
  | cons x b ih => rw [bitsOf_cons, List.length_append, ih]; simp; omega

/-- Stream bit `i` of a byte list is bit `7 - (i mod 8)` of byte `i div 8` (R5). -/
theorem bitsOf_getElem? (b : Bytes) (i : Nat) : (bitsOf b)[i]? = streamBit? b i := by
  induction b generalizing i with
  | nil => simp [streamBit?]
  | cons x b ih =>
    rw [bitsOf_cons]
    by_cases h : i < 8
    · rw [List.getElem?_append_left (by simpa using h)]
      have h0 : i / 8 = 0 := by omega
      have h1 : i % 8 = i := by omega
      simp [streamBit?, h0, h1, h]
    · rw [List.getElem?_append_right (by simp; omega)]
      have h0 : i / 8 = (i - 8) / 8 + 1 := by omega
      have h1 : i % 8 = (i - 8) % 8 := by omega
      simp only [List.length_map, List.length_range]
      rw [ih, streamBit?, streamBit?, h0, List.getElem?_cons_succ, h1]

theorem bitsOf_injective {a b : Bytes} (h : bitsOf a = bitsOf b) : a = b := by
  have hl : a.length = b.length := by
    have := congrArg List.length h
    simp only [bitsOf_length] at this
    omega
  apply List.ext_getElem hl
  intro n h1 h2
  apply BitVec.eq_of_getLsbD_eq
  intro k hk
  have := congrArg (fun l => l[8 * n + (7 - k)]?) h
  simp only [bitsOf_getElem?, streamBit?] at this
  have e1 : (8 * n + (7 - k)) / 8 = n := by omega
  have e2 : (8 * n + (7 - k)) % 8 = 7 - k := by omega
  rw [e1, e2, List.getElem?_eq_getElem h1, List.getElem?_eq_getElem h2] at this
  simp only [byteBit, Option.some.injEq] at this
  rwa [show 7 - (7 - k) = k by omega] at this

theorem bitsOf_take (b : Bytes) (n : Nat) : bitsOf (b.take n) = (bitsOf b).take (8 * n) := by
  apply List.ext_getElem?
  intro i
  rw [bitsOf_getElem?, List.getElem?_take]
  by_cases h : i < 8 * n
  · rw [if_pos h, bitsOf_getElem?, streamBit?, streamBit?, List.getElem?_take, if_pos (by omega)]
  · rw [if_neg h, streamBit?, List.getElem?_take, if_neg (by omega)]

theorem bitsOf_drop (b : Bytes) (n : Nat) : bitsOf (b.drop n) = (bitsOf b).drop (8 * n) := by
  apply List.ext_getElem?
  intro i
  rw [bitsOf_getElem?, List.getElem?_drop, bitsOf_getElem?, streamBit?, streamBit?, List.getElem?_drop]
  rw [show (8 * n + i) / 8 = n + i / 8 by omega, show (8 * n + i) % 8 = i % 8 by omega]

/-- The bits of one byte are the field of its value. -/
theorem byteBits_eq_field (b : Byte) : (List.range 8).map (byteBit b) = field 8 (BitVec.ofNat 64 b.toNat) := by
  unfold field byteBit
  apply List.map_congr_left
  intro k hk
  have := List.mem_range.mp hk
  rw [BitVec.getLsbD_ofNat]
  simp [BitVec.getLsbD]
  omega

/-! ### Packing -/

@[simp] theorem packBits_length (l : List Bool) : (packBits l).length = (l.length + 7) / 8 := by simp [packBits]

theorem packByte_bit (l : List Bool) (k : Nat) (hk : k < 8) : byteBit (packByte l) k = l.getD k false := by
  have key : ∀ b0 b1 b2 b3 b4 b5 b6 b7 : Bool, ∀ k : Fin 8,
      byteBit (([b0, b1, b2, b3, b4, b5, b6, b7] : List Bool).foldl
        (fun (acc : Byte) (b : Bool) => (acc <<< 1) ||| (if b then 1#8 else 0#8)) 0#8) k.val = [b0, b1, b2, b3, b4, b5, b6, b7].getD k.val false := by
    decide
  have h := key (l.getD 0 false) (l.getD 1 false) (l.getD 2 false) (l.getD 3 false) (l.getD 4 false) (l.getD 5 false)
    (l.getD 6 false) (l.getD 7 false) ⟨k, hk⟩
  have e : packByte l = ([l.getD 0 false, l.getD 1 false, l.getD 2 false, l.getD 3 false, l.getD 4 false, l.getD 5 false,
      l.getD 6 false, l.getD 7 false] : List Bool).foldl (fun (acc : Byte) (b : Bool) => (acc <<< 1) ||| (if b then 1#8 else 0#8)) 0#8 := rfl
  rw [e, h]
  rcases k with _ | _ | _ | _ | _ | _ | _ | _ | k <;> first | rfl | omega

/-- The bits of packed bits are the bits, completed with zeros to a byte. -/
theorem bitsOf_packBits (l : List Bool) :
    bitsOf (packBits l) = l ++ List.replicate (8 * ((l.length + 7) / 8) - l.length) false := by
  apply List.ext_getElem?
  intro i
  rw [bitsOf_getElem?, streamBit?]
  by_cases h : i / 8 < (l.length + 7) / 8
  · rw [List.getElem?_eq_getElem (by simpa using h)]
    simp only [packBits, List.getElem_map, List.getElem_range]
    rw [packByte_bit _ _ (by omega), List.getD_eq_getElem?_getD, List.getElem?_drop,
      show 8 * (i / 8) + i % 8 = i by omega]
    by_cases hi : i < l.length
    · rw [List.getElem?_append_left hi, List.getElem?_eq_getElem hi]; rfl
    · rw [List.getElem?_append_right (by omega), List.getElem?_replicate, if_pos (by omega),
        List.getElem?_eq_none (by omega)]; rfl
  · rw [List.getElem?_eq_none (by simpa using h), List.getElem?_eq_none]
    simp only [List.length_append, List.length_replicate]; omega

theorem packBits_bitsOf_append (b : Bytes) (l : List Bool) : packBits (bitsOf b ++ l) = b ++ packBits l := by
  apply bitsOf_injective
  rw [bitsOf_append, bitsOf_packBits, bitsOf_packBits, List.append_assoc]
  congr 3
  simp only [List.length_append, bitsOf_length]
  omega

theorem packBits_bitsOf (b : Bytes) : packBits (bitsOf b) = b := by
  have := packBits_bitsOf_append b []
  simpa [packBits] using this

/-! ### The bytes of a word -/

@[simp] theorem wordBytes_length (v : Word) : (wordBytes v).length = 8 := by simp [wordBytes]

theorem bitsOf_wordBytes (v : Word) : bitsOf (wordBytes v) = field 64 v := by
  apply List.ext_getElem?
  intro i
  rw [bitsOf_getElem?, streamBit?, field_getElem?]
  by_cases h : i < 64
  · rw [List.getElem?_eq_getElem (by simp; omega), if_pos h]
    simp only [wordBytes, List.getElem_map, List.getElem_range, byteBit, Option.some.injEq]
    rw [BitVec.getLsbD_extractLsb']
    have h1 : 7 - i % 8 < 8 := by omega
    have h2 : 56 - 8 * (i / 8) + (7 - i % 8) = 64 - 1 - i := by omega
    simp [h1, h2]
  · rw [List.getElem?_eq_none (by simp; omega), if_neg h]

end Sys2Proof.Machine
end

