-- ==== Sys2Proof/Laws/Decode.lean ====
section
/-! SUPPORT. The opcode map's rows and the words in them (R60, R61, R65, R66). -/

namespace Sys2Proof

/-- A row's words agree with its `match` in the top byte. -/
theorem covers_top (op : Opcode) (cw : CmdWord) (h : (opcodeRow op).covers cw = true) :
    cw &&& 0xFF000000#32 = (opcodeRow op).matchBits := by
  have h1 : cw &&& (opcodeRow op).mask = (opcodeRow op).matchBits := by simpa [OpcodeRow.covers] using h
  have h2 : (opcodeRow op).mask &&& 0xFF000000#32 = 0xFF000000#32 := by cases op <;> decide
  have h3 : (opcodeRow op).matchBits &&& 0xFF000000#32 = (opcodeRow op).matchBits := by cases op <;> decide
  rw [← h2, ← BitVec.and_assoc, h1, h3]

theorem matchBits_injective (op op' : Opcode) (h : (opcodeRow op).matchBits = (opcodeRow op').matchBits) : op = op' := by
  revert h
  cases op <;> cases op' <;> decide

/-- At most one row covers a word (R61). -/
theorem covers_unique (op op' : Opcode) (cw : CmdWord) (h : (opcodeRow op).covers cw = true)
    (h' : (opcodeRow op').covers cw = true) : op = op' :=
  matchBits_injective op op' ((covers_top op cw h).symm.trans (covers_top op' cw h'))

theorem opcodeRow_op (op : Opcode) : (opcodeRow op).op = op := by cases op <;> rfl

theorem opcodeRow_mem (op : Opcode) : opcodeRow op ∈ opcodeTable := by cases op <;> decide

theorem mem_opcodeTable (row : OpcodeRow) (h : row ∈ opcodeTable) : ∃ op, row = opcodeRow op := by
  obtain ⟨op, -, rfl⟩ := List.mem_map.mp h
  exact ⟨op, rfl⟩

/-- A word in a row decodes to the row's command. -/
theorem decode_of_covers (op : Opcode) (c : Command) (h : (opcodeRow op).covers c.cw = true) :
    decode c = .ok (op.instr (argA c.cw) (argB c.cw) c.din) := by
  have hf : opcodeTable.find? (fun row => row.covers c.cw) = some (opcodeRow op) := by
    cases hf : opcodeTable.find? (fun row => row.covers c.cw) with
    | none => exact absurd h (by simpa using List.find?_eq_none.mp hf _ (opcodeRow_mem op))
    | some row =>
      obtain ⟨op', rfl⟩ := mem_opcodeTable row (List.mem_of_find?_eq_some hf)
      have hc := List.find?_some hf
      rw [covers_unique op' op c.cw hc h]
  unfold decode
  rw [hf]
  simp only [opcodeRow_op]

/-- A word that decodes lies in the row of its command. -/
theorem covers_of_decode (c : Command) (i : Instr) (h : decode c = .ok i) :
    ∃ op, (opcodeRow op).covers c.cw = true ∧ i = op.instr (argA c.cw) (argB c.cw) c.din := by
  unfold decode at h
  cases hf : opcodeTable.find? (fun row => row.covers c.cw) with
  | none => rw [hf] at h; exact absurd h (by simp)
  | some row =>
    obtain ⟨op, rfl⟩ := mem_opcodeTable row (List.mem_of_find?_eq_some hf)
    rw [hf] at h
    simp only [opcodeRow_op, Except.ok.injEq] at h
    have hc : (opcodeRow op).covers c.cw = true := by simpa using List.find?_some hf
    exact ⟨op, hc, h.symm⟩

/-- A word that no row covers is rejected, and only such a word. -/
theorem decode_error_iff (c : Command) : (∃ e, decode c = .error e) ↔ ∀ op, (opcodeRow op).covers c.cw = false := by
  constructor
  · rintro ⟨e, he⟩ op
    by_contra h
    rw [decode_of_covers op c (by simpa using h)] at he
    exact absurd he (by simp)
  · intro h
    unfold decode
    cases hf : opcodeTable.find? (fun row => row.covers c.cw) with
    | none => exact ⟨_, rfl⟩
    | some row =>
      obtain ⟨op, rfl⟩ := mem_opcodeTable row (List.mem_of_find?_eq_some hf)
      have hc := List.find?_some hf
      rw [h op] at hc
      exact absurd hc (by simp)

/-! ### The bits of a command word -/

theorem word_getLsbD (i : Instr) (k : Nat) (hk : k < 32) :
    i.word.getLsbD k =
      ((opcodeRow i.opcode).matchBits.getLsbD k || (decide (8 ≤ k) && i.fieldB.testBit (k - 8)) || i.fieldA.testBit k) := by
  unfold Instr.word
  rw [BitVec.getLsbD_or, BitVec.getLsbD_or, BitVec.getLsbD_shiftLeft, BitVec.getLsbD_ofNat, BitVec.getLsbD_ofNat]
  have h2 : k - 8 < 32 := by omega
  by_cases h8 : 8 ≤ k
  · have h3 : ¬ k < 8 := by omega
    simp [hk, h8, h2, h3]
  · have h3 : k < 8 := by omega
    simp [hk, h8, h3]

theorem matchBits_low (op : Opcode) (k : Nat) (hk : k < 16) : (opcodeRow op).matchBits.getLsbD k = false := by
  have h : (opcodeRow op).matchBits &&& 0x0000FFFF#32 = 0#32 := by cases op <;> decide
  have h2 := congrArg (fun x => BitVec.getLsbD x k) h
  have h3 : (0x0000FFFF#32).getLsbD k = true := by
    have : ∀ k : Fin 16, (0x0000FFFF#32).getLsbD k.val = true := by decide
    exact this ⟨k, hk⟩
  simpa [h3] using h2

theorem fieldA_lt (i : Instr) (h : i.WellFormed) : i.fieldA < 2 ^ 8 := by
  cases i <;> simp_all [Instr.WellFormed, Instr.fieldA]

theorem fieldB_lt (i : Instr) (h : i.WellFormed) : i.fieldB < 2 ^ 8 := by
  cases i <;> simp_all [Instr.WellFormed, Instr.fieldB]

/-- Field `A` of a command's word is its argument `A`. -/
theorem argA_word (i : Instr) (h : i.WellFormed) : argA i.word = i.fieldA := by
  have hA := fieldA_lt i h
  have : i.word.extractLsb' 0 8 = BitVec.ofNat 8 i.fieldA := by
    apply BitVec.eq_of_getLsbD_eq
    intro k hk
    rw [BitVec.getLsbD_extractLsb', BitVec.getLsbD_ofNat, Nat.zero_add, word_getLsbD i k (by omega),
      matchBits_low _ k (by omega)]
    simp [hk, show ¬ 8 ≤ k by omega]
  unfold argA
  rw [this, BitVec.toNat_ofNat]
  exact Nat.mod_eq_of_lt hA

/-- Field `B` of a command's word is its argument `B`. -/
theorem argB_word (i : Instr) (h : i.WellFormed) : argB i.word = i.fieldB := by
  have hA := fieldA_lt i h
  have hB := fieldB_lt i h
  have : i.word.extractLsb' 8 8 = BitVec.ofNat 8 i.fieldB := by
    apply BitVec.eq_of_getLsbD_eq
    intro k hk
    rw [BitVec.getLsbD_extractLsb', BitVec.getLsbD_ofNat, word_getLsbD i (8 + k) (by omega), matchBits_low _ _ (by omega)]
    have h0 : i.fieldA.testBit (8 + k) = false :=
      Nat.testBit_lt_two_pow (lt_of_lt_of_le hA (Nat.pow_le_pow_right (by norm_num) (by omega)))
    simp [hk, h0]
  unfold argB
  rw [this, BitVec.toNat_ofNat]
  exact Nat.mod_eq_of_lt hB

theorem instr_of_fields (i : Instr) : i.opcode.instr i.fieldA i.fieldB i.din = i := by cases i <;> rfl

/-- The rows whose mask leaves field `A` to an argument (R65). -/
theorem mask_argA (op : Opcode) (h : op ∈ [.bxInit, .bpInit, .vrRead, .vwWrite, .reEncode, .pdRun]) :
    (opcodeRow op).mask &&& 0x000000FF#32 = 0#32 := by
  revert h
  cases op <;> decide

/-- The rows whose mask leaves field `B` to an argument (R65). -/
theorem mask_argB (op : Opcode) (h : op ∈ [.reEncode, .pdRun]) : (opcodeRow op).mask &&& 0x0000FF00#32 = 0#32 := by
  revert h
  cases op <;> decide

/-- A command's word lies in its row when the argument fields that the row's mask fixes are 0. -/
theorem word_covers (i : Instr) (h : i.WellFormed)
    (hA : i.fieldA = 0 ∨ (opcodeRow i.opcode).mask &&& 0x000000FF#32 = 0#32)
    (hB : i.fieldB = 0 ∨ (opcodeRow i.opcode).mask &&& 0x0000FF00#32 = 0#32) :
    (opcodeRow i.opcode).covers i.word = true := by
  have fA := fieldA_lt i h
  have fB := fieldB_lt i h
  have hm : (opcodeRow i.opcode).matchBits &&& (opcodeRow i.opcode).mask = (opcodeRow i.opcode).matchBits := by
    cases i.opcode <;> decide
  unfold OpcodeRow.covers
  rw [beq_iff_eq]
  apply BitVec.eq_of_getLsbD_eq
  intro k hk
  rw [BitVec.getLsbD_and, word_getLsbD i k hk]
  have hmk : ((opcodeRow i.opcode).matchBits.getLsbD k && (opcodeRow i.opcode).mask.getLsbD k) =
      (opcodeRow i.opcode).matchBits.getLsbD k := by
    rw [← BitVec.getLsbD_and, hm]
  have mA : k < 8 → i.fieldA.testBit k = false ∨ (opcodeRow i.opcode).mask.getLsbD k = false := by
    intro h8
    rcases hA with h0 | h0
    · exact .inl (by rw [h0]; exact Nat.zero_testBit k)
    · refine .inr ?_
      have h2 := congrArg (fun x => BitVec.getLsbD x k) h0
      have h3 : (0x000000FF#32).getLsbD k = true := by
        have : ∀ k : Fin 8, (0x000000FF#32).getLsbD k.val = true := by decide
        exact this ⟨k, h8⟩
      simpa [h3] using h2
  have mB : 8 ≤ k → k < 16 → i.fieldB.testBit (k - 8) = false ∨ (opcodeRow i.opcode).mask.getLsbD k = false := by
    intro h8 h16
    rcases hB with h0 | h0
    · exact .inl (by rw [h0]; exact Nat.zero_testBit _)
    · refine .inr ?_
      have h2 := congrArg (fun x => BitVec.getLsbD x k) h0
      have h3 : (0x0000FF00#32).getLsbD k = true := by
        have : ∀ j : Fin 8, (0x0000FF00#32).getLsbD (8 + j.val) = true := by decide
        have := this ⟨k - 8, by omega⟩
        rwa [show 8 + (k - 8) = k by omega] at this
      simpa [h3] using h2
  by_cases h8 : k < 8
  · have : ¬ 8 ≤ k := by omega
    rcases mA h8 with h0 | h0
    · simp [this, h0, hmk]
    · rw [h0] at hmk ⊢
      simpa using hmk
  · have a0 : i.fieldA.testBit k = false :=
      Nat.testBit_lt_two_pow (lt_of_lt_of_le fA (Nat.pow_le_pow_right (by norm_num) (by omega)))
    by_cases h16 : k < 16
    · rcases mB (by omega) h16 with h0 | h0
      · simp [a0, h0, hmk]
      · rw [h0] at hmk ⊢
        simpa using hmk
    · have b0 : i.fieldB.testBit (k - 8) = false :=
        Nat.testBit_lt_two_pow (lt_of_lt_of_le fB (Nat.pow_le_pow_right (by norm_num) (by omega)))
      simp [a0, b0, hmk]

end Sys2Proof
end

