-- ==== Sys2Proof/Laws/Reader.lean ====
section
/-! SUPPORT. What reading does to a reader record, in bits: the bits taken are the first of the unread ones (R122 to R124). -/

namespace Sys2Proof.Machine

theorem Reader.unread_length (r : Reader) (src : Bytes) :
    (r.unread src).length = r.avail src := by
  simp [Reader.unread, Reader.avail]

/-- Fetching changes no unread bit (R122). -/
theorem Reader.refill_spec (r : Reader) (src : Bytes) (hs : src.length < 2 ^ 64) (hu : r.used.toNat ≤ 8)
    (hne : r.unread src ≠ []) :
    (r.refill src).st = r.st ∧ (r.refill src).used.toNat < 8 ∧ (r.refill src).unread src = r.unread src := by
  unfold Reader.refill
  by_cases h8 : r.used = 8#4
  · have h8n : r.used.toNat = 8 := by rw [h8]; rfl
    simp only [h8, if_true]
    have hpos : r.pos.toNat < src.length := by
      by_contra hge
      apply hne
      simp [Reader.unread, h8n, List.drop_eq_nil_of_le (show src.length ≤ r.pos.toNat by omega)]
    refine ⟨trivial, by decide, ?_⟩
    have hp1 : (r.pos + 1#64).toNat = r.pos.toNat + 1 := by
      rw [BitVec.toNat_add]; simp; omega
    have hnil : ((List.range 8).map (byteBit r.curb)).drop 8 = [] := List.drop_eq_nil_of_le (by simp)
    unfold Reader.unread
    rw [h8n, hnil, List.nil_append, List.drop_eq_getElem_cons hpos, bitsOf_cons]
    simp only [hp1]
    simp [List.getD_eq_getElem?_getD, List.getElem?_eq_getElem hpos]
  · simp only [h8, if_false]
    refine ⟨trivial, ?_, trivial⟩
    have : r.used.toNat ≠ 8 := fun e => h8 (BitVec.eq_of_toNat_eq (by simpa using e))
    omega

/-- One bit taken: everything it does. -/
theorem Reader.takeBit_spec (r : Reader) (src : Bytes) (hs : src.length < 2 ^ 64) (hu : r.used.toNat ≤ 8)
    (hne : r.unread src ≠ []) :
    (r.takeBit src).1.st = r.st ∧ (r.takeBit src).1.used.toNat ≤ 8 ∧
      r.unread src = (r.takeBit src).2 :: (r.takeBit src).1.unread src := by
  obtain ⟨h1, h2, h3⟩ := r.refill_spec src hs hu hne
  rw [← h3]
  unfold Reader.takeBit
  have hused : ((r.refill src).used + 1#4).toNat = (r.refill src).used.toNat + 1 := by
    rw [BitVec.toNat_add]; simp; omega
  refine ⟨h1, by simp only [hused]; omega, ?_⟩
  unfold Reader.unread
  simp only [hused]
  rw [List.drop_eq_getElem_cons (by simpa using h2)]
  simp

/-- Bits taken: everything they do. -/
theorem Reader.takeBits_spec (src : Bytes) (hs : src.length < 2 ^ 64) (n : Nat) (r : Reader) (acc : Word)
    (hu : r.used.toNat ≤ 8) (hn : n ≤ (r.unread src).length) :
    (Reader.takeBits src n r acc).1.st = r.st ∧ (Reader.takeBits src n r acc).1.used.toNat ≤ 8 ∧
      (Reader.takeBits src n r acc).2 = ((r.unread src).take n).foldl pushBit acc ∧
      (Reader.takeBits src n r acc).1.unread src = (r.unread src).drop n := by
  induction n generalizing r acc with
  | zero => exact ⟨rfl, hu, by simp [Reader.takeBits], by simp [Reader.takeBits]⟩
  | succ n ih =>
    have hne : r.unread src ≠ [] := by intro e; rw [e] at hn; simp at hn
    obtain ⟨h1, h2, h3⟩ := r.takeBit_spec src hs hu hne
    have hn' : n ≤ ((r.takeBit src).1.unread src).length := by
      rw [h3, List.length_cons] at hn; omega
    obtain ⟨k1, k2, k3, k4⟩ := ih (r.takeBit src).1 (pushBit acc (r.takeBit src).2) h2 hn'
    simp only [Reader.takeBits]
    refine ⟨k1.trans h1, k2, ?_, ?_⟩
    · rw [k3, h3]; simp
    · rw [k4, h3]; simp

/-- Where the reader stands after taking one bit (R122): within its byte, or at the start of the next. -/
theorem Reader.takeBit_position (r : Reader) (src : Bytes) (hs : src.length < 2 ^ 64) (hu : r.used.toNat ≤ 8)
    (hne : r.unread src ≠ []) :
    (r.used.toNat < 8 → (r.takeBit src).1.pos = r.pos ∧ (r.takeBit src).1.curb = r.curb ∧
      (r.takeBit src).1.used.toNat = r.used.toNat + 1) ∧
    (r.used.toNat = 8 → (r.takeBit src).1.pos.toNat = r.pos.toNat + 1 ∧
      (r.takeBit src).1.curb = src.getD r.pos.toNat 0#8 ∧ (r.takeBit src).1.used.toNat = 1) := by
  constructor
  · intro h
    have h8 : ¬ r.used = 8#4 := by
      intro e
      rw [e] at h
      exact absurd h (by decide)
    have hr : r.refill src = r := by
      unfold Reader.refill
      rw [if_neg h8]
    unfold Reader.takeBit
    rw [hr]
    refine ⟨rfl, rfl, ?_⟩
    simp only [BitVec.toNat_add, BitVec.toNat_ofNat]
    omega
  · intro h
    have h8 : r.used = 8#4 := BitVec.eq_of_toNat_eq (by simpa using h)
    have hpos : r.pos.toNat < src.length := by
      by_contra hge
      apply hne
      simp [Reader.unread, h, List.drop_eq_nil_of_le (show src.length ≤ r.pos.toNat by omega)]
    have hr : r.refill src = { r with curb := src.getD r.pos.toNat 0#8, pos := r.pos + 1#64, used := 0#4 } := by
      unfold Reader.refill
      rw [if_pos h8]
    unfold Reader.takeBit
    rw [hr]
    refine ⟨?_, rfl, rfl⟩
    show (r.pos + 1#64).toNat = _
    rw [BitVec.toNat_add]
    simp
    omega

/-- Where the reader stands after taking bits (R122): within its byte, or so many bytes further that the last bit it took is in
`CURB`. -/
theorem Reader.takeBits_position (src : Bytes) (hs : src.length < 2 ^ 64) (n : Nat) (r : Reader) (acc : Word)
    (hu : r.used.toNat ≤ 8) (hn : n ≤ (r.unread src).length) :
    (n ≤ 8 - r.used.toNat → (Reader.takeBits src n r acc).1.pos = r.pos ∧ (Reader.takeBits src n r acc).1.curb = r.curb ∧
      (Reader.takeBits src n r acc).1.used.toNat = r.used.toNat + n) ∧
    (8 - r.used.toNat < n →
      (Reader.takeBits src n r acc).1.pos.toNat = r.pos.toNat + (n - (8 - r.used.toNat) + 7) / 8 ∧
      (Reader.takeBits src n r acc).1.curb = src.getD ((Reader.takeBits src n r acc).1.pos.toNat - 1) 0#8 ∧
      (Reader.takeBits src n r acc).1.used.toNat = (n - (8 - r.used.toNat) + 7) % 8 + 1) := by
  induction n generalizing r acc with
  | zero => exact ⟨fun _ => ⟨rfl, rfl, rfl⟩, fun h => absurd h (by omega)⟩
  | succ n ih =>
    have hne : r.unread src ≠ [] := by intro e; rw [e] at hn; simp at hn
    obtain ⟨-, h2, h3⟩ := r.takeBit_spec src hs hu hne
    have hn' : n ≤ ((r.takeBit src).1.unread src).length := by
      rw [h3, List.length_cons] at hn; omega
    obtain ⟨p1, p2⟩ := r.takeBit_position src hs hu hne
    obtain ⟨k1, k2⟩ := ih (r.takeBit src).1 (pushBit acc (r.takeBit src).2) h2 hn'
    have hstep : Reader.takeBits src (n + 1) r acc =
        Reader.takeBits src n (r.takeBit src).1 (pushBit acc (r.takeBit src).2) := rfl
    rw [hstep]
    by_cases h8 : r.used.toNat = 8
    · obtain ⟨q1, q2, q3⟩ := p2 h8
      rw [q3] at k1 k2
      refine ⟨fun h => absurd h (by omega), fun _ => ?_⟩
      by_cases h7 : n ≤ 8 - 1
      · obtain ⟨e1, e2, e3⟩ := k1 h7
        have e1' := congrArg BitVec.toNat e1
        refine ⟨by rw [e1', q1]; omega, ?_, by rw [e3]; omega⟩
        rw [e1', q1, e2, q2]
        rfl
      · obtain ⟨e1, e2, e3⟩ := k2 (by omega)
        exact ⟨by rw [e1, q1]; omega, e2, by rw [e3]; omega⟩
    · obtain ⟨q1, q2, q3⟩ := p1 (by omega)
      rw [q3, q1, q2] at k1
      rw [q3, q1] at k2
      refine ⟨fun h => ?_, fun h => ?_⟩
      · obtain ⟨e1, e2, e3⟩ := k1 (by omega)
        exact ⟨e1, e2, by rw [e3]; omega⟩
      · obtain ⟨e1, e2, e3⟩ := k2 (by omega)
        exact ⟨by rw [e1]; omega, e2, by rw [e3]; omega⟩

/-- Reading a field: everything it does when the source has enough bits (R122). -/
theorem Reader.read_spec (r : Reader) (src : Bytes) (width : Nat) (hs : src.length < 2 ^ 64) (hu : r.used.toNat ≤ 8)
    (hw : width ≤ 64) (hn : width ≤ (r.unread src).length) :
    ∃ r' v, r.read src width = some (r', v) ∧ r'.st = r.st ∧ r'.used.toNat ≤ 8 ∧
      field width v = (r.unread src).take width ∧ v.toNat < 2 ^ width ∧ r'.unread src = (r.unread src).drop width := by
  have hav : ¬ r.avail src < width := by rw [← r.unread_length src]; omega
  obtain ⟨h1, h2, h3, h4⟩ := Reader.takeBits_spec src hs width r 0#64 hu hn
  have hlen : ((r.unread src).take width).length = width := by simp; omega
  have hv : (Reader.takeBits src width r 0#64).2 = ofBits ((r.unread src).take width) := h3
  have hf : field width (Reader.takeBits src width r 0#64).2 = (r.unread src).take width := by
    rw [hv]
    have := field_ofBits ((r.unread src).take width) (by omega)
    rwa [hlen] at this
  refine ⟨_, _, by simp [Reader.read, hav], h1, h2, hf, ?_, h4⟩
  have hlow : lowBits width (Reader.takeBits src width r 0#64).2 = (Reader.takeBits src width r 0#64).2 := by
    rw [← ofBits_field, hf, hv]
  rw [← hlow]
  exact lowBits_toNat_lt _ _

/-- Reading a field from a source with too few bits (R124). -/
theorem Reader.read_short (r : Reader) (src : Bytes) (width : Nat)
    (hn : (r.unread src).length < width) : r.read src width = none := by
  have : r.avail src < width := by rw [← r.unread_length src]; omega
  simp [Reader.read, this]

@[simp] theorem Reader.init_unread (src : Bytes) : Reader.init.unread src = bitsOf src := by
  simp [Reader.unread, Reader.init]

end Sys2Proof.Machine
end

