-- ==== Sys2Proof/Laws/Writer.lean ====
section
/-! SUPPORT. What writing does to a writer record, in bits: written bits are appended to the sink's bits and the pending ones
(R128 to R130). -/

namespace Sys2Proof.Machine

/-- The writer's partial byte holds zero bits below the ones produced (R17). -/
abbrev Writer.LowZero (w : Writer) : Prop := ∀ k < 8 - w.used.toNat, w.curb.getLsbD k = false

theorem Writer.used_lt (w : Writer) : w.used.toNat < 8 := w.used.isLt

theorem byteBit_orBit (c : Byte) (b : Bool) (u k : Nat) (hk : k < 8) (hu : u < 8) :
    byteBit (c ||| ((if b then 1#8 else 0#8) <<< (7 - u))) k = (byteBit c k || (decide (k = u) && b)) := by
  unfold byteBit
  rw [BitVec.getLsbD_or, BitVec.getLsbD_shiftLeft]
  congr 1
  have h7 : 7 - k < 8 := by omega
  by_cases hku : k = u
  · subst hku; cases b <;> simp [h7]
  · by_cases h : 7 - k < 7 - u
    · simp [h, hku]
    · have hne : 7 - k - (7 - u) ≠ 0 := by omega
      have h1 : (1#8).getLsbD (7 - k - (7 - u)) = false := by
        rw [BitVec.getLsbD_one]; simp [hne]
      cases b <;> simp [h, hku, h7, h1]

@[simp] theorem Writer.pendingBits_length (w : Writer) : w.pendingBits.length = w.used.toNat := by simp [Writer.pendingBits]

/-- The bit that goes into the partial byte extends its valid bits by one. -/
theorem Writer.newByte_bits (w : Writer) (b : Bool) (h : w.LowZero) :
    (List.range (w.used.toNat + 1)).map (byteBit (w.curb ||| ((if b then 1#8 else 0#8) <<< (7 - w.used.toNat)))) =
      w.pendingBits ++ [b] := by
  have hu := w.used_lt
  rw [List.range_succ, List.map_append, Writer.pendingBits]
  congr 1
  · apply List.map_congr_left
    intro k hk
    rw [List.mem_range] at hk
    rw [byteBit_orBit _ _ _ _ (by omega) hu]
    simp [Nat.ne_of_lt hk]
  · simp only [List.map_cons, List.map_nil]
    rw [byteBit_orBit _ _ _ _ hu hu]
    have := h (7 - w.used.toNat) (by omega)
    simp [byteBit, this]

/-- One written bit: everything it does. -/
theorem Writer.writeBit_spec (w : Writer) (b : Bool) (h : w.LowZero) :
    (w.writeBit b).1.st = w.st ∧ (w.writeBit b).1.LowZero ∧
      bitsOf (w.writeBit b).2 ++ (w.writeBit b).1.pendingBits = w.pendingBits ++ [b] := by
  have hu := w.used_lt
  unfold Writer.writeBit
  by_cases h8 : w.used.toNat + 1 = 8
  · simp only [h8, if_true]
    refine ⟨trivial, by intro k _; simp, ?_⟩
    have := w.newByte_bits b h
    rw [h8] at this
    simp [bitsOf, Writer.pendingBits] at this ⊢
    exact this
  · simp only [h8, if_false]
    have hused : (w.used + 1#3).toNat = w.used.toNat + 1 := by
      rw [BitVec.toNat_add]; simp; omega
    refine ⟨trivial, ?_, ?_⟩
    · intro k hk
      rw [hused] at hk
      have hk' : k < 8 - (w.used.toNat + 1) := hk
      have hb := byteBit_orBit w.curb b w.used.toNat (7 - k) (by omega) hu
      unfold byteBit at hb
      rw [show 7 - (7 - k) = k by omega] at hb
      have h0 := h k (by omega)
      simp only at *
      rw [hb, h0]
      simp; omega
    · simp only [bitsOf_nil, List.nil_append]
      unfold Writer.pendingBits
      simp only [hused]
      exact w.newByte_bits b h

/-- Written bits: everything they do. -/
theorem Writer.writeBits_spec (bits : List Bool) (w : Writer) (h : w.LowZero) :
    (w.writeBits bits).1.st = w.st ∧ (w.writeBits bits).1.LowZero ∧
      bitsOf (w.writeBits bits).2 ++ (w.writeBits bits).1.pendingBits = w.pendingBits ++ bits := by
  induction bits generalizing w with
  | nil => exact ⟨rfl, h, by simp [Writer.writeBits]⟩
  | cons b bs ih =>
    obtain ⟨h1, h2, h3⟩ := w.writeBit_spec b h
    obtain ⟨k1, k2, k3⟩ := ih (w.writeBit b).1 h2
    simp only [Writer.writeBits]
    refine ⟨k1.trans h1, k2, ?_⟩
    rw [bitsOf_append, List.append_assoc, k3, ← List.append_assoc, h3]
    simp

/-- Two runs of written bits are one. -/
theorem Writer.writeBits_append (a b : List Bool) (w : Writer) :
    w.writeBits (a ++ b) =
      (((w.writeBits a).1.writeBits b).1, (w.writeBits a).2 ++ ((w.writeBits a).1.writeBits b).2) := by
  induction a generalizing w with
  | nil => simp [Writer.writeBits]
  | cons x a ih => simp [Writer.writeBits, ih, List.append_assoc]

/-- Fields written in order are their bits written in order. -/
theorem Writer.writeFields_eq (fs : List (Nat × Word)) (w : Writer) :
    w.writeFields fs = w.writeBits (fs.flatMap fun f => field f.1 f.2) := by
  induction fs generalizing w with
  | nil => rfl
  | cons f fs ih =>
    simp only [Writer.writeFields, Writer.write, List.flatMap_cons, ih, Writer.writeBits_append]

/-- Closing appends the pending bits, completed with zeros to a byte (R129). -/
theorem Writer.close_bytes (w : Writer) (h : w.LowZero) : w.close.2 = packBits w.pendingBits := by
  unfold Writer.close
  by_cases h0 : w.used = 0#3
  · simp [h0, Writer.pendingBits, packBits]
  · have hu := w.used_lt
    have hpos : 0 < w.used.toNat := by
      rcases Nat.eq_zero_or_pos w.used.toNat with hz | hz
      · exact absurd (BitVec.eq_of_toNat_eq (by simpa using hz)) h0
      · exact hz
    simp only [h0, if_false]
    apply bitsOf_injective
    rw [bitsOf_packBits]
    apply List.ext_getElem?
    intro k
    rw [bitsOf_getElem?, streamBit?]
    have hlen : (w.used.toNat + 7) / 8 = 1 := by omega
    by_cases hk : k < 8
    · rw [show k / 8 = 0 by omega, show k % 8 = k by omega]
      simp only [List.getElem?_cons_zero]
      by_cases hku : k < w.used.toNat
      · rw [List.getElem?_append_left (by simpa using hku)]
        simp [Writer.pendingBits, hku]
      · rw [List.getElem?_append_right (by simpa using hku), List.getElem?_replicate]
        rw [if_pos (by simp [hlen]; omega)]
        simp only [byteBit]
        rw [h (7 - k) (by omega)]
    · rw [List.getElem?_eq_none (by simp; omega), List.getElem?_eq_none]
      simp [hlen]; omega

theorem Writer.close_record (w : Writer) : w.close.1 = ⟨.closed, 0#8, 0#3⟩ := rfl

@[simp] theorem Writer.init_pendingBits : Writer.init.pendingBits = [] := rfl

theorem Writer.init_lowZero : Writer.init.LowZero := by intro k _; simp [Writer.init]

/-- A fresh writer that writes bits and is closed has appended exactly the packed bits (R130). -/
theorem Writer.writeBits_close (bits : List Bool) :
    (Writer.init.writeBits bits).2 ++ (Writer.init.writeBits bits).1.close.2 = packBits bits := by
  obtain ⟨-, h2, h3⟩ := Writer.writeBits_spec bits Writer.init Writer.init_lowZero
  rw [Writer.close_bytes _ h2, ← packBits_bitsOf_append, h3]
  simp

end Sys2Proof.Machine
end

