-- ==== Sys2Proof/Laws/Decoder.lean ====
section
/-! SUPPORT. What the decoder does with a Fragment: headers, run records, escape markers (R166 to R174). -/

namespace Sys2Proof.Machine

/-! ### Fields -/

/-- A field says its value, if the value fits. -/
theorem field_inj (w : Nat) (v c : Word) (h : field w v = field w c) (hv : v.toNat < 2 ^ w) (hc : c.toNat < 2 ^ w) : v = c := by
  have := congrArg ofBits h
  rwa [ofBits_field, ofBits_field, lowBits_eq_self _ _ hv, lowBits_eq_self _ _ hc] at this

/-- A bit list that is long enough starts with a field. -/
theorem exists_field (l : List Bool) (w : Nat) (hw : w ≤ 64) (h : w ≤ l.length) :
    ∃ v : Word, v.toNat < 2 ^ w ∧ l = field w v ++ l.drop w := by
  have hl : (l.take w).length = w := by simp; omega
  refine ⟨lowBits w (ofBits (l.take w)), lowBits_toNat_lt _ _, ?_⟩
  have := field_ofBits (l.take w) (by omega)
  rw [hl] at this
  rw [field_lowBits, this, List.take_append_drop]

/-- Reading a field that stands first among the unread bits (R122). -/
theorem Reader.read_field (r : Reader) (src : Bytes) (w : Nat) (c : Word) (rest : List Bool) (hs : src.length < 2 ^ 64)
    (hu : r.used.toNat ≤ 8) (hw : w ≤ 64) (hc : c.toNat < 2 ^ w) (h : r.unread src = field w c ++ rest) :
    ∃ r', r.read src w = some (r', c) ∧ r'.st = r.st ∧ r'.used.toNat ≤ 8 ∧ r'.unread src = rest := by
  have hlen : w ≤ (r.unread src).length := by rw [h]; simp
  obtain ⟨r', v, h1, h2, h3, h4, h5, h6⟩ := r.read_spec src w hs hu hw hlen
  have hv : v = c := by
    apply field_inj w v c _ h5 hc
    rw [h4, h, List.take_left' (by simp)]
  subst hv
  exact ⟨r', h1, h2, h3, by rw [h6, h, List.drop_left' (by simp)]⟩

/-! ### Where a decode stands -/

/-- A decode's header registers, its iteration count, the bits it has yet to read of both sources and the bits it has written. -/
structure Decoding.At (metaSrc dataSrc : Bytes) (np : Byte) (numRuns : BitVec 48) (rw kw : Byte) (i : BitVec 48)
    (metaRest dataRest written : List Bool) (d : Decoding) : Prop where
  np : d.rd.np = np
  numRuns : d.rd.numRuns = numRuns
  runWidth : d.rd.runWidth = rw
  keyWidth : d.rd.keyWidth = kw
  i : d.rd.i = i
  rmSt : d.rd.rm.st = .ready
  rmUsed : d.rd.rm.used.toNat ≤ 8
  rm : d.rd.rm.unread metaSrc = metaRest
  rkSt : d.rd.rk.st = .ready
  rkUsed : d.rd.rk.used.toNat ≤ 8
  rk : d.rd.rk.unread dataSrc = dataRest
  woSt : d.rd.wo.st = .ready
  woLow : d.rd.wo.LowZero
  written : bitsOf d.out ++ d.rd.wo.pendingBits = written

variable {metaSrc dataSrc : Bytes} {np : Byte} {numRuns : BitVec 48} {rw kw : Byte} {i : BitVec 48}
  {metaRest dataRest written : List Bool} {d : Decoding}

/-- A field read from the meta source. -/
theorem Decoding.At.readMeta (hs : metaSrc.length < 2 ^ 64) (w : Nat) (c : Word) (hw : w ≤ 64) (hc : c.toNat < 2 ^ w)
    (h : Decoding.At metaSrc dataSrc np numRuns rw kw i (field w c ++ metaRest) dataRest written d)
    (next : Word → Decoding → Progress) :
    ∃ d', d.readMeta metaSrc w next = next c d' ∧
      Decoding.At metaSrc dataSrc np numRuns rw kw i metaRest dataRest written d' := by
  obtain ⟨r', h1, h2, h3, h4⟩ := Reader.read_field _ _ w c metaRest hs h.rmUsed hw hc h.rm
  refine ⟨{ d with rd := { d.rd with rm := r' } }, by simp [Decoding.readMeta, h1], ?_⟩
  exact { h with rmSt := h2.trans h.rmSt, rmUsed := h3, rm := h4 }

/-- A field read from the data source. -/
theorem Decoding.At.readData (hs : dataSrc.length < 2 ^ 64) (w : Nat) (c : Word) (hw : w ≤ 64) (hc : c.toNat < 2 ^ w)
    (h : Decoding.At metaSrc dataSrc np numRuns rw kw i metaRest (field w c ++ dataRest) written d)
    (next : Word → Decoding → Progress) :
    ∃ d', d.readData dataSrc w next = next c d' ∧
      Decoding.At metaSrc dataSrc np numRuns rw kw i metaRest dataRest written d' := by
  obtain ⟨r', h1, h2, h3, h4⟩ := Reader.read_field _ _ w c dataRest hs h.rkUsed hw hc h.rk
  refine ⟨{ d with rd := { d.rd with rk := r' } }, by simp [Decoding.readData, h1], ?_⟩
  exact { h with rkSt := h2.trans h.rkSt, rkUsed := h3, rk := h4 }

/-- One key written (R170). -/
theorem Decoding.At.emit (h : Decoding.At metaSrc dataSrc np numRuns rw kw i metaRest dataRest written d) (key : Word) :
    Decoding.At metaSrc dataSrc np numRuns rw kw i metaRest dataRest (written ++ field kw.toNat key) (d.emit key) := by
  obtain ⟨w1, w2, w3⟩ := Writer.writeBits_spec (field kw.toNat key) d.rd.wo h.woLow
  unfold Decoding.emit Writer.write
  simp only [h.keyWidth]
  exact { h with
    keyWidth := rfl
    woSt := w1.trans h.woSt
    woLow := w2
    written := by simp only [bitsOf_append, List.append_assoc, w3, ← h.written] }

/-- A key written several times (R170). -/
theorem Decoding.At.emitTimes (key : Word) (n : Nat) :
    ∀ {d : Decoding} {written : List Bool}, Decoding.At metaSrc dataSrc np numRuns rw kw i metaRest dataRest written d →
      Decoding.At metaSrc dataSrc np numRuns rw kw i metaRest dataRest
        (written ++ (List.replicate n key).flatMap (field kw.toNat)) (d.emitTimes key n) := by
  induction n with
  | zero => intro d written h; simpa [Decoding.emitTimes] using h
  | succ n ih =>
    intro d written h
    have := ih (h.emit key)
    simpa [Decoding.emitTimes, List.replicate_succ, List.append_assoc] using this

/-- Literal keys, each read and written once (R171). -/
theorem Decoding.At.literals (hs : dataSrc.length < 2 ^ 64) (hw : WidthOk kw.toNat) (keys : List Word) :
    ∀ {d : Decoding} {written : List Bool}, (∀ k ∈ keys, k.toNat < 2 ^ kw.toNat) →
      Decoding.At metaSrc dataSrc np numRuns rw kw i metaRest (keys.flatMap (field kw.toNat) ++ dataRest) written d →
      ∃ d', Decoding.literals dataSrc keys.length d = .going d' ∧
        Decoding.At metaSrc dataSrc np numRuns rw kw i metaRest dataRest (written ++ keys.flatMap (field kw.toNat)) d' := by
  induction keys with
  | nil => intro d written _ h; exact ⟨d, rfl, by simpa using h⟩
  | cons k keys ih =>
    intro d written hk h
    rw [List.flatMap_cons, List.append_assoc] at h
    obtain ⟨d1, e1, h1⟩ := h.readData hs kw.toNat k hw.2 (hk k (by simp))
      (fun key d => Decoding.literals dataSrc keys.length (d.emit key))
    obtain ⟨d2, e2, h2⟩ := ih (fun k' hk' => hk k' (by simp [hk'])) (h1.emit k)
    refine ⟨d2, ?_, by simpa [List.append_assoc] using h2⟩
    rw [List.length_cons, Decoding.literals, h.keyWidth, e1, e2]

/-- One iteration on a run record (R166, R169 to R171). -/
theorem Decoding.At.iteration (hm : metaSrc.length < 2 ^ 64) (hd : dataSrc.length < 2 ^ 64) (hr : WidthOk rw.toNat)
    (hk : WidthOk kw.toNat) (rec : RunRecord) (hfit : rec.Fits rw.toNat kw.toNat)
    (h : Decoding.At metaSrc dataSrc np numRuns rw kw i (rec.countBits rw.toNat ++ metaRest)
      (rec.keys.flatMap (field kw.toNat) ++ dataRest) written d) :
    ∃ d', d.iteration metaSrc dataSrc = .going d' ∧
      Decoding.At metaSrc dataSrc np numRuns rw kw (i + 1#48) metaRest dataRest
        (written ++ rec.output.flatMap (field kw.toNat)) d' := by
  cases rec with
  | run count key =>
    obtain ⟨hc0, hc, hkey⟩ := hfit
    simp only [RunRecord.countBits, RunRecord.keys, RunRecord.output, List.flatMap_cons, List.flatMap_nil,
      List.append_nil] at h ⊢
    obtain ⟨d1, e1, h1⟩ := h.readMeta hm rw.toNat count hr.2 hc
      (fun run d => if run = 0#64 then d.escape metaSrc dataSrc else d.repeatKey dataSrc run)
    obtain ⟨d2, e2, h2⟩ := h1.readData hd kw.toNat key hk.2 hkey (fun key d => .going (d.emitTimes key count.toNat))
    have h3 := Decoding.At.emitTimes key count.toNat h2
    generalize Decoding.emitTimes key count.toNat d2 = d3 at e2 h3
    refine ⟨{ d3 with rd := { d3.rd with i := d3.rd.i + 1#48 } }, ?_, { h3 with i := congrArg (· + 1#48) h3.i }⟩
    rw [Decoding.iteration, h.runWidth, e1, if_neg hc0, Decoding.repeatKey, h1.keyWidth, e2]
    rfl
  | escape literals =>
    obtain ⟨hl, hkeys⟩ := hfit
    simp only [RunRecord.countBits, RunRecord.keys, RunRecord.output, List.append_assoc] at h ⊢
    have hr2 := hr.2
    have hlen : (BitVec.ofNat 64 literals.length).toNat = literals.length := by
      rw [BitVec.toNat_ofNat]
      exact Nat.mod_eq_of_lt (lt_of_lt_of_le hl (Nat.pow_le_pow_right (by norm_num) hr2))
    obtain ⟨d1, e1, h1⟩ := h.readMeta hm rw.toNat 0#64 hr2 (by simp)
      (fun run d => if run = 0#64 then d.escape metaSrc dataSrc else d.repeatKey dataSrc run)
    obtain ⟨d2, e2, h2⟩ := h1.readMeta hm rw.toNat (BitVec.ofNat 64 literals.length) hr2 (by rw [hlen]; exact hl)
      (fun literalCount d => Decoding.literals dataSrc literalCount.toNat d)
    obtain ⟨d3, e3, h3⟩ := Decoding.At.literals hd hk literals hkeys h2
    refine ⟨{ d3 with rd := { d3.rd with i := d3.rd.i + 1#48 } }, ?_, { h3 with i := congrArg (· + 1#48) h3.i }⟩
    rw [Decoding.iteration, h.runWidth, e1, if_pos rfl, Decoding.escape, h1.runWidth, e2, hlen, e3]
    rfl

/-- Iterations in two parts (R166). -/
theorem Decoding.iterations_add (metaSrc dataSrc : Bytes) (a b : Nat) (d : Decoding) :
    Decoding.iterations metaSrc dataSrc (a + b) d =
      (Decoding.iterations metaSrc dataSrc a d).andThen (Decoding.iterations metaSrc dataSrc b) := by
  induction a generalizing d with
  | zero => rw [Nat.zero_add]; rfl
  | succ a ih =>
    rw [Nat.succ_add, Decoding.iterations, Decoding.iterations]
    cases d.iteration metaSrc dataSrc with
    | going d => exact ih d
    | raised d code aux => rfl

/-- Iterations over several run records (R166). -/
theorem Decoding.At.iterations (hm : metaSrc.length < 2 ^ 64) (hd : dataSrc.length < 2 ^ 64) (hr : WidthOk rw.toNat)
    (hk : WidthOk kw.toNat) (records : List RunRecord) :
    ∀ {d : Decoding} {written : List Bool} {i : BitVec 48}, (∀ r ∈ records, r.Fits rw.toNat kw.toNat) →
      Decoding.At metaSrc dataSrc np numRuns rw kw i (records.flatMap (RunRecord.countBits rw.toNat) ++ metaRest)
        ((records.flatMap RunRecord.keys).flatMap (field kw.toNat) ++ dataRest) written d →
      ∃ d', Decoding.iterations metaSrc dataSrc records.length d = .going d' ∧
        Decoding.At metaSrc dataSrc np numRuns rw kw (i + BitVec.ofNat 48 records.length) metaRest dataRest
          (written ++ (records.flatMap RunRecord.output).flatMap (field kw.toNat)) d' := by
  induction records with
  | nil => intro d written i _ h; exact ⟨d, rfl, by simpa using h⟩
  | cons r records ih =>
    intro d written i hfit h
    simp only [List.flatMap_cons, List.flatMap_append, List.append_assoc] at h ⊢
    obtain ⟨d1, e1, h1⟩ := h.iteration hm hd hr hk r (hfit r (by simp))
    obtain ⟨d2, e2, h2⟩ := ih (fun r' hr' => hfit r' (by simp [hr'])) h1
    refine ⟨d2, ?_, ?_⟩
    · rw [List.length_cons, Decoding.iterations, e1]
      exact e2
    · have : i + BitVec.ofNat 48 (r :: records).length = i + 1#48 + BitVec.ofNat 48 records.length := by
        apply BitVec.eq_of_toNat_eq
        simp only [List.length_cons, BitVec.toNat_add, BitVec.toNat_ofNat]
        omega
      rw [this]
      simpa [List.append_assoc] using h2

/-! ### Headers and the whole decode -/

/-- The decode just started (R167). -/
theorem Decoding.At.start (rd : Decoder) (metaSrc dataSrc : Bytes) :
    Decoding.At metaSrc dataSrc rd.np rd.numRuns rd.runWidth rd.keyWidth rd.i (bitsOf metaSrc) (bitsOf dataSrc) []
      (Decoding.start rd) where
  np := rfl
  numRuns := rfl
  runWidth := rfl
  keyWidth := rfl
  i := rfl
  rmSt := rfl
  rmUsed := by simp [Decoding.start, Reader.init]
  rm := Reader.init_unread metaSrc
  rkSt := rfl
  rkUsed := by simp [Decoding.start, Reader.init]
  rk := Reader.init_unread dataSrc
  woSt := rfl
  woLow := Writer.init_lowZero
  written := rfl

/-- The headers of a MetaRecord and a DataRecord read (R71, R72, R167). -/
theorem Decoding.At.headers (hm : metaSrc.length < 2 ^ 64) (hd : dataSrc.length < 2 ^ 64) {np' rw' kw' : Byte}
    {numRuns' : BitVec 48}
    (h : Decoding.At metaSrc dataSrc np numRuns rw kw i
      (metaBits np'.toNat numRuns'.toNat rw'.toNat metaRest) (field 8 (BitVec.ofNat 64 kw'.toNat) ++ dataRest) written d) :
    ∃ d', d.readHeaders metaSrc dataSrc = .going d' ∧
      Decoding.At metaSrc dataSrc np' numRuns' rw' kw' i metaRest dataRest written d' := by
  have b8 : ∀ b : Byte, (BitVec.ofNat 64 b.toNat).toNat < 2 ^ 8 := by
    intro b
    have := b.isLt
    rw [BitVec.toNat_ofNat]
    omega
  have b48 : (BitVec.ofNat 64 numRuns'.toNat).toNat < 2 ^ 48 := by
    have := numRuns'.isLt
    rw [BitVec.toNat_ofNat]
    omega
  have s8 : ∀ b : Byte, (BitVec.ofNat 64 b.toNat).setWidth 8 = b := by
    intro b
    apply BitVec.eq_of_toNat_eq
    simp
  have s48 : (BitVec.ofNat 64 numRuns'.toNat).setWidth 48 = numRuns' := by
    apply BitVec.eq_of_toNat_eq
    simp
  unfold metaBits at h
  simp only [List.append_assoc] at h
  unfold Decoding.readHeaders
  obtain ⟨d1, e1, h1⟩ := h.readMeta hm 8 _ (by norm_num) (b8 np') _
  rw [e1]
  have h1' := { h1 with np := s8 np' : Decoding.At metaSrc dataSrc np' numRuns rw kw i _ _ written
    { d1 with rd := { d1.rd with np := (BitVec.ofNat 64 np'.toNat).setWidth 8 } } }
  obtain ⟨d2, e2, h2⟩ := h1'.readMeta hm 48 _ (by norm_num) b48 _
  rw [e2]
  have h2' := { h2 with numRuns := s48 : Decoding.At metaSrc dataSrc np' numRuns' rw kw i _ _ written
    { d2 with rd := { d2.rd with numRuns := (BitVec.ofNat 64 numRuns'.toNat).setWidth 48 } } }
  obtain ⟨d3, e3, h3⟩ := h2'.readMeta hm 8 _ (by norm_num) (b8 rw') _
  rw [e3]
  have h3' := { h3 with runWidth := s8 rw' : Decoding.At metaSrc dataSrc np' numRuns' rw' kw i _ _ written
    { d3 with rd := { d3.rd with runWidth := (BitVec.ofNat 64 rw'.toNat).setWidth 8 } } }
  obtain ⟨d4, e4, h4⟩ := h3'.readData hd 8 _ (by norm_num) (b8 kw') _
  rw [e4]
  exact ⟨_, rfl, { h4 with keyWidth := s8 kw' }⟩

/-- Nothing written, nothing in the sink. -/
theorem Decoding.At.out_nil (h : Decoding.At metaSrc dataSrc np numRuns rw kw i metaRest dataRest [] d) : d.out = [] := by
  have h1 := congrArg List.length h.written
  rw [List.length_append, bitsOf_length, List.length_nil] at h1
  exact List.eq_nil_of_length_eq_zero (by omega)

/-- Closing the output (R172). -/
theorem Decoding.At.finish (h : Decoding.At metaSrc dataSrc np numRuns rw kw i metaRest dataRest written d) :
    d.finish.out = packBits written ∧ d.finish.rd = { d.rd with wo := ⟨.closed, 0#8, 0#3⟩ } := by
  unfold Decoding.finish
  simp only [Writer.close_record, and_true]
  rw [Writer.close_bytes _ h.woLow, ← packBits_bitsOf_append, h.written]

/-- A whole decode of run records, whatever follows them in the two sources (R75, R166). -/
theorem Decoder.run_records (rd : Decoder) (hm : metaSrc.length < 2 ^ 64) (hd : dataSrc.length < 2 ^ 64)
    (hr : WidthOk rw.toNat) (hk : WidthOk kw.toNat) (records : List RunRecord) (hlen : records.length < 2 ^ 48)
    (hfit : ∀ r ∈ records, r.Fits rw.toNat kw.toNat)
    (hmeta : bitsOf metaSrc =
      metaBits np.toNat records.length rw.toNat (records.flatMap (RunRecord.countBits rw.toNat) ++ metaRest))
    (hdata : bitsOf dataSrc =
      field 8 (BitVec.ofNat 64 kw.toNat) ++ ((records.flatMap RunRecord.keys).flatMap (field kw.toNat) ++ dataRest)) :
    ∃ d, rd.run metaSrc dataSrc = .going d ∧
      d.out = packBits ((records.flatMap RunRecord.output).flatMap (field kw.toNat)) ∧ d.rd.np = np ∧
      d.rd.numRuns = BitVec.ofNat 48 records.length ∧ d.rd.runWidth = rw ∧ d.rd.keyWidth = kw ∧
      d.rd.i = BitVec.ofNat 48 records.length ∧ d.rd.rm.unread metaSrc = metaRest ∧ d.rd.rk.unread dataSrc = dataRest := by
  have hn : (BitVec.ofNat 48 records.length).toNat = records.length := by
    rw [BitVec.toNat_ofNat]
    exact Nat.mod_eq_of_lt hlen
  have h0 := Decoding.At.start rd metaSrc dataSrc
  rw [hmeta, hdata] at h0
  rw [← hn] at h0
  obtain ⟨d1, e1, h1⟩ := h0.headers hm hd
  have hc : d1.checkHeaders = .going d1 := by
    unfold Decoding.checkHeaders
    rw [h1.runWidth, h1.keyWidth, if_pos ⟨hr, hk⟩]
  have h1' := { h1 with i := rfl : Decoding.At metaSrc dataSrc np (BitVec.ofNat 48 records.length) rw kw 0#48 _ _ []
    { d1 with rd := { d1.rd with i := 0#48 } } }
  obtain ⟨d2, e2, h2⟩ := Decoding.At.iterations hm hd hr hk records hfit h1'
  obtain ⟨f1, f2⟩ := h2.finish
  refine ⟨d2.finish, ?_, by simpa using f1, ?_⟩
  · have hcount : d1.rd.numRuns.toNat = records.length := by rw [h1.numRuns, hn]
    have e2' : Decoding.iterations metaSrc dataSrc d1.rd.numRuns.toNat { d1 with rd := { d1.rd with i := 0#48 } } =
        .going d2 := by
      rw [hcount]
      exact e2
    unfold Decoder.run
    rw [e1]
    show (d1.checkHeaders).andThen _ = _
    rw [hc]
    show (Decoding.iterations _ _ _ _).andThen _ = _
    rw [e2']
    rfl
  · rw [f2]
    exact ⟨h2.np, h2.numRuns, h2.runWidth, h2.keyWidth, by rw [h2.i]; simp, h2.rm, h2.rk⟩

/-! ### A decode cut short (R174) -/

/-- A read from a meta source that has run short. -/
theorem Decoding.At.readMeta_short (h : Decoding.At metaSrc dataSrc np numRuns rw kw i metaRest dataRest written d) (w : Nat)
    (hw : metaRest.length < w) (next : Word → Decoding → Progress) :
    d.readMeta metaSrc w next = .raised d .sourceUnderrun 0#64 := by
  unfold Decoding.readMeta
  rw [Reader.read_short _ _ _ (by rw [h.rm]; exact hw)]

/-- A read from a data source that has run short. -/
theorem Decoding.At.readData_short (h : Decoding.At metaSrc dataSrc np numRuns rw kw i metaRest dataRest written d) (w : Nat)
    (hw : dataRest.length < w) (next : Word → Decoding → Progress) :
    d.readData dataSrc w next = .raised d .sourceUnderrun 1#64 := by
  unfold Decoding.readData
  rw [Reader.read_short _ _ _ (by rw [h.rk]; exact hw)]

/-- Literal keys of which only some are there: those are emitted (R171, R174). -/
theorem Decoding.At.literals_short (hs : dataSrc.length < 2 ^ 64) (hw : WidthOk kw.toNat) (hd : dataRest.length < kw.toNat)
    (keys : List Word) :
    ∀ {n : Nat} {d : Decoding} {written : List Bool}, keys.length < n → (∀ k ∈ keys, k.toNat < 2 ^ kw.toNat) →
      Decoding.At metaSrc dataSrc np numRuns rw kw i metaRest (keys.flatMap (field kw.toNat) ++ dataRest) written d →
      ∃ d', Decoding.literals dataSrc n d = .raised d' .sourceUnderrun 1#64 ∧
        Decoding.At metaSrc dataSrc np numRuns rw kw i metaRest dataRest (written ++ keys.flatMap (field kw.toNat)) d' := by
  induction keys with
  | nil =>
    intro n d written hn _ h
    obtain ⟨n, rfl⟩ := Nat.exists_eq_succ_of_ne_zero (Nat.ne_of_gt hn)
    refine ⟨d, ?_, by simpa using h⟩
    rw [Decoding.literals, h.keyWidth]
    exact h.readData_short _ (by simpa using hd) _
  | cons k keys ih =>
    intro n d written hn hk h
    obtain ⟨n, rfl⟩ := Nat.exists_eq_succ_of_ne_zero (Nat.ne_of_gt (Nat.zero_lt_of_lt hn))
    rw [List.flatMap_cons, List.append_assoc] at h
    obtain ⟨d1, e1, h1⟩ := h.readData hs kw.toNat k hw.2 (hk k (by simp))
      (fun key d => Decoding.literals dataSrc n (d.emit key))
    obtain ⟨d2, e2, h2⟩ := ih (Nat.lt_of_succ_lt_succ hn) (fun k' hk' => hk k' (by simp [hk'])) (h1.emit k)
    refine ⟨d2, ?_, by simpa [List.append_assoc] using h2⟩
    rw [Decoding.literals, h.keyWidth, e1, e2]

/-- One iteration on a record cut short: the fault names the source, the iteration count stays (R174). -/
theorem Decoding.At.iteration_short {emitted : List Word} {metaLeft dataLeft : List Bool} {aux : Word}
    (hm : metaSrc.length < 2 ^ 64) (hd : dataSrc.length < 2 ^ 64) (hr : WidthOk rw.toNat) (hk : WidthOk kw.toNat)
    (hcut : CutShort rw.toNat kw.toNat metaRest dataRest emitted metaLeft dataLeft aux)
    (h : Decoding.At metaSrc dataSrc np numRuns rw kw i metaRest dataRest written d) :
    ∃ d', d.iteration metaSrc dataSrc = .raised d' .sourceUnderrun aux ∧
      Decoding.At metaSrc dataSrc np numRuns rw kw i metaLeft dataLeft
        (written ++ emitted.flatMap (field kw.toNat)) d' := by
  cases hcut with
  | count hl =>
    refine ⟨d, ?_, by simpa using h⟩
    rw [Decoding.iteration, h.runWidth, h.readMeta_short _ hl]
    rfl
  | literalCount hl =>
    obtain ⟨d1, e1, h1⟩ := h.readMeta hm rw.toNat 0#64 hr.2 (by simp)
      (fun run d => if run = 0#64 then d.escape metaSrc dataSrc else d.repeatKey dataSrc run)
    refine ⟨d1, ?_, by simpa using h1⟩
    rw [Decoding.iteration, h.runWidth, e1, if_pos rfl, Decoding.escape, h1.runWidth, h1.readMeta_short _ hl]
    rfl
  | @runKey count _ _ hc0 hc hl =>
    obtain ⟨d1, e1, h1⟩ := h.readMeta hm rw.toNat count hr.2 hc
      (fun run d => if run = 0#64 then d.escape metaSrc dataSrc else d.repeatKey dataSrc run)
    refine ⟨d1, ?_, by simpa using h1⟩
    rw [Decoding.iteration, h.runWidth, e1, if_neg hc0, Decoding.repeatKey, h1.keyWidth, h1.readData_short _ hl]
    rfl
  | @literalKey _ n _ _ hlen hn hkeys hl =>
    have hcount : (BitVec.ofNat 64 n).toNat = n := by
      rw [BitVec.toNat_ofNat]
      exact Nat.mod_eq_of_lt (lt_of_lt_of_le hn (Nat.pow_le_pow_right (by norm_num) hr.2))
    rw [List.append_assoc] at h
    obtain ⟨d1, e1, h1⟩ := h.readMeta hm rw.toNat 0#64 hr.2 (by simp)
      (fun run d => if run = 0#64 then d.escape metaSrc dataSrc else d.repeatKey dataSrc run)
    obtain ⟨d2, e2, h2⟩ := h1.readMeta hm rw.toNat (BitVec.ofNat 64 n) hr.2 (by rw [hcount]; exact hn)
      (fun literalCount d => Decoding.literals dataSrc literalCount.toNat d)
    obtain ⟨d3, e3, h3⟩ := Decoding.At.literals_short hd hk hl emitted hlen hkeys h2
    refine ⟨d3, ?_, h3⟩
    rw [Decoding.iteration, h.runWidth, e1, if_pos rfl, Decoding.escape, h1.runWidth, e2, hcount, e3]
    rfl

/-- Iterations over several whole records and then one cut short (R174). -/
theorem Decoding.At.iterations_short {emitted : List Word} {metaLeft dataLeft : List Bool} {aux : Word}
    (hm : metaSrc.length < 2 ^ 64) (hd : dataSrc.length < 2 ^ 64) (hr : WidthOk rw.toNat) (hk : WidthOk kw.toNat)
    (hcut : CutShort rw.toNat kw.toNat metaRest dataRest emitted metaLeft dataLeft aux) (records : List RunRecord)
    {n : Nat} (hn : records.length < n) (hfit : ∀ r ∈ records, r.Fits rw.toNat kw.toNat)
    (h : Decoding.At metaSrc dataSrc np numRuns rw kw i (records.flatMap (RunRecord.countBits rw.toNat) ++ metaRest)
      ((records.flatMap RunRecord.keys).flatMap (field kw.toNat) ++ dataRest) written d) :
    ∃ d', Decoding.iterations metaSrc dataSrc n d = .raised d' .sourceUnderrun aux ∧
      Decoding.At metaSrc dataSrc np numRuns rw kw (i + BitVec.ofNat 48 records.length) metaLeft dataLeft
        (written ++ (records.flatMap RunRecord.output ++ emitted).flatMap (field kw.toNat)) d' := by
  obtain ⟨d1, e1, h1⟩ := Decoding.At.iterations hm hd hr hk records hfit h
  obtain ⟨d2, e2, h2⟩ := h1.iteration_short hm hd hr hk hcut
  obtain ⟨k, rfl⟩ := Nat.exists_eq_add_of_lt hn
  refine ⟨d2, ?_, by simpa [List.append_assoc] using h2⟩
  rw [Nat.add_assoc, Decoding.iterations_add, e1]
  show (d1.iteration metaSrc dataSrc).andThen _ = _
  rw [e2]
  rfl

/-- The output when some bits have been written and the writer is still open: the whole bytes are in the sink, the rest is pending. -/
theorem Decoding.At.out_pending (h : Decoding.At metaSrc dataSrc np numRuns rw kw i metaRest dataRest written d) :
    d.out = (packBits written).take (written.length / 8) ∧ d.rd.wo.pendingBits = written.drop (8 * (written.length / 8)) := by
  have hl := congrArg List.length h.written
  rw [List.length_append, bitsOf_length, Writer.pendingBits_length] at hl
  have hq : written.length / 8 = d.out.length := by
    have := d.rd.wo.used_lt
    omega
  constructor
  · rw [hq, ← h.written, packBits_bitsOf_append, List.take_left]
  · rw [hq, ← bitsOf_length d.out, ← h.written, List.drop_left]

/-- A whole decode of run records, the last of them cut short (R174, R222). -/
theorem Decoder.run_short {emitted : List Word} {metaLeft dataLeft : List Bool} {aux : Word} (rd : Decoder)
    (hm : metaSrc.length < 2 ^ 64) (hd : dataSrc.length < 2 ^ 64) (hr : WidthOk rw.toNat) (hk : WidthOk kw.toNat)
    (records : List RunRecord) (hlen : records.length < numRuns.toNat) (hfit : ∀ r ∈ records, r.Fits rw.toNat kw.toNat)
    (hcut : CutShort rw.toNat kw.toNat metaRest dataRest emitted metaLeft dataLeft aux)
    (hmeta : bitsOf metaSrc =
      metaBits np.toNat numRuns.toNat rw.toNat (records.flatMap (RunRecord.countBits rw.toNat) ++ metaRest))
    (hdata : bitsOf dataSrc =
      field 8 (BitVec.ofNat 64 kw.toNat) ++ ((records.flatMap RunRecord.keys).flatMap (field kw.toNat) ++ dataRest)) :
    ∃ d, rd.run metaSrc dataSrc = .raised d .sourceUnderrun aux ∧
      Decoding.At metaSrc dataSrc np numRuns rw kw (BitVec.ofNat 48 records.length) metaLeft dataLeft
        ((records.flatMap RunRecord.output ++ emitted).flatMap (field kw.toNat)) d := by
  have h0 := Decoding.At.start rd metaSrc dataSrc
  rw [hmeta, hdata] at h0
  obtain ⟨d1, e1, h1⟩ := h0.headers hm hd
  have hc : d1.checkHeaders = .going d1 := by
    unfold Decoding.checkHeaders
    rw [h1.runWidth, h1.keyWidth, if_pos ⟨hr, hk⟩]
  have h1' := { h1 with i := rfl : Decoding.At metaSrc dataSrc np numRuns rw kw 0#48 _ _ []
    { d1 with rd := { d1.rd with i := 0#48 } } }
  obtain ⟨d2, e2, h2⟩ := Decoding.At.iterations_short hm hd hr hk hcut records hlen hfit h1'
  refine ⟨d2, ?_, by simpa using h2⟩
  rw [← h1.numRuns] at e2
  unfold Decoder.run
  rw [e1]
  show (d1.checkHeaders).andThen _ = _
  rw [hc]
  show (Decoding.iterations _ _ _ _).andThen _ = _
  rw [e2]
  rfl

/-! ### How a decode can end -/

/-- What holds of the state a decode reaches, whether it goes on or has raised a fault. -/
def Progress.Ends (going : Decoding → Prop) (raised : Decoding → Code → Word → Prop) : Progress → Prop
  | .going d => going d
  | .raised d code aux => raised d code aux

theorem Progress.Ends.andThen {p : Progress} {next : Decoding → Progress} {going going' : Decoding → Prop}
    {raised : Decoding → Code → Word → Prop} (h : p.Ends going raised) (hn : ∀ d, going d → (next d).Ends going' raised) :
    (p.andThen next).Ends going' raised := by
  cases p with
  | going d => exact hn d h
  | raised d code aux => exact h

theorem Progress.Ends.mono {p : Progress} {going going' : Decoding → Prop} {raised raised' : Decoding → Code → Word → Prop}
    (h : p.Ends going raised) (h1 : ∀ d, going d → going' d) (h2 : ∀ d c a, raised d c a → raised' d c a) :
    p.Ends going' raised' := by
  cases p with
  | going d => exact h1 d h
  | raised d code aux => exact h2 d code aux h

theorem Reader.takeBit_kept (r : Reader) (src : Bytes) (hu : r.used.toNat ≤ 8) :
    (r.takeBit src).1.st = r.st ∧ (r.takeBit src).1.used.toNat ≤ 8 := by
  have hr : (r.refill src).st = r.st ∧ (r.refill src).used.toNat < 8 := by
    unfold Reader.refill
    by_cases h8 : r.used = 8#4
    · rw [if_pos h8]
      exact ⟨rfl, by simp⟩
    · rw [if_neg h8]
      have : r.used.toNat ≠ 8 := fun e => h8 (BitVec.eq_of_toNat_eq (by simpa using e))
      exact ⟨rfl, by omega⟩
  unfold Reader.takeBit
  refine ⟨hr.1, ?_⟩
  have := hr.2
  simp only [BitVec.toNat_add, BitVec.toNat_ofNat]
  omega

/-- Whatever the source, a read keeps the reader's state and at most eight bits of its byte are consumed (R16). -/
theorem Reader.takeBits_kept (src : Bytes) (n : Nat) (r : Reader) (acc : Word) (hu : r.used.toNat ≤ 8) :
    (Reader.takeBits src n r acc).1.st = r.st ∧ (Reader.takeBits src n r acc).1.used.toNat ≤ 8 := by
  induction n generalizing r acc with
  | zero => exact ⟨rfl, hu⟩
  | succ n ih =>
    obtain ⟨h1, h2⟩ := r.takeBit_kept src hu
    obtain ⟨k1, k2⟩ := ih (r.takeBit src).1 (pushBit acc (r.takeBit src).2) h2
    exact ⟨k1.trans h1, k2⟩

theorem Reader.read_kept {r r' : Reader} {src : Bytes} {w : Nat} {v : Word} (h : r.read src w = some (r', v))
    (hu : r.used.toNat ≤ 8) : r'.st = r.st ∧ r'.used.toNat ≤ 8 := by
  unfold Reader.read at h
  split at h
  · exact absurd h (by simp)
  · have hk := Reader.takeBits_kept src w r 0#64 hu
    rw [Option.some.injEq] at h
    rw [h] at hk
    exact hk

/-- The private records of a running decode are sound (R16, R17, R167). -/
structure Decoding.Sound (d : Decoding) : Prop where
  rmSt : d.rd.rm.st = .ready
  rmUsed : d.rd.rm.used.toNat ≤ 8
  rkSt : d.rd.rk.st = .ready
  rkUsed : d.rd.rk.used.toNat ≤ 8
  woSt : d.rd.wo.st = .ready
  woLow : d.rd.wo.LowZero

/-- What an underrun leaves: a sound state, and the source it names (R174). -/
abbrev Decoding.Underrun (d : Decoding) (code : Code) (aux : Word) : Prop :=
  d.Sound ∧ code = .sourceUnderrun ∧ (aux = 0#64 ∨ aux = 1#64)

/-- Sound, and equal to another state but for the private records. -/
structure Decoding.Like (d d' : Decoding) : Prop where
  sound : d'.Sound
  out : d'.out = d.out
  numRuns : d'.rd.numRuns = d.rd.numRuns
  i : d'.rd.i = d.rd.i

theorem Decoding.readMeta_ends {d : Decoding} {metaSrc : Bytes} {w : Nat} {next : Word → Decoding → Progress} (h : d.Sound)
    {going : Decoding → Prop} {raised : Decoding → Code → Word → Prop} (hr : raised d .sourceUnderrun 0#64)
    (hn : ∀ v d', d.Like d' → (next v d').Ends going raised) :
    (d.readMeta metaSrc w next).Ends going raised := by
  unfold Decoding.readMeta
  cases hread : d.rd.rm.read metaSrc w with
  | none => exact hr
  | some p =>
    obtain ⟨k1, k2⟩ := Reader.read_kept hread h.rmUsed
    exact hn p.2 _ ⟨⟨k1.trans h.rmSt, k2, h.rkSt, h.rkUsed, h.woSt, h.woLow⟩, rfl, rfl, rfl⟩

theorem Decoding.readData_ends {d : Decoding} {dataSrc : Bytes} {w : Nat} {next : Word → Decoding → Progress} (h : d.Sound)
    {going : Decoding → Prop} {raised : Decoding → Code → Word → Prop} (hr : raised d .sourceUnderrun 1#64)
    (hn : ∀ v d', d.Like d' → (next v d').Ends going raised) :
    (d.readData dataSrc w next).Ends going raised := by
  unfold Decoding.readData
  cases hread : d.rd.rk.read dataSrc w with
  | none => exact hr
  | some p =>
    obtain ⟨k1, k2⟩ := Reader.read_kept hread h.rkUsed
    exact hn p.2 _ ⟨⟨h.rmSt, h.rmUsed, k1.trans h.rkSt, k2, h.woSt, h.woLow⟩, rfl, rfl, rfl⟩

/-- The iteration count and the number of runs of another state, with sound private records. -/
abbrev Decoding.Counts (d d' : Decoding) : Prop := d'.Sound ∧ d'.rd.numRuns = d.rd.numRuns ∧ d'.rd.i = d.rd.i

theorem Decoding.Like.counts {d0 d d' : Decoding} (h : d0.Counts d) (h' : d.Like d') : d0.Counts d' :=
  ⟨h'.sound, h'.numRuns.trans h.2.1, h'.i.trans h.2.2⟩

theorem Decoding.emit_counts {d0 d : Decoding} (key : Word) (h : d0.Counts d) : d0.Counts (d.emit key) := by
  obtain ⟨w1, w2, -⟩ := Writer.writeBits_spec (field d.rd.keyWidth.toNat key) d.rd.wo h.1.woLow
  exact ⟨⟨h.1.rmSt, h.1.rmUsed, h.1.rkSt, h.1.rkUsed, w1.trans h.1.woSt, w2⟩, h.2⟩

theorem Decoding.emitTimes_counts {d0 : Decoding} (key : Word) (n : Nat) (d : Decoding) (h : d0.Counts d) :
    d0.Counts (d.emitTimes key n) := by
  induction n generalizing d with
  | zero => exact h
  | succ n ih => exact ih _ (Decoding.emit_counts key h)

theorem Decoding.literals_ends {d0 : Decoding} (dataSrc : Bytes) (n : Nat) (d : Decoding) (h : d0.Counts d) :
    (Decoding.literals dataSrc n d).Ends d0.Counts Decoding.Underrun := by
  induction n generalizing d with
  | zero => exact h
  | succ n ih =>
    exact Decoding.readData_ends h.1 ⟨h.1, rfl, .inr rfl⟩ fun v d' hd => ih _ (Decoding.emit_counts v (hd.counts h))

/-- How one iteration can end (R169 to R171, R174). -/
theorem Decoding.iteration_ends (d : Decoding) (metaSrc dataSrc : Bytes) (h : d.Sound) :
    (d.iteration metaSrc dataSrc).Ends (fun d' => d'.Sound ∧ d'.rd.numRuns = d.rd.numRuns ∧ d'.rd.i = d.rd.i + 1#48)
      Decoding.Underrun := by
  have h0 : d.Counts d := ⟨h, rfl, rfl⟩
  unfold Decoding.iteration
  refine Progress.Ends.andThen (going := d.Counts)
    (Decoding.readMeta_ends h ⟨h, rfl, .inl rfl⟩ fun run d1 h1 => ?_) fun d' hd => ?_
  · have hs := h1.counts h0
    split
    · exact Decoding.readMeta_ends hs.1 ⟨hs.1, rfl, .inl rfl⟩ fun v d2 h2 => Decoding.literals_ends dataSrc _ _ (h2.counts hs)
    · exact Decoding.readData_ends hs.1 ⟨hs.1, rfl, .inr rfl⟩ fun v d2 h2 => Decoding.emitTimes_counts v _ _ (h2.counts hs)
  · obtain ⟨hs, h1, h2⟩ := hd
    exact ⟨⟨hs.rmSt, hs.rmUsed, hs.rkSt, hs.rkUsed, hs.woSt, hs.woLow⟩, h1, congrArg (· + 1#48) h2⟩

theorem Decoding.iterations_ends (metaSrc dataSrc : Bytes) (n : Nat) (d : Decoding) (h : d.Sound) :
    (Decoding.iterations metaSrc dataSrc n d).Ends
      (fun d' => d'.Sound ∧ d'.rd.numRuns = d.rd.numRuns ∧ d'.rd.i = d.rd.i + BitVec.ofNat 48 n) Decoding.Underrun := by
  induction n generalizing d with
  | zero => exact ⟨h, rfl, by simp⟩
  | succ n ih =>
    refine (d.iteration_ends metaSrc dataSrc h).andThen fun d1 h1 => ?_
    refine (ih d1 h1.1).mono (fun d2 h2 => ⟨h2.1, h2.2.1.trans h1.2.1, ?_⟩) (fun _ _ _ h => h)
    rw [h2.2.2, h1.2.2]
    apply BitVec.eq_of_toNat_eq
    simp only [BitVec.toNat_add, BitVec.toNat_ofNat]
    omega

theorem Decoding.start_sound (rd : Decoder) : (Decoding.start rd).Sound :=
  ⟨rfl, by simp [Decoding.start, Reader.init], rfl, by simp [Decoding.start, Reader.init], rfl, Writer.init_lowZero⟩

/-- What holds while the headers are read: no output, the iteration count as before (R167). -/
abbrev Decoding.InHeader (rd : Decoder) (d : Decoding) : Prop := d.Sound ∧ d.out = [] ∧ d.rd.i = rd.i

theorem Decoding.Like.inHeader {rd : Decoder} {d d' : Decoding} (h : d.InHeader rd) (h' : d.Like d') : d'.InHeader rd :=
  ⟨h'.sound, h'.out.trans h.2.1, h'.i.trans h.2.2⟩

/-- How the header reads can end (R167, R174). -/
theorem Decoding.readHeaders_ends (rd : Decoder) (metaSrc dataSrc : Bytes) :
    ((Decoding.start rd).readHeaders metaSrc dataSrc).Ends (Decoding.InHeader rd)
      (fun d code aux => d.InHeader rd ∧ code = .sourceUnderrun ∧ (aux = 0#64 ∨ aux = 1#64)) := by
  have h0 : (Decoding.start rd).InHeader rd := ⟨Decoding.start_sound rd, rfl, rfl⟩
  have header : ∀ {d : Decoding}, d.InHeader rd → ∀ (np : Byte) (numRuns : BitVec 48) (runWidth keyWidth : Byte),
      Decoding.InHeader rd { d with rd := { d.rd with
        np := np, numRuns := numRuns, runWidth := runWidth, keyWidth := keyWidth } } :=
    fun h _ _ _ _ => ⟨⟨h.1.rmSt, h.1.rmUsed, h.1.rkSt, h.1.rkUsed, h.1.woSt, h.1.woLow⟩, h.2⟩
  unfold Decoding.readHeaders
  refine Decoding.readMeta_ends h0.1 ⟨h0, rfl, .inl rfl⟩ fun v1 d1 k1 => ?_
  have h1 := header (k1.inHeader h0) (v1.setWidth 8) d1.rd.numRuns d1.rd.runWidth d1.rd.keyWidth
  refine Decoding.readMeta_ends h1.1 ⟨h1, rfl, .inl rfl⟩ fun v2 d2 k2 => ?_
  have h2 := header (k2.inHeader h1) d2.rd.np (v2.setWidth 48) d2.rd.runWidth d2.rd.keyWidth
  refine Decoding.readMeta_ends h2.1 ⟨h2, rfl, .inl rfl⟩ fun v3 d3 k3 => ?_
  have h3 := header (k3.inHeader h2) d3.rd.np d3.rd.numRuns (v3.setWidth 8) d3.rd.keyWidth
  refine Decoding.readData_ends h3.1 ⟨h3, rfl, .inr rfl⟩ fun v4 d4 k4 => ?_
  exact header (k4.inHeader h3) d4.rd.np d4.rd.numRuns d4.rd.runWidth (v4.setWidth 8)

/-- How a decode can end (R166 to R174): completed, an underrun that names a source, or a bad header with no output. -/
theorem Decoder.run_ends (rd : Decoder) (metaSrc dataSrc : Bytes) :
    (rd.run metaSrc dataSrc).Ends
      (fun d => d.rd.rm.Inv ∧ d.rd.rk.Inv ∧ d.rd.wo = ⟨.closed, 0#8, 0#3⟩ ∧ d.rd.i = d.rd.numRuns)
      (fun d code aux => d.Sound ∧ ((code = .sourceUnderrun ∧ (aux = 0#64 ∨ aux = 1#64)) ∨ (code = .badHeader ∧ d.out = []))) := by
  unfold Decoder.run
  refine Progress.Ends.andThen (going := Decoding.Sound) (Progress.Ends.andThen (going := Decoding.InHeader rd)
    ((Decoding.readHeaders_ends rd metaSrc dataSrc).mono (fun _ h => h) (fun _ _ _ h => ⟨h.1.1, .inl h.2⟩)) fun d h => ?_)
    fun d h => ?_
  · unfold Decoding.checkHeaders
    split
    · exact h.1
    · exact ⟨h.1, .inr ⟨rfl, h.2.1⟩⟩
  · have hs : Decoding.Sound { d with rd := { d.rd with i := 0#48 } } :=
      ⟨h.rmSt, h.rmUsed, h.rkSt, h.rkUsed, h.woSt, h.woLow⟩
    refine Progress.Ends.andThen ((Decoding.iterations_ends metaSrc dataSrc d.rd.numRuns.toNat _ hs).mono (fun _ h => h)
      (fun _ _ _ h => ⟨h.1, .inl h.2⟩)) fun d' h' => ?_
    refine ⟨⟨?_, h'.1.rmUsed⟩, ⟨?_, h'.1.rkUsed⟩, ?_, ?_⟩
    · show d'.rd.rm.st ≠ _
      rw [h'.1.rmSt]
      decide
    · show d'.rd.rk.st ≠ _
      rw [h'.1.rkSt]
      decide
    · unfold Decoding.finish
      simp only [Writer.close_record]
    · show d'.rd.i = d'.rd.numRuns
      rw [h'.2.2, h'.2.1]
      simp

end Sys2Proof.Machine
end

