-- ==== Sys2Proof/Laws/Extractor.lean ====
section
/-! SUPPORT. The padded stream and the groups an extractor record takes from it, in bits (R6, R92 to R97). -/

namespace Sys2Proof.Machine

/-! ### The two justifications (R6) -/

theorem leftJustify_getLsbD (w : Nat) (v : Word) (hw : w ≤ 64) (j : Nat) (hj : j < w) :
    (leftJustify w v).getLsbD (63 - j) = v.getLsbD (w - 1 - j) := by
  unfold leftJustify
  rw [BitVec.getLsbD_shiftLeft]
  have h1 : ¬ 63 - j < 64 - w := by omega
  have h2 : 63 - j - (64 - w) = w - 1 - j := by omega
  simp [h1, h2]; omega

theorem leftJustify_low (w : Nat) (v : Word) (k : Nat) (hk : k < 64 - w) : (leftJustify w v).getLsbD k = false := by
  unfold leftJustify
  rw [BitVec.getLsbD_shiftLeft]
  simp [hk]

/-- Right-justifying a left-justified group gives the group back. -/
theorem rightJustify_leftJustify (w : Nat) (v : Word) (hw : w ≤ 64) (hv : v.toNat < 2 ^ w) :
    rightJustify w (leftJustify w v) = v := by
  apply BitVec.eq_of_getLsbD_eq
  intro i hi
  unfold rightJustify leftJustify
  rw [BitVec.getLsbD_ushiftRight, BitVec.getLsbD_shiftLeft]
  by_cases h : i < w
  · have h1 : ¬ 64 - w + i < 64 - w := by omega
    have h2 : 64 - w + i - (64 - w) = i := by omega
    have h3 : 64 - w + i < 64 := by omega
    simp [h1, h2, h3]
  · have h1 : ¬ 64 - w + i < 64 := by omega
    have h2 : v.getLsbD i = false := by
      unfold BitVec.getLsbD
      exact Nat.testBit_lt_two_pow (lt_of_lt_of_le hv (Nat.pow_le_pow_right (by norm_num) (by omega)))
    simp [h1, h2]

theorem ofBits_toNat_lt (l : List Bool) (h : l.length ≤ 64) : (ofBits l).toNat < 2 ^ l.length := by
  have h1 : ofBits l = lowBits l.length (ofBits l) := by
    rw [← ofBits_field, field_ofBits l h]
  rw [h1]
  exact lowBits_toNat_lt _ _

/-! ### Groups -/

/-- A group's bits are the stream bits at the cursor, the first most significant; below them it is zero (R94). -/
theorem Extractor.group_bit (x : Extractor) (bit : Nat → Bool) (hw : WidthOk x.step.toNat) (j : Nat)
    (hj : j < x.step.toNat) : (x.group bit).getLsbD (63 - j) = bit j := by
  unfold Extractor.group
  rw [leftJustify_getLsbD _ _ hw.2 _ hj, ofBits_getLsbD, List.getD_eq_getElem?_getD,
    List.getElem?_reverse (by simp; omega)]
  have h1 := hw.2
  have h2 : x.step.toNat - 1 - (x.step.toNat - 1 - j) = j := by omega
  simp [h2, hj, show x.step.toNat - 1 - j < 64 by omega]

theorem Extractor.group_low (x : Extractor) (bit : Nat → Bool) (k : Nat) (hk : k < 64 - x.step.toNat) :
    (x.group bit).getLsbD k = false := leftJustify_low _ _ _ hk

/-- A group right-justified is the number whose bits it took. -/
theorem Extractor.rightJustify_group (x : Extractor) (bit : Nat → Bool) (hw : WidthOk x.step.toNat) :
    rightJustify x.step.toNat (x.group bit) = ofBits ((List.range x.step.toNat).map bit) := by
  unfold Extractor.group
  apply rightJustify_leftJustify _ _ hw.2
  have := ofBits_toNat_lt ((List.range x.step.toNat).map bit) (by simpa using hw.2)
  simpa using this

/-- The group depends on the stream bits alone. -/
theorem Extractor.group_congr (x : Extractor) {bit bit' : Nat → Bool} (h : ∀ j < x.step.toNat, bit j = bit' j) :
    x.group bit = x.group bit' := by
  unfold Extractor.group
  congr 2
  apply List.map_congr_left
  intro j hj
  exact h j (List.mem_range.mp hj)

/-- The cursor after a group, as a number (R94). -/
theorem Extractor.moved_cur (x : Extractor) (h : x.cur.toNat + x.step.toNat < 2 ^ 64) :
    x.moved.cur.toNat = x.cur.toNat + x.step.toNat := by
  unfold Extractor.moved
  have : x.step.toNat < 2 ^ 7 := x.step.isLt
  simp only [BitVec.toNat_add, BitVec.truncate_eq_setWidth, BitVec.toNat_setWidth]
  omega

theorem Extractor.hasNext_iff (x : Extractor) : x.hasNext = true ↔ x.cur.toNat < 8 * x.size.toNat := by
  simp [Extractor.hasNext]

theorem Extractor.init_step (w : Nat) (n : Word) (h : WidthOk w) : (Extractor.init w n).step.toNat = w := by
  simp [Extractor.init]; omega

/-! ### The padded stream (R92) -/

/-- The padded stream of a buffer that is at least as long as the size: the bits of its first bytes, then zeros. -/
theorem bufBit?_eq (mem : Bytes) (size i : Nat) (h : size ≤ mem.length) :
    bufBit? mem size i = some ((bitsOf (mem.take size)).getD i false) := by
  unfold bufBit?
  by_cases hi : i < 8 * size
  · rw [if_pos (.inl hi), bitsOf_take, List.getD_eq_getElem?_getD, List.getElem?_take, if_pos hi, bitsOf_getElem?, streamBit?]
    have : i / 8 < mem.length := by omega
    simp [List.getElem?_eq_getElem this]
  · rw [if_neg (by omega), List.getD_eq_getElem?_getD, List.getElem?_eq_none (by simp; omega)]
    rfl

/-- Below the size, and everywhere in a memory shorter than it, the stream is that of the memory, absent beyond its end (R92, U5). -/
theorem bufBit?_inside (mem : Bytes) (size i : Nat) (hi : i < 8 * size ∨ mem.length < size) :
    bufBit? mem size i = (bitsOf mem)[i]? := by
  rw [bufBit?, if_pos hi, bitsOf_getElem?]

end Sys2Proof.Machine
end

