-- ==== Sys2Proof/Laws/Packer.lean ====
section
/-! SUPPORT. What pushing does to a packer record, in bits: the pushed field is appended to the sink's bits and the pending ones
(R108 to R111). -/

namespace Sys2Proof.Machine

/-- The packer's accumulator holds zero bits below the valid ones (R15). -/
abbrev Packer.LowZero (p : Packer) : Prop := ∀ k < 64 - p.fill.toNat, p.acc.getLsbD k = false

theorem Packer.fill_lt (p : Packer) : p.fill.toNat < 64 := p.fill.isLt

@[simp] theorem Packer.pendingBits_length (p : Packer) : p.pendingBits.length = p.fill.toNat := by simp [Packer.pendingBits]

theorem Packer.pendingBits_getElem? (p : Packer) (k : Nat) :
    p.pendingBits[k]? = if k < p.fill.toNat then some (p.acc.getLsbD (63 - k)) else none := by
  unfold Packer.pendingBits
  by_cases h : k < p.fill.toNat <;> simp [h]

/-- The bit of the accumulator with a field put right behind its valid bits. -/
theorem Packer.appended_getElem? (p : Packer) (w : Nat) (v : Word) (k : Nat) :
    (p.pendingBits ++ field w v)[k]? =
      if k < p.fill.toNat then some (p.acc.getLsbD (63 - k))
      else if k < p.fill.toNat + w then some (v.getLsbD (p.fill.toNat + w - 1 - k)) else none := by
  by_cases h : k < p.fill.toNat
  · rw [List.getElem?_append_left (by simpa using h), p.pendingBits_getElem?, if_pos h]
    simp [h]
  · rw [List.getElem?_append_right (by simpa using h), field_getElem?]
    simp only [Packer.pendingBits_length, h, if_false]
    by_cases h2 : k < p.fill.toNat + w
    · rw [if_pos (by omega), if_pos h2]
      congr 2; omega
    · rw [if_neg (by omega), if_neg h2]

/-- One pushed value: everything it does. -/
theorem Packer.push_spec (p : Packer) (v : Word) (hw : WidthOk p.width.toNat) (h : p.LowZero) :
    (p.push v).1.st = p.st ∧ (p.push v).1.width = p.width ∧ (p.push v).1.LowZero ∧
      (p.push v).1.fill.toNat = (p.fill.toNat + p.width.toNat) % 64 ∧
      (p.push v).2.length = 8 * ((p.fill.toNat + p.width.toNat) / 64) ∧
      bitsOf (p.push v).2 ++ (p.push v).1.pendingBits = p.pendingBits ++ field p.width.toNat v := by
  have hF := p.fill_lt
  obtain ⟨hw1, hw2⟩ := hw
  by_cases ht : p.fill.toNat + p.width.toNat < 64
  · have hfill : (BitVec.ofNat 6 (p.fill.toNat + p.width.toNat)).toNat = p.fill.toNat + p.width.toNat := by
      rw [BitVec.toNat_ofNat]; exact Nat.mod_eq_of_lt ht
    have hacc : ∀ i < 64, (p.acc ||| (lowBits p.width.toNat v <<< (64 - (p.fill.toNat + p.width.toNat)))).getLsbD i =
        (p.acc.getLsbD i || (decide (64 - (p.fill.toNat + p.width.toNat) ≤ i) &&
          (decide (i - (64 - (p.fill.toNat + p.width.toNat)) < p.width.toNat) &&
            v.getLsbD (i - (64 - (p.fill.toNat + p.width.toNat)))))) := by
      intro i hi
      rw [BitVec.getLsbD_or, BitVec.getLsbD_shiftLeft, lowBits_getLsbD]
      by_cases hle : 64 - (p.fill.toNat + p.width.toNat) ≤ i
      · have : ¬ i < 64 - (p.fill.toNat + p.width.toNat) := by omega
        simp only [hi, hle, this, decide_true, decide_false, Bool.not_false, Bool.true_and]
      · have : i < 64 - (p.fill.toNat + p.width.toNat) := by omega
        simp [hle, this]
    simp only [Packer.push, ht, if_true]
    refine ⟨trivial, trivial, ?_, by rw [hfill, Nat.mod_eq_of_lt ht], by simp; omega, ?_⟩
    · intro k hk
      simp only [hfill] at hk
      rw [hacc k (by omega), h k (by omega)]
      simp; omega
    · rw [bitsOf_nil, List.nil_append]
      apply List.ext_getElem?
      intro k
      rw [Packer.pendingBits_getElem?, Packer.appended_getElem?]
      simp only [hfill]
      by_cases h1 : k < p.fill.toNat
      · rw [if_pos (by omega), if_pos h1, hacc _ (by omega)]
        have : ¬ (63 - k - (64 - (p.fill.toNat + p.width.toNat)) < p.width.toNat) := by omega
        simp [this]
      · by_cases h2 : k < p.fill.toNat + p.width.toNat
        · rw [if_pos h2, if_neg h1, if_pos h2, hacc _ (by omega), h _ (by omega)]
          have e : 63 - k - (64 - (p.fill.toNat + p.width.toNat)) = p.fill.toNat + p.width.toNat - 1 - k := by omega
          have h3 : 64 - (p.fill.toNat + p.width.toNat) ≤ 63 - k := by omega
          have h4 : p.fill.toNat + p.width.toNat - 1 - k < p.width.toNat := by omega
          simp [e, h3, h4]
        · simp [h1, h2]
  · have hsp : (BitVec.ofNat 6 (p.fill.toNat + p.width.toNat - 64)).toNat = p.fill.toNat + p.width.toNat - 64 := by
      rw [BitVec.toNat_ofNat]; exact Nat.mod_eq_of_lt (by omega)
    have hword : ∀ i < 64, (p.acc ||| (lowBits p.width.toNat v >>> (p.fill.toNat + p.width.toNat - 64))).getLsbD i =
        (p.acc.getLsbD i || (decide (p.fill.toNat + p.width.toNat - 64 + i < p.width.toNat) &&
          v.getLsbD (p.fill.toNat + p.width.toNat - 64 + i))) := by
      intro i _
      rw [BitVec.getLsbD_or, BitVec.getLsbD_ushiftRight, lowBits_getLsbD]
    have hrest : ∀ i < 64, (if p.fill.toNat + p.width.toNat - 64 = 0 then 0#64
        else lowBits p.width.toNat v <<< (64 - (p.fill.toNat + p.width.toNat - 64))).getLsbD i =
        (decide (64 - (p.fill.toNat + p.width.toNat - 64) ≤ i) &&
          (decide (i - (64 - (p.fill.toNat + p.width.toNat - 64)) < p.width.toNat) &&
            v.getLsbD (i - (64 - (p.fill.toNat + p.width.toNat - 64))))) := by
      intro i hi
      by_cases h0 : p.fill.toNat + p.width.toNat - 64 = 0
      · have : ¬ 64 ≤ i := by omega
        simp [h0, this]
      · rw [if_neg h0, BitVec.getLsbD_shiftLeft, lowBits_getLsbD]
        by_cases hle : 64 - (p.fill.toNat + p.width.toNat - 64) ≤ i
        · have : ¬ i < 64 - (p.fill.toNat + p.width.toNat - 64) := by omega
          simp only [hi, hle, this, decide_true, decide_false, Bool.not_false, Bool.true_and]
        · have : i < 64 - (p.fill.toNat + p.width.toNat - 64) := by omega
          simp [hle, this]
    simp only [Packer.push, ht, if_false]
    refine ⟨trivial, trivial, ?_, by rw [hsp]; omega, by simp; omega, ?_⟩
    · intro k hk
      simp only [hsp] at hk
      rw [hrest k (by omega)]
      simp; omega
    · rw [bitsOf_wordBytes]
      apply List.ext_getElem?
      intro k
      rw [Packer.appended_getElem?]
      by_cases h1 : k < 64
      · rw [List.getElem?_append_left (by simpa using h1), field_getElem?, if_pos h1,
          show 64 - 1 - k = 63 - k by omega, hword _ (by omega)]
        by_cases h2 : k < p.fill.toNat
        · rw [if_pos h2]
          have : ¬ (p.fill.toNat + p.width.toNat - 64 + (63 - k) < p.width.toNat) := by omega
          simp [this]
        · rw [if_neg h2, if_pos (by omega), h _ (by omega)]
          have e : p.fill.toNat + p.width.toNat - 64 + (63 - k) = p.fill.toNat + p.width.toNat - 1 - k := by omega
          have h4 : p.fill.toNat + p.width.toNat - 1 - k < p.width.toNat := by omega
          simp [e, h4]
      · rw [List.getElem?_append_right (by simpa using h1), Packer.pendingBits_getElem?]
        simp only [field_length, hsp]
        rw [if_neg (show ¬ k < p.fill.toNat by omega)]
        by_cases h2 : k < p.fill.toNat + p.width.toNat
        · rw [if_pos (by omega), if_pos h2, hrest _ (by omega)]
          have e : 63 - (k - 64) - (64 - (p.fill.toNat + p.width.toNat - 64)) = p.fill.toNat + p.width.toNat - 1 - k := by
            omega
          have h3 : 64 - (p.fill.toNat + p.width.toNat - 64) ≤ 63 - (k - 64) := by omega
          have h4 : p.fill.toNat + p.width.toNat - 1 - k < p.width.toNat := by omega
          simp [e, h3, h4]
        · rw [if_neg (by omega), if_neg h2]

/-- Closing appends the pending bits, completed with zeros to a byte (R109). -/
theorem Packer.close_bytes (p : Packer) (h : p.LowZero) : p.close.2 = packBits p.pendingBits := by
  have hF := p.fill_lt
  unfold Packer.close
  apply bitsOf_injective
  rw [bitsOf_take, bitsOf_wordBytes, bitsOf_packBits]
  apply List.ext_getElem?
  intro k
  rw [List.getElem?_take, field_getElem?]
  by_cases hk : k < 8 * ((p.fill.toNat + 7) / 8)
  · rw [if_pos hk, if_pos (by omega), show 64 - 1 - k = 63 - k by omega]
    by_cases h1 : k < p.fill.toNat
    · rw [List.getElem?_append_left (by simpa using h1), p.pendingBits_getElem?, if_pos h1]
    · rw [List.getElem?_append_right (by simpa using h1), List.getElem?_replicate, if_pos (by simp; omega),
        h _ (by omega)]
  · rw [if_neg hk, List.getElem?_eq_none]
    simp; omega

theorem Packer.close_record (p : Packer) : p.close.1 = { p with st := .closed, acc := 0#64, fill := 0#6 } := rfl

theorem Packer.init_lowZero (w : Nat) : (Packer.init w).LowZero := by intro k _; simp [Packer.init]

@[simp] theorem Packer.init_pendingBits (w : Nat) : (Packer.init w).pendingBits = [] := rfl

theorem Packer.init_width (w : Nat) (h : WidthOk w) : (Packer.init w).width.toNat = w := by
  simp [Packer.init]; omega

end Sys2Proof.Machine
end

