-- ==== Sys2Proof/Laws/Encoder.lean ====
section
/-! SUPPORT. What the encoder does with a buffer: the keys of the buffer cut into maximal runs, and the Fragment of those runs (R141 to
R156). -/

namespace Sys2Proof.Machine

/-! ### Runs -/

@[simp] theorem groupCount_zero (w : Nat) (hw : 1 ≤ w) : groupCount 0 w = 0 := by
  unfold groupCount
  exact Nat.div_eq_of_lt (by omega)

/-- One group more is taken exactly while a bit of the buffer is left (R96). -/
theorem lt_groupCount_iff (n w g : Nat) (hw : 1 ≤ w) : g < groupCount n w ↔ g * w < 8 * n := by
  unfold groupCount
  rw [Nat.lt_div_iff_mul_lt (by omega)]
  omega

theorem groupCount_le (n w : Nat) (hw : 1 ≤ w) : groupCount n w ≤ 8 * n := by
  rcases Nat.eq_zero_or_pos (groupCount n w) with h | h
  · omega
  · have := (lt_groupCount_iff n w (groupCount n w - 1) hw).mp (by omega)
    have := Nat.le_mul_of_pos_right (groupCount n w - 1) hw
    omega

@[simp] theorem keysOf_length (w : Nat) (buf : Bytes) : (keysOf w buf).length = groupCount buf.length w := by simp [keysOf]

theorem keysOf_getElem (w : Nat) (buf : Bytes) (g : Nat) (h : g < (keysOf w buf).length) :
    (keysOf w buf)[g] = ofBits ((List.range w).map fun j => (bitsOf buf).getD (g * w + j) false) := by
  simp [keysOf]

theorem keysOf_lt (w : Nat) (hw : w ≤ 64) (buf : Bytes) (g : Nat) (h : g < (keysOf w buf).length) :
    (keysOf w buf)[g].toNat < 2 ^ w := by
  rw [keysOf_getElem]
  have := ofBits_toNat_lt ((List.range w).map fun j => (bitsOf buf).getD (g * w + j) false) (by simpa using hw)
  simpa using this

theorem expandRuns_concat (keys counts : List Word) (k c : Word) (h : keys.length = counts.length) :
    expandRuns (keys ++ [k]) (counts ++ [c]) = expandRuns keys counts ++ List.replicate c.toNat k := by
  unfold expandRuns
  rw [List.zip_append h, List.flatMap_append]
  simp

theorem neighboursDiffer_concat (l : List Word) (a b : Word) (h : NeighboursDiffer (l ++ [a])) (hab : a ≠ b) :
    NeighboursDiffer (l ++ [a, b]) := by
  induction l with
  | nil => exact ⟨hab, trivial⟩
  | cons x l ih =>
    cases l with
    | nil => exact ⟨h.1, ih h.2⟩
    | cons y l => exact ⟨h.1, ih h.2⟩

theorem neighboursDiffer_init (l : List Word) (a : Word) (h : NeighboursDiffer (l ++ [a])) : NeighboursDiffer l := by
  induction l with
  | nil => trivial
  | cons x l ih =>
    cases l with
    | nil => trivial
    | cons y l => exact ⟨h.1, ih h.2⟩

theorem foldl_max_concat (l : List Nat) (n : Nat) : (l ++ [n]).foldl max 0 = max (l.foldl max 0) n := by
  simp [List.foldl_append]

theorem le_foldl_max (l : List Nat) (a n : Nat) (h : n ∈ l ∨ n ≤ a) : n ≤ l.foldl max a := by
  induction l generalizing a with
  | nil => simpa using h
  | cons x l ih =>
    apply ih
    rcases h with h | h
    · rcases List.mem_cons.mp h with rfl | h
      · exact .inr (Nat.le_max_right _ _)
      · exact .inl h
    · exact .inr (h.trans (Nat.le_max_left _ _))

theorem foldl_max_le (l : List Nat) (a b : Nat) (ha : a ≤ b) (h : ∀ x ∈ l, x ≤ b) : l.foldl max a ≤ b := by
  induction l generalizing a with
  | nil => exact ha
  | cons x l ih =>
    apply ih
    · exact Nat.max_le.mpr ⟨ha, h x (by simp)⟩
    · intro y hy; exact h y (by simp [hy])

theorem expandRuns_length (keys counts : List Word) (h : keys.length = counts.length) :
    (expandRuns keys counts).length = (counts.map BitVec.toNat).sum := by
  induction keys generalizing counts with
  | nil => cases counts <;> simp_all [expandRuns]
  | cons k keys ih =>
    cases counts with
    | nil => simp at h
    | cons c counts =>
      have := ih counts (by simpa using h)
      simp only [expandRuns, List.zip_cons_cons, List.flatMap_cons, List.length_append, List.length_replicate,
        List.map_cons, List.sum_cons] at this ⊢
      omega

/-! ### The run width (R149) -/

theorem takeWhile_length_spec (p : Nat → Bool) (n : Nat) :
    (∀ k < ((List.range n).takeWhile p).length, p k = true) ∧
      (((List.range n).takeWhile p).length < n → p ((List.range n).takeWhile p).length = false) := by
  induction n with
  | zero => simp
  | succ n ih =>
    rw [List.range_succ]
    by_cases hall : ∀ x ∈ List.range n, p x = true
    · rw [List.takeWhile_append_of_pos hall]
      cases hp : p n with
      | true =>
        simp only [hp, List.takeWhile_cons, List.takeWhile_nil, if_true, List.length_append, List.length_range, List.length_cons,
          List.length_nil]
        refine ⟨fun k hk => ?_, by omega⟩
        by_cases hkn : k = n
        · exact hkn ▸ hp
        · exact hall k (by simp; omega)
      | false =>
        simp only [hp, List.takeWhile_cons, Bool.false_eq_true, if_false, List.append_nil, List.length_range]
        exact ⟨fun k hk => hall k (by simpa using hk), fun _ => trivial⟩
    · have hlt : ((List.range n).takeWhile p).length < n := by
        have hle := (List.takeWhile_sublist (l := List.range n) p).length_le
        rw [List.length_range] at hle
        rcases Nat.lt_or_eq_of_le hle with h | h
        · exact h
        · exfalso
          apply hall
          intro x hx
          exact ih.1 x (by rw [h]; simpa using hx)
      have heq : (List.range n ++ [n]).takeWhile p = (List.range n).takeWhile p := by
        rw [List.takeWhile_append]
        rw [if_neg (by rw [List.length_range]; omega)]
      rw [heq]
      exact ⟨ih.1, fun _ => ih.2 hlt⟩

theorem clz64_le (v : Word) : clz64 v ≤ 64 := by
  unfold clz64
  have := (List.takeWhile_sublist (l := List.range 64) fun k => !v.getLsbD (63 - k)).length_le
  simpa using this

/-- The value fits the width that its leading zeros leave. -/
theorem lt_two_pow_clz64 (v : Word) : v.toNat < 2 ^ (64 - clz64 v) := by
  have h := (takeWhile_length_spec (fun k => !v.getLsbD (63 - k)) 64).1
  apply Nat.lt_pow_two_of_testBit
  intro i hi
  by_cases h64 : i < 64
  · have hk : 63 - i < clz64 v := by omega
    have := h (63 - i) hk
    rw [show 63 - (63 - i) = i by omega] at this
    simpa [BitVec.getLsbD] using this
  · exact Nat.testBit_lt_two_pow (lt_of_lt_of_le v.isLt (Nat.pow_le_pow_right (by norm_num) (by omega)))

/-- It fits no smaller one. -/
theorem clz64_least (v : Word) (w : Nat) (h : v.toNat < 2 ^ w) : 64 - clz64 v ≤ w := by
  by_contra hlt
  have hc : clz64 v < 64 := by omega
  have h2 := (takeWhile_length_spec (fun k => !v.getLsbD (63 - k)) 64).2 hc
  have h3 : v.getLsbD (63 - clz64 v) = true := by simpa [clz64] using h2
  have h4 : v.getLsbD (63 - clz64 v) = false := by
    unfold BitVec.getLsbD
    exact Nat.testBit_lt_two_pow (lt_of_lt_of_le h (Nat.pow_le_pow_right (by norm_num) (by omega)))
  rw [h3] at h4
  exact absurd h4 (by decide)

theorem runWidthOf_spec (m : Word) :
    WidthOk (runWidthOf m) ∧ m.toNat < 2 ^ runWidthOf m ∧ ∀ w, 1 ≤ w → m.toNat < 2 ^ w → runWidthOf m ≤ w := by
  unfold runWidthOf
  refine ⟨⟨Nat.le_max_left _ _, Nat.max_le.mpr ⟨by norm_num, Nat.sub_le _ _⟩⟩, ?_, ?_⟩
  · exact lt_of_lt_of_le (lt_two_pow_clz64 m) (Nat.pow_le_pow_right (by norm_num) (Nat.le_max_right _ _))
  · intro w h1 h2
    exact Nat.max_le.mpr ⟨h1, clz64_least m w h2⟩

/-! ### The key loop -/

/-- What holds of the encoder after `g` keys of `buf`, when its data sink has received `out` after the header byte: the runs emitted so
far, and the pending one. -/
structure Encoder.After (kw : Nat) (buf : Bytes) (g : Nat) (e : Encoder) (out : Bytes) (keys : List Word) (last : Word) : Prop where
  keyWidth : e.keyWidth.toNat = kw
  step : e.it.step.toNat = kw
  size : e.it.size.toNat = buf.length
  cur : e.it.cur.toNat = g * kw
  pkSt : e.pk.st = .ready
  pkWidth : e.pk.width.toNat = kw
  pkLow : e.pk.LowZero
  lengths : keys.length = e.rcs.length
  bits : bitsOf out ++ e.pk.pendingBits = keys.flatMap (field kw)
  have_iff : e.haveRun = decide (g ≠ 0)
  none : g = 0 → keys = []
  last_eq : g ≠ 0 → e.last = leftJustify kw last
  last_lt : last.toNat < 2 ^ kw
  count_pos : g ≠ 0 → e.count ≠ 0#64
  count_le : e.count.toNat ≤ g
  expand : expandRuns keys e.rcs ++ (if g = 0 then [] else List.replicate e.count.toNat last) = (keysOf kw buf).take g
  differ : NeighboursDiffer (keys ++ if g = 0 then [] else [last])
  nonzero : ∀ c ∈ e.rcs, c ≠ 0#64
  maxCount : e.maxCount.toNat = (e.rcs.map BitVec.toNat).foldl max 0

/-- The key that the next turn of the loop takes (R97, R141). -/
theorem Encoder.After.key {kw : Nat} {buf : Bytes} {g : Nat} {e : Encoder} {out : Bytes} {keys : List Word} {last : Word}
    (h : Encoder.After kw buf g e out keys last) (hg : g < (keysOf kw buf).length) :
    e.it.group (e.keyBit buf) = leftJustify kw (keysOf kw buf)[g] := by
  unfold Extractor.group
  rw [h.step, keysOf_getElem]
  congr 2
  apply List.map_congr_left
  intro j _
  unfold Encoder.keyBit
  rw [h.size, h.cur, bufBit?_eq _ _ _ (Nat.le_refl _), List.take_length]
  rfl

/-- What emitting the pending run does to the packer and the sink (R147). -/
theorem Encoder.After.emit {kw : Nat} {buf : Bytes} {g : Nat} {e : Encoder} {out : Bytes} {keys : List Word} {last : Word}
    (hw : WidthOk kw) (h : Encoder.After kw buf g e out keys last) (hg : g ≠ 0) :
    e.emitRun.1.pk.st = .ready ∧ e.emitRun.1.pk.width.toNat = kw ∧ e.emitRun.1.pk.LowZero ∧
      bitsOf (out ++ e.emitRun.2) ++ e.emitRun.1.pk.pendingBits = (keys ++ [last]).flatMap (field kw) ∧
      e.emitRun.1.rcs = e.rcs ++ [e.count] ∧
      e.emitRun.1.maxCount.toNat = ((e.rcs ++ [e.count]).map BitVec.toNat).foldl max 0 ∧
      expandRuns (keys ++ [last]) (e.rcs ++ [e.count]) = (keysOf kw buf).take g ∧
      (∀ c ∈ e.rcs ++ [e.count], c ≠ 0#64) ∧ NeighboursDiffer (keys ++ [last]) := by
  obtain ⟨p1, p2, p3, -, -, p6⟩ := e.pk.push_spec (rightJustify e.keyWidth.toNat e.last) (by rw [h.pkWidth]; exact hw) h.pkLow
  have hk : rightJustify e.keyWidth.toNat e.last = last := by
    rw [h.keyWidth, h.last_eq hg, rightJustify_leftJustify _ _ hw.2 h.last_lt]
  refine ⟨p1.trans h.pkSt, (congrArg BitVec.toNat p2).trans h.pkWidth, p3, ?_, rfl, ?_, ?_, ?_, ?_⟩
  · rw [hk, h.pkWidth] at p6
    simp only [Encoder.emitRun, hk, bitsOf_append, List.append_assoc, p6, List.flatMap_append, ← h.bits]
    simp
  · rw [List.map_append, List.map_cons, List.map_nil, foldl_max_concat, ← h.maxCount]
    simp only [Encoder.emitRun]
    by_cases hlt : e.maxCount < e.count
    · rw [if_pos hlt]
      have : e.maxCount.toNat < e.count.toNat := hlt
      omega
    · rw [if_neg hlt]
      have : ¬ e.maxCount.toNat < e.count.toNat := hlt
      omega
  · rw [expandRuns_concat _ _ _ _ h.lengths, ← h.expand, if_neg hg]
  · intro c hc
    rcases List.mem_append.mp hc with hc | hc
    · exact h.nonzero c hc
    · rw [List.mem_singleton] at hc
      exact hc ▸ h.count_pos hg
  · have := h.differ
    rwa [if_neg hg] at this

/-- One turn of the key loop (R141): everything it does. -/
theorem Encoder.After.turn {kw : Nat} {buf : Bytes} {g : Nat} {e : Encoder} {out : Bytes} {keys : List Word} {last : Word}
    (hw : WidthOk kw) (hb : buf.length ≤ 2 ^ 45 - 1) (h : Encoder.After kw buf g e out keys last)
    (hg : g < groupCount buf.length kw) :
    ∃ keys' last', Encoder.After kw buf (g + 1) (e.turn buf).1 (out ++ (e.turn buf).2) keys' last' := by
  have hlen : g < (keysOf kw buf).length := by simpa using hg
  have hbits := (lt_groupCount_iff buf.length kw g hw.1).mp hg
  have hk := h.key hlen
  have hlt := keysOf_lt kw hw.2 buf g hlen
  have hw2 := hw.2
  have hgs : g < 2 ^ 48 := by
    have := groupCount_le buf.length kw hw.1
    omega
  have hcur : e.it.moved.cur.toNat = (g + 1) * kw := by
    rw [e.it.moved_cur (by rw [h.cur, h.step]; omega), h.cur, h.step, Nat.add_mul, Nat.one_mul]
  have htake : (keysOf kw buf).take (g + 1) = (keysOf kw buf).take g ++ [(keysOf kw buf)[g]] :=
    List.take_succ_eq_append_getElem hlen
  unfold Encoder.turn
  rw [hk]
  by_cases h0 : g = 0
  · have hh : e.haveRun = false := by rw [h.have_iff]; simp [h0]
    have hkeys := h.none h0
    have hrcs : e.rcs = [] := by
      have := h.lengths
      rw [hkeys] at this
      exact List.eq_nil_of_length_eq_zero this.symm
    refine ⟨[], (keysOf kw buf)[g], ?_⟩
    simp only [Encoder.onKey, hh, Bool.not_false, if_true, Encoder.firstKey, List.append_nil]
    exact {
      keyWidth := h.keyWidth
      step := h.step
      size := h.size
      cur := hcur
      pkSt := h.pkSt
      pkWidth := h.pkWidth
      pkLow := h.pkLow
      lengths := by simp [hrcs]
      bits := by have := h.bits; rwa [hkeys] at this
      have_iff := by simp
      none := fun _ => rfl
      last_eq := fun _ => rfl
      last_lt := hlt
      count_pos := fun _ => by simp
      count_le := by simp
      expand := by
        rw [htake, ← h.expand, hkeys]
        simp [h0, hrcs, expandRuns]
      differ := by simp [NeighboursDiffer]
      nonzero := h.nonzero
      maxCount := h.maxCount }
  · have hh : e.haveRun = true := by rw [h.have_iff]; simp [h0]
    by_cases hsame : leftJustify kw (keysOf kw buf)[g] = e.last
    · have hcnt : (e.count + 1#64).toNat = e.count.toNat + 1 := by
        have := h.count_le
        rw [BitVec.toNat_add]; simp; omega
      have hkl : (keysOf kw buf)[g] = last := by
        rw [h.last_eq h0] at hsame
        have := congrArg (rightJustify kw) hsame
        rwa [rightJustify_leftJustify _ _ hw.2 hlt, rightJustify_leftJustify _ _ hw.2 h.last_lt] at this
      refine ⟨keys, last, ?_⟩
      simp only [Encoder.onKey, hh, Bool.not_true, Bool.false_eq_true, if_false, hsame, if_true, Encoder.sameKey,
        List.append_nil]
      exact {
        keyWidth := h.keyWidth
        step := h.step
        size := h.size
        cur := hcur
        pkSt := h.pkSt
        pkWidth := h.pkWidth
        pkLow := h.pkLow
        lengths := h.lengths
        bits := h.bits
        have_iff := by simp
        none := fun h => absurd h (by omega)
        last_eq := fun _ => h.last_eq h0
        last_lt := h.last_lt
        count_pos := fun _ hz => by
          have := congrArg BitVec.toNat hz
          rw [hcnt] at this
          simp at this
        count_le := by have := h.count_le; simp only [hcnt]; omega
        expand := by
          have := h.expand
          rw [if_neg h0] at this
          rw [if_neg (by omega), htake, ← this, hkl]
          simp only [hcnt, List.replicate_succ', List.append_assoc]
        differ := by
          have := h.differ
          rw [if_neg h0] at this
          rwa [if_neg (by omega)]
        nonzero := h.nonzero
        maxCount := h.maxCount }
    · obtain ⟨q1, q2, q3, q4, q5, q6, q7, q8, q9⟩ := Encoder.After.emit hw h h0
      have hne : last ≠ (keysOf kw buf)[g] := by
        intro heq
        apply hsame
        rw [h.last_eq h0, heq]
      refine ⟨keys ++ [last], (keysOf kw buf)[g], ?_⟩
      simp only [Encoder.onKey, hh, Bool.not_true, Bool.false_eq_true, if_false, hsame, Encoder.otherKey]
      exact {
        keyWidth := h.keyWidth
        step := h.step
        size := h.size
        cur := hcur
        pkSt := q1
        pkWidth := q2
        pkLow := q3
        lengths := by
          have := h.lengths
          show (keys ++ [last]).length = (e.rcs ++ [e.count]).length
          simp [this]
        bits := q4
        have_iff := by
          show true = _
          simp
        none := fun h => absurd h (by omega)
        last_eq := fun _ => rfl
        last_lt := hlt
        count_pos := fun _ => by simp
        count_le := by simp
        expand := by
          show expandRuns (keys ++ [last]) (e.rcs ++ [e.count]) ++ _ = _
          rw [q7, htake, if_neg (by omega)]
          rfl
        differ := by
          rw [if_neg (by omega), List.append_assoc]
          exact neighboursDiffer_concat keys last _ q9 hne
        nonzero := q8
        maxCount := q6 }

/-- The key loop (R141): after it every key of the buffer has been taken. -/
theorem Encoder.After.loop {kw : Nat} {buf : Bytes} (hw : WidthOk kw) (hb : buf.length ≤ 2 ^ 45 - 1) (fuel : Nat) :
    ∀ {g : Nat} {e : Encoder} {out : Bytes} {keys : List Word} {last : Word}, Encoder.After kw buf g e out keys last →
      g ≤ groupCount buf.length kw → groupCount buf.length kw ≤ g + fuel →
      ∃ keys' last', Encoder.After kw buf (groupCount buf.length kw) (Encoder.loop buf fuel e).1
        (out ++ (Encoder.loop buf fuel e).2) keys' last' := by
  induction fuel with
  | zero =>
    intro g e out keys last h h1 h2
    have : g = groupCount buf.length kw := by omega
    subst this
    exact ⟨keys, last, by simpa [Encoder.loop] using h⟩
  | succ fuel ih =>
    intro g e out keys last h h1 h2
    have hn : e.it.hasNext = decide (g < groupCount buf.length kw) := by
      unfold Extractor.hasNext
      rw [h.cur, h.size]
      exact decide_eq_decide.mpr (lt_groupCount_iff buf.length kw g hw.1).symm
    unfold Encoder.loop
    rw [hn]
    by_cases hg : g < groupCount buf.length kw
    · obtain ⟨keys1, last1, h'⟩ := Encoder.After.turn hw hb h hg
      obtain ⟨keys2, last2, h''⟩ := ih h' (by omega) (by omega)
      refine ⟨keys2, last2, ?_⟩
      simp only [hg, decide_true, if_true]
      rw [← List.append_assoc]
      exact h''
    · have : g = groupCount buf.length kw := by omega
      subst this
      exact ⟨keys, last, by simpa using h⟩

/-- The encoder just started has taken no key (R142). -/
theorem Encoder.After.start (e : Encoder) {kw : Nat} (np : Nat) {buf : Bytes} (hw : WidthOk kw) (hb : buf.length ≤ 2 ^ 45 - 1) :
    Encoder.After kw buf 0 (e.start kw np buf.length).1 [] [] 0#64 where
  keyWidth := by have := hw.2; simp [Encoder.start]; omega
  step := Extractor.init_step kw _ hw
  size := by simp [Encoder.start, Extractor.init]; omega
  cur := by simp [Encoder.start, Extractor.init]
  pkSt := rfl
  pkWidth := Packer.init_width kw hw
  pkLow := Packer.init_lowZero kw
  lengths := rfl
  bits := rfl
  have_iff := rfl
  none := fun _ => rfl
  last_eq := fun h => absurd rfl h
  last_lt := by simp
  count_pos := fun h => absurd rfl h
  count_le := by simp [Encoder.start]
  expand := by simp [expandRuns]
  differ := trivial
  nonzero := by simp [Encoder.start]
  maxCount := by simp [Encoder.start]

/-- What the final flush leaves (R148): every run emitted. -/
theorem Encoder.After.flush {kw : Nat} {buf : Bytes} {g : Nat} {e : Encoder} {out : Bytes} {keys : List Word} {last : Word}
    (hw : WidthOk kw) (h : Encoder.After kw buf g e out keys last) :
    ∃ keys', e.flush.1.pk.st = .ready ∧ e.flush.1.pk.LowZero ∧
      bitsOf (out ++ e.flush.2) ++ e.flush.1.pk.pendingBits = keys'.flatMap (field kw) ∧
      keys'.length = e.flush.1.rcs.length ∧
      e.flush.1.maxCount.toNat = (e.flush.1.rcs.map BitVec.toNat).foldl max 0 ∧
      expandRuns keys' e.flush.1.rcs = (keysOf kw buf).take g ∧ (∀ c ∈ e.flush.1.rcs, c ≠ 0#64) ∧ NeighboursDiffer keys' ∧
      (∀ k ∈ keys', k ∈ keys ∨ k = last) := by
  unfold Encoder.flush
  by_cases h0 : g = 0
  · have hh : e.haveRun = false := by rw [h.have_iff]; simp [h0]
    rw [hh]
    refine ⟨keys, h.pkSt, h.pkLow, ?_, h.lengths, h.maxCount, ?_, h.nonzero, ?_, fun k hk => .inl hk⟩
    · simpa using h.bits
    · rw [← h.expand, if_pos h0]; simp
    · have := h.differ
      rwa [if_pos h0, List.append_nil] at this
  · have hh : e.haveRun = true := by rw [h.have_iff]; simp [h0]
    obtain ⟨q1, -, q3, q4, q5, q6, q7, q8, q9⟩ := Encoder.After.emit hw h h0
    rw [hh]
    simp only [if_true]
    refine ⟨keys ++ [last], q1, q3, q4, ?_, by rw [q5]; exact q6, by rw [q5]; exact q7, by rw [q5]; exact q8, q9, ?_⟩
    · rw [q5]; simp [h.lengths]
    · intro k hk
      rcases List.mem_append.mp hk with hk | hk
      · exact .inl hk
      · exact .inr (List.mem_singleton.mp hk)

/-! ### The whole algorithm -/

/-- The bits of a MetaRecord's fields (R72, R151). -/
theorem Encoder.metaFields_bits (e : Encoder) :
    (e.metaFields.flatMap fun f => field f.1 f.2) =
      metaBits e.np.toNat e.numRuns.toNat e.runWidth.toNat (e.rcs.flatMap (field e.runWidth.toNat)) := by
  have h1 : e.np.zeroExtend 64 = BitVec.ofNat 64 e.np.toNat := by
    apply BitVec.eq_of_toNat_eq; simp
  have h2 : e.numRuns.zeroExtend 64 = BitVec.ofNat 64 e.numRuns.toNat := by
    apply BitVec.eq_of_toNat_eq; simp
  have h3 : e.runWidth.zeroExtend 64 = BitVec.ofNat 64 e.runWidth.toNat := by
    apply BitVec.eq_of_toNat_eq; simp
  unfold Encoder.metaFields metaBits
  rw [h1, h2, h3]
  simp [List.flatMap_map, List.append_assoc]

/-- Finishing writes the MetaRecord of the counts (R149, R151). -/
theorem Encoder.finish_bytes (e : Encoder) (h : e.rcs.length < 2 ^ 48) :
    e.finish.2 = metaRecord e.np.toNat (runWidthOf e.maxCount) e.rcs := by
  have hr : (BitVec.ofNat 7 (runWidthOf e.maxCount)).toNat = runWidthOf e.maxCount := by
    have := (runWidthOf_spec e.maxCount).1.2
    rw [BitVec.toNat_ofNat]; omega
  have hn : (BitVec.ofNat 48 e.rcs.length).toNat = e.rcs.length := by
    rw [BitVec.toNat_ofNat]; omega
  unfold Encoder.finish
  simp only [Writer.writeFields_eq, Encoder.metaFields_bits, Writer.writeBits_close, hr, hn]
  rfl

/-- What an encode of `buf` with key width `kw` and producer count `np` leaves: the Fragment of the runs `keys`, `counts` (R152, R154). -/
structure Encoded.Describes (kw np : Nat) (buf : Bytes) (keys counts : List Word) (r : Encoded) : Prop where
  lengths : keys.length = counts.length
  expand : expandRuns keys counts = keysOf kw buf
  differ : NeighboursDiffer keys
  nonzero : ∀ c ∈ counts, c ≠ 0#64
  sum : (counts.map BitVec.toNat).sum = groupCount buf.length kw
  dataBytes : r.dataBytes = dataRecord kw keys
  metaBytes : r.metaBytes = metaRecord (np % 2 ^ 8) r.enc.runWidth.toNat counts
  keyWidth : r.enc.keyWidth.toNat = kw
  np : r.enc.np.toNat = np % 2 ^ 8
  numRuns : r.enc.numRuns.toNat = keys.length
  maxCount : r.enc.maxCount.toNat = (counts.map BitVec.toNat).foldl max 0
  runWidth : r.enc.runWidth.toNat = runWidthOf r.enc.maxCount
  rcs : r.enc.rcs = []
  haveRun : r.enc.haveRun = decide (buf ≠ [])
  keyFits : ∀ k ∈ keys, k.toNat < 2 ^ kw
  pk : r.enc.pk.st = .closed ∧ r.enc.pk.acc = 0#64 ∧ r.enc.pk.fill = 0#6
  mw : r.enc.mw = ⟨.closed, 0#8, 0#3⟩

/-- What no step after the start touches. -/
theorem Encoder.turn_np (e : Encoder) (buf : Bytes) : (e.turn buf).1.np = e.np := by
  simp only [Encoder.turn, Encoder.onKey]
  split
  · rfl
  · split <;> rfl

theorem Encoder.loop_np (buf : Bytes) (fuel : Nat) (e : Encoder) : (Encoder.loop buf fuel e).1.np = e.np := by
  induction fuel generalizing e with
  | zero => rfl
  | succ fuel ih =>
    unfold Encoder.loop
    split
    · exact (ih _).trans (e.turn_np buf)
    · rfl

theorem Encoder.flush_kept (e : Encoder) :
    e.flush.1.np = e.np ∧ e.flush.1.keyWidth = e.keyWidth ∧ e.flush.1.haveRun = e.haveRun := by
  unfold Encoder.flush
  split <;> exact ⟨rfl, rfl, rfl⟩

theorem keys_of_expandRuns_mem (keys counts : List Word) (h : keys.length = counts.length) (hc : ∀ c ∈ counts, c ≠ 0#64) :
    ∀ k ∈ keys, k ∈ expandRuns keys counts := by
  induction keys generalizing counts with
  | nil => simp
  | cons x keys ih =>
    cases counts with
    | nil => simp at h
    | cons c counts =>
      intro k hk
      simp only [expandRuns, List.zip_cons_cons, List.flatMap_cons, List.mem_append]
      rcases List.mem_cons.mp hk with rfl | hk
      · refine .inl (List.mem_replicate.mpr ⟨?_, rfl⟩)
        intro hz
        exact hc c (by simp) (BitVec.eq_of_toNat_eq (by simpa using hz))
      · exact .inr (ih counts (by simpa using h) (fun c hc' => hc c (by simp [hc'])) k hk)

/-- The encoder record after closing the DataRecord and finishing, field by field (R149 to R151). -/
theorem Encoder.closed_finished (e : Encoder) :
    (e.closeData.1.finish).1.haveRun = e.haveRun ∧ (e.closeData.1.finish).1.maxCount = e.maxCount ∧
      (e.closeData.1.finish).1.keyWidth = e.keyWidth ∧ (e.closeData.1.finish).1.np = e.np ∧
      (e.closeData.1.finish).1.numRuns = BitVec.ofNat 48 e.rcs.length ∧
      (e.closeData.1.finish).1.runWidth = BitVec.ofNat 7 (runWidthOf e.maxCount) ∧ (e.closeData.1.finish).1.rcs = [] ∧
      (e.closeData.1.finish).1.pk = { e.pk with st := .closed, acc := 0#64, fill := 0#6 } := by
  unfold Encoder.finish Encoder.closeData
  simp [Packer.close_record]

theorem Encoder.finish_mw (e : Encoder) : e.finish.1.mw = ⟨.closed, 0#8, 0#3⟩ := by
  unfold Encoder.finish
  simp only [Writer.close_record]

/-- The whole algorithm as its parts (R141). -/
theorem Encoder.run_eq (e : Encoder) (kw np : Nat) (buf : Bytes) :
    e.run kw np buf =
      let l := Encoder.loop buf (8 * buf.length) (e.start kw np buf.length).1
      ⟨(l.1.flush.1.closeData.1.finish).1, [BitVec.ofNat 8 kw] ++ l.2 ++ l.1.flush.2 ++ l.1.flush.1.closeData.2,
        (l.1.flush.1.closeData.1.finish).2⟩ := by
  unfold Encoder.run
  simp [Encoder.start]

/-! ### An encode owes nothing to what the record held before (R142) -/

/-- The encoder record with the fields that the start does not touch taken from another one. -/
abbrev Encoder.leftovers (e e' : Encoder) : Encoder := { e with mw := e'.mw, numRuns := e'.numRuns, runWidth := e'.runWidth }

theorem Encoder.emitRun_leftovers (e e' : Encoder) :
    (e.leftovers e').emitRun = (e.emitRun.1.leftovers e', e.emitRun.2) := rfl

theorem Encoder.turn_leftovers (e e' : Encoder) (buf : Bytes) :
    (e.leftovers e').turn buf = ((e.turn buf).1.leftovers e', (e.turn buf).2) := by
  unfold Encoder.turn Encoder.onKey Encoder.keyBit
  simp only
  split
  · rfl
  · split <;> rfl

theorem Encoder.loop_leftovers (buf : Bytes) (fuel : Nat) (e e' : Encoder) :
    Encoder.loop buf fuel (e.leftovers e') = ((Encoder.loop buf fuel e).1.leftovers e', (Encoder.loop buf fuel e).2) := by
  induction fuel generalizing e with
  | zero => rfl
  | succ fuel ih =>
    unfold Encoder.loop
    simp only
    split
    · rw [Encoder.turn_leftovers]
      simp only [ih]
    · rfl

/-- Two encodes of one buffer with the same arguments end alike, whatever the encoder records held (R142). -/
theorem Encoder.run_congr (e e' : Encoder) (kw np : Nat) (buf : Bytes) : e.run kw np buf = e'.run kw np buf := by
  have h : (e'.start kw np buf.length).1 = (e.start kw np buf.length).1.leftovers e' := rfl
  rw [Encoder.run_eq, Encoder.run_eq, h, Encoder.loop_leftovers buf _ (e.start kw np buf.length).1 e']
  generalize Encoder.loop buf (8 * buf.length) (e.start kw np buf.length).1 = l
  have hf : (l.1.leftovers e').flush = (l.1.flush.1.leftovers e', l.1.flush.2) := by
    unfold Encoder.flush
    simp only
    split <;> rfl
  simp only [hf]
  rfl

/-- Counts that are not 0 are no more than their sum. -/
theorem length_le_sum_of_ne_zero (counts : List Word) (h : ∀ c ∈ counts, c ≠ 0#64) :
    counts.length ≤ (counts.map BitVec.toNat).sum := by
  induction counts with
  | nil => simp
  | cons c counts ih =>
    have := ih (fun c hc => h c (by simp [hc]))
    have hc : c.toNat ≠ 0 := fun hz => h c (by simp) (BitVec.eq_of_toNat_eq (by simpa using hz))
    simp only [List.map_cons, List.sum_cons, List.length_cons]
    omega

/-- The whole algorithm (R141): everything it does on a buffer within the limit of R4. -/
theorem Encoder.run_spec (e : Encoder) (kw np : Nat) (buf : Bytes) (hw : WidthOk kw) (hb : buf.length ≤ 2 ^ 45 - 1) :
    ∃ keys counts, Encoded.Describes kw np buf keys counts (e.run kw np buf) := by
  have hw1 := hw.1
  have hw2 := hw.2
  have hgc := groupCount_le buf.length kw hw1
  obtain ⟨keys1, last1, h⟩ := Encoder.After.loop hw hb (8 * buf.length) (Encoder.After.start e np hw hb) (Nat.zero_le _)
    (by omega)
  have hnp1 := Encoder.loop_np buf (8 * buf.length) (e.start kw np buf.length).1
  rw [show (e.start kw np buf.length).1.np = BitVec.ofNat 8 np from rfl] at hnp1
  rw [Encoder.run_eq]
  simp only [List.nil_append] at h
  revert h hnp1
  generalize Encoder.loop buf (8 * buf.length) (e.start kw np buf.length).1 = l
  intro h hnp1
  obtain ⟨keys, f1, f2, f3, f4, f5, f6, f7, f8, -⟩ := Encoder.After.flush hw h
  rw [List.take_of_length_le (by simp)] at f6
  obtain ⟨k1, k2, k3⟩ := l.1.flush_kept
  rw [hnp1] at k1
  have hkw := h.keyWidth
  have hhave := h.have_iff
  rw [← k2] at hkw
  rw [← k3] at hhave
  simp only
  revert f1 f2 f3 f4 f5 f6 f7 f8 k1 hkw hhave
  generalize l.1.flush = f
  intro f1 f2 f3 f4 f5 f6 f7 f8 k1 hkw hhave
  have hsum : (f.1.rcs.map BitVec.toNat).sum = groupCount buf.length kw := by
    rw [← expandRuns_length keys _ f4, f6, keysOf_length]
  have h48 : f.1.rcs.length < 2 ^ 48 := by
    have := length_le_sum_of_ne_zero f.1.rcs f7
    omega
  have hrun : (BitVec.ofNat 7 (runWidthOf f.1.maxCount)).toNat = runWidthOf f.1.maxCount := by
    have := (runWidthOf_spec f.1.maxCount).1.2
    rw [BitVec.toNat_ofNat]; omega
  obtain ⟨c1, c2, c3, c4, c5, c6, c7, c8⟩ := f.1.closed_finished
  have hfb := f.1.closeData.1.finish_bytes h48
  refine ⟨keys, f.1.rcs, f4, f6, f8, f7, hsum, ?_, ?_, by rw [c3]; exact hkw, ?_, ?_, by rw [c2]; exact f5, ?_, c7, ?_, ?_, ?_,
    Encoder.finish_mw _⟩
  · have hcd : f.1.closeData.2 = packBits f.1.pk.pendingBits := Packer.close_bytes _ f2
    simp only [hcd]
    rw [List.append_assoc, List.append_assoc, ← List.append_assoc _ _ (packBits _), ← packBits_bitsOf_append, f3]
    rfl
  · simp only [hfb, c6, hrun]
    rw [show f.1.closeData.1.np = BitVec.ofNat 8 np from k1, BitVec.toNat_ofNat]
    rfl
  · simp only [c4, k1, BitVec.toNat_ofNat]
  · simp only [c5, BitVec.toNat_ofNat]
    rw [f4]
    exact Nat.mod_eq_of_lt h48
  · simp only [c6, c2, hrun]
  · simp only [c1, hhave]
    have : groupCount buf.length kw = 0 ↔ buf = [] := by
      constructor
      · intro hz
        by_contra hne
        have hpos := List.length_pos_of_ne_nil hne
        have := (lt_groupCount_iff buf.length kw 0 hw1).mpr (by omega)
        omega
      · rintro rfl
        exact groupCount_zero kw hw1
    exact decide_eq_decide.mpr (not_congr this)
  · intro k hk
    have hmem := keys_of_expandRuns_mem keys _ f4 f7 k hk
    rw [f6] at hmem
    obtain ⟨g, hg, rfl⟩ := List.getElem_of_mem hmem
    exact keysOf_lt kw hw2 buf g hg
  · simp only [c8]
    exact ⟨trivial, trivial, trivial⟩

end Sys2Proof.Machine
end

