-- ==== Sys2Proof/Laws/State.lean ====
section
/-! SUPPORT. Every field of the state after every shared update of it, each by unfolding. -/

namespace Sys2Proof.Machine

/-! ### `answer` (R64) -/

@[simp] theorem answer_fault (v : Word) (s : State) : (answer v s).fault = s.fault := rfl
@[simp] theorem answer_bx (v : Word) (s : State) : (answer v s).bx = s.bx := rfl
@[simp] theorem answer_bp (v : Word) (s : State) : (answer v s).bp = s.bp := rfl
@[simp] theorem answer_vr (v : Word) (s : State) : (answer v s).vr = s.vr := rfl
@[simp] theorem answer_vw (v : Word) (s : State) : (answer v s).vw = s.vw := rfl
@[simp] theorem answer_re (v : Word) (s : State) : (answer v s).re = s.re := rfl
@[simp] theorem answer_rd (v : Word) (s : State) : (answer v s).rd = s.rd := rfl
@[simp] theorem answer_pd (v : Word) (s : State) : (answer v s).pd = s.pd := rfl
@[simp] theorem answer_lanes (v : Word) (s : State) : (answer v s).lanes = s.lanes := rfl
@[simp] theorem answer_bufMem (v : Word) (s : State) : (answer v s).bufMem = s.bufMem := rfl
@[simp] theorem answer_vrSrc (v : Word) (s : State) : (answer v s).vrSrc = s.vrSrc := rfl
@[simp] theorem answer_rdMetaSrc (v : Word) (s : State) : (answer v s).rdMetaSrc = s.rdMetaSrc := rfl
@[simp] theorem answer_rdDataSrc (v : Word) (s : State) : (answer v s).rdDataSrc = s.rdDataSrc := rfl
@[simp] theorem answer_pdFile (v : Word) (s : State) : (answer v s).pdFile = s.pdFile := rfl
@[simp] theorem answer_bpSink (v : Word) (s : State) : (answer v s).bpSink = s.bpSink := rfl
@[simp] theorem answer_vwSink (v : Word) (s : State) : (answer v s).vwSink = s.vwSink := rfl
@[simp] theorem answer_reDataSink (v : Word) (s : State) : (answer v s).reDataSink = s.reDataSink := rfl
@[simp] theorem answer_reMetaSink (v : Word) (s : State) : (answer v s).reMetaSink = s.reMetaSink := rfl
@[simp] theorem answer_rdOutSink (v : Word) (s : State) : (answer v s).rdOutSink = s.rdOutSink := rfl
@[simp] theorem answer_bufMax (v : Word) (s : State) : (answer v s).bufMax = s.bufMax := rfl
@[simp] theorem answer_drawn (v : Word) (s : State) : (answer v s).drawn = s.drawn := rfl
@[simp] theorem answer_pending (v : Word) (s : State) : (answer v s).pending = s.pending := rfl
@[simp] theorem answer_reply (v : Word) (s : State) : (answer v s).reply = some ⟨.ended .ok, v⟩ := rfl

/-! ### `raise` (R219) -/

@[simp] theorem raise_fault (cw : CmdWord) (code : Code) (aux : Word) (s : State) : (raise cw code aux s).fault = ⟨code, cw, aux⟩ := rfl
@[simp] theorem raise_bx (cw : CmdWord) (code : Code) (aux : Word) (s : State) : (raise cw code aux s).bx = s.bx := rfl
@[simp] theorem raise_bp (cw : CmdWord) (code : Code) (aux : Word) (s : State) : (raise cw code aux s).bp = s.bp := rfl
@[simp] theorem raise_vr (cw : CmdWord) (code : Code) (aux : Word) (s : State) : (raise cw code aux s).vr = s.vr := rfl
@[simp] theorem raise_vw (cw : CmdWord) (code : Code) (aux : Word) (s : State) : (raise cw code aux s).vw = s.vw := rfl
@[simp] theorem raise_re (cw : CmdWord) (code : Code) (aux : Word) (s : State) : (raise cw code aux s).re = s.re := rfl
@[simp] theorem raise_rd (cw : CmdWord) (code : Code) (aux : Word) (s : State) : (raise cw code aux s).rd = s.rd := rfl
@[simp] theorem raise_pd (cw : CmdWord) (code : Code) (aux : Word) (s : State) : (raise cw code aux s).pd = s.pd := rfl
@[simp] theorem raise_lanes (cw : CmdWord) (code : Code) (aux : Word) (s : State) : (raise cw code aux s).lanes = s.lanes := rfl
@[simp] theorem raise_bufMem (cw : CmdWord) (code : Code) (aux : Word) (s : State) : (raise cw code aux s).bufMem = s.bufMem := rfl
@[simp] theorem raise_vrSrc (cw : CmdWord) (code : Code) (aux : Word) (s : State) : (raise cw code aux s).vrSrc = s.vrSrc := rfl
@[simp] theorem raise_rdMetaSrc (cw : CmdWord) (code : Code) (aux : Word) (s : State) : (raise cw code aux s).rdMetaSrc = s.rdMetaSrc := rfl
@[simp] theorem raise_rdDataSrc (cw : CmdWord) (code : Code) (aux : Word) (s : State) : (raise cw code aux s).rdDataSrc = s.rdDataSrc := rfl
@[simp] theorem raise_pdFile (cw : CmdWord) (code : Code) (aux : Word) (s : State) : (raise cw code aux s).pdFile = s.pdFile := rfl
@[simp] theorem raise_bpSink (cw : CmdWord) (code : Code) (aux : Word) (s : State) : (raise cw code aux s).bpSink = s.bpSink := rfl
@[simp] theorem raise_vwSink (cw : CmdWord) (code : Code) (aux : Word) (s : State) : (raise cw code aux s).vwSink = s.vwSink := rfl
@[simp] theorem raise_reDataSink (cw : CmdWord) (code : Code) (aux : Word) (s : State) : (raise cw code aux s).reDataSink = s.reDataSink :=
  rfl
@[simp] theorem raise_reMetaSink (cw : CmdWord) (code : Code) (aux : Word) (s : State) : (raise cw code aux s).reMetaSink = s.reMetaSink :=
  rfl
@[simp] theorem raise_rdOutSink (cw : CmdWord) (code : Code) (aux : Word) (s : State) : (raise cw code aux s).rdOutSink = s.rdOutSink := rfl
@[simp] theorem raise_bufMax (cw : CmdWord) (code : Code) (aux : Word) (s : State) : (raise cw code aux s).bufMax = s.bufMax := rfl
@[simp] theorem raise_drawn (cw : CmdWord) (code : Code) (aux : Word) (s : State) : (raise cw code aux s).drawn = s.drawn := rfl
@[simp] theorem raise_pending (cw : CmdWord) (code : Code) (aux : Word) (s : State) : (raise cw code aux s).pending = s.pending := rfl
@[simp] theorem raise_reply (cw : CmdWord) (code : Code) (aux : Word) (s : State) : (raise cw code aux s).reply = some ⟨.ended code, 0#64⟩ :=
  rfl

/-! ### `refuse` (R220) -/

@[simp] theorem refuse_fault (s : State) : (refuse s).fault = s.fault := rfl
@[simp] theorem refuse_bx (s : State) : (refuse s).bx = s.bx := rfl
@[simp] theorem refuse_bp (s : State) : (refuse s).bp = s.bp := rfl
@[simp] theorem refuse_vr (s : State) : (refuse s).vr = s.vr := rfl
@[simp] theorem refuse_vw (s : State) : (refuse s).vw = s.vw := rfl
@[simp] theorem refuse_re (s : State) : (refuse s).re = s.re := rfl
@[simp] theorem refuse_rd (s : State) : (refuse s).rd = s.rd := rfl
@[simp] theorem refuse_pd (s : State) : (refuse s).pd = s.pd := rfl
@[simp] theorem refuse_lanes (s : State) : (refuse s).lanes = s.lanes := rfl
@[simp] theorem refuse_bufMem (s : State) : (refuse s).bufMem = s.bufMem := rfl
@[simp] theorem refuse_vrSrc (s : State) : (refuse s).vrSrc = s.vrSrc := rfl
@[simp] theorem refuse_rdMetaSrc (s : State) : (refuse s).rdMetaSrc = s.rdMetaSrc := rfl
@[simp] theorem refuse_rdDataSrc (s : State) : (refuse s).rdDataSrc = s.rdDataSrc := rfl
@[simp] theorem refuse_pdFile (s : State) : (refuse s).pdFile = s.pdFile := rfl
@[simp] theorem refuse_bpSink (s : State) : (refuse s).bpSink = s.bpSink := rfl
@[simp] theorem refuse_vwSink (s : State) : (refuse s).vwSink = s.vwSink := rfl
@[simp] theorem refuse_reDataSink (s : State) : (refuse s).reDataSink = s.reDataSink := rfl
@[simp] theorem refuse_reMetaSink (s : State) : (refuse s).reMetaSink = s.reMetaSink := rfl
@[simp] theorem refuse_rdOutSink (s : State) : (refuse s).rdOutSink = s.rdOutSink := rfl
@[simp] theorem refuse_bufMax (s : State) : (refuse s).bufMax = s.bufMax := rfl
@[simp] theorem refuse_drawn (s : State) : (refuse s).drawn = s.drawn := rfl
@[simp] theorem refuse_pending (s : State) : (refuse s).pending = s.pending := rfl
@[simp] theorem refuse_reply (s : State) : (refuse s).reply = some ⟨.refused, 0#64⟩ := rfl

/-! ### `withEncoded` (R152) -/

@[simp] theorem withEncoded_fault (s : State) (r : Encoded) : (withEncoded s r).fault = s.fault := rfl
@[simp] theorem withEncoded_bx (s : State) (r : Encoded) : (withEncoded s r).bx = s.bx := rfl
@[simp] theorem withEncoded_bp (s : State) (r : Encoded) : (withEncoded s r).bp = s.bp := rfl
@[simp] theorem withEncoded_vr (s : State) (r : Encoded) : (withEncoded s r).vr = s.vr := rfl
@[simp] theorem withEncoded_vw (s : State) (r : Encoded) : (withEncoded s r).vw = s.vw := rfl
@[simp] theorem withEncoded_re (s : State) (r : Encoded) : (withEncoded s r).re = r.enc := rfl
@[simp] theorem withEncoded_rd (s : State) (r : Encoded) : (withEncoded s r).rd = s.rd := rfl
@[simp] theorem withEncoded_pd (s : State) (r : Encoded) : (withEncoded s r).pd = s.pd := rfl
@[simp] theorem withEncoded_lanes (s : State) (r : Encoded) : (withEncoded s r).lanes = s.lanes := rfl
@[simp] theorem withEncoded_bufMem (s : State) (r : Encoded) : (withEncoded s r).bufMem = s.bufMem := rfl
@[simp] theorem withEncoded_vrSrc (s : State) (r : Encoded) : (withEncoded s r).vrSrc = s.vrSrc := rfl
@[simp] theorem withEncoded_rdMetaSrc (s : State) (r : Encoded) : (withEncoded s r).rdMetaSrc = s.rdMetaSrc := rfl
@[simp] theorem withEncoded_rdDataSrc (s : State) (r : Encoded) : (withEncoded s r).rdDataSrc = s.rdDataSrc := rfl
@[simp] theorem withEncoded_pdFile (s : State) (r : Encoded) : (withEncoded s r).pdFile = s.pdFile := rfl
@[simp] theorem withEncoded_bpSink (s : State) (r : Encoded) : (withEncoded s r).bpSink = s.bpSink := rfl
@[simp] theorem withEncoded_vwSink (s : State) (r : Encoded) : (withEncoded s r).vwSink = s.vwSink := rfl
@[simp] theorem withEncoded_reDataSink (s : State) (r : Encoded) : (withEncoded s r).reDataSink = r.dataBytes := rfl
@[simp] theorem withEncoded_reMetaSink (s : State) (r : Encoded) : (withEncoded s r).reMetaSink = r.metaBytes := rfl
@[simp] theorem withEncoded_rdOutSink (s : State) (r : Encoded) : (withEncoded s r).rdOutSink = s.rdOutSink := rfl
@[simp] theorem withEncoded_bufMax (s : State) (r : Encoded) : (withEncoded s r).bufMax = s.bufMax := rfl
@[simp] theorem withEncoded_drawn (s : State) (r : Encoded) : (withEncoded s r).drawn = s.drawn := rfl
@[simp] theorem withEncoded_pending (s : State) (r : Encoded) : (withEncoded s r).pending = s.pending := rfl
@[simp] theorem withEncoded_reply (s : State) (r : Encoded) : (withEncoded s r).reply = s.reply := rfl

/-! ### `withDecoding` (R166) -/

@[simp] theorem withDecoding_fault (s : State) (d : Decoding) : (withDecoding s d).fault = s.fault := rfl
@[simp] theorem withDecoding_bx (s : State) (d : Decoding) : (withDecoding s d).bx = s.bx := rfl
@[simp] theorem withDecoding_bp (s : State) (d : Decoding) : (withDecoding s d).bp = s.bp := rfl
@[simp] theorem withDecoding_vr (s : State) (d : Decoding) : (withDecoding s d).vr = s.vr := rfl
@[simp] theorem withDecoding_vw (s : State) (d : Decoding) : (withDecoding s d).vw = s.vw := rfl
@[simp] theorem withDecoding_re (s : State) (d : Decoding) : (withDecoding s d).re = s.re := rfl
@[simp] theorem withDecoding_rd (s : State) (d : Decoding) : (withDecoding s d).rd = d.rd := rfl
@[simp] theorem withDecoding_pd (s : State) (d : Decoding) : (withDecoding s d).pd = s.pd := rfl
@[simp] theorem withDecoding_lanes (s : State) (d : Decoding) : (withDecoding s d).lanes = s.lanes := rfl
@[simp] theorem withDecoding_bufMem (s : State) (d : Decoding) : (withDecoding s d).bufMem = s.bufMem := rfl
@[simp] theorem withDecoding_vrSrc (s : State) (d : Decoding) : (withDecoding s d).vrSrc = s.vrSrc := rfl
@[simp] theorem withDecoding_rdMetaSrc (s : State) (d : Decoding) : (withDecoding s d).rdMetaSrc = s.rdMetaSrc := rfl
@[simp] theorem withDecoding_rdDataSrc (s : State) (d : Decoding) : (withDecoding s d).rdDataSrc = s.rdDataSrc := rfl
@[simp] theorem withDecoding_pdFile (s : State) (d : Decoding) : (withDecoding s d).pdFile = s.pdFile := rfl
@[simp] theorem withDecoding_bpSink (s : State) (d : Decoding) : (withDecoding s d).bpSink = s.bpSink := rfl
@[simp] theorem withDecoding_vwSink (s : State) (d : Decoding) : (withDecoding s d).vwSink = s.vwSink := rfl
@[simp] theorem withDecoding_reDataSink (s : State) (d : Decoding) : (withDecoding s d).reDataSink = s.reDataSink := rfl
@[simp] theorem withDecoding_reMetaSink (s : State) (d : Decoding) : (withDecoding s d).reMetaSink = s.reMetaSink := rfl
@[simp] theorem withDecoding_rdOutSink (s : State) (d : Decoding) : (withDecoding s d).rdOutSink = d.out := rfl
@[simp] theorem withDecoding_bufMax (s : State) (d : Decoding) : (withDecoding s d).bufMax = s.bufMax := rfl
@[simp] theorem withDecoding_drawn (s : State) (d : Decoding) : (withDecoding s d).drawn = s.drawn := rfl
@[simp] theorem withDecoding_pending (s : State) (d : Decoding) : (withDecoding s d).pending = s.pending := rfl
@[simp] theorem withDecoding_reply (s : State) (d : Decoding) : (withDecoding s d).reply = s.reply := rfl

/-! ### `pdStart` (R186, R192) -/

@[simp] theorem pdStart_fault (kw n : Nat) (s : State) : (pdStart kw n s).fault = s.fault := rfl
@[simp] theorem pdStart_bx (kw n : Nat) (s : State) : (pdStart kw n s).bx = s.bx := rfl
@[simp] theorem pdStart_bp (kw n : Nat) (s : State) : (pdStart kw n s).bp = s.bp := rfl
@[simp] theorem pdStart_vr (kw n : Nat) (s : State) : (pdStart kw n s).vr = s.vr := rfl
@[simp] theorem pdStart_vw (kw n : Nat) (s : State) : (pdStart kw n s).vw = s.vw := rfl
@[simp] theorem pdStart_re (kw n : Nat) (s : State) : (pdStart kw n s).re = s.re := rfl
@[simp] theorem pdStart_rd (kw n : Nat) (s : State) : (pdStart kw n s).rd = s.rd := rfl
@[simp] theorem pdStart_pd (kw n : Nat) (s : State) : (pdStart kw n s).pd = ⟨BitVec.ofNat 8 n, BitVec.ofNat 7 kw, BitVec.ofNat 64 (chunkSize s.pdFile n)⟩ :=
  rfl
@[simp] theorem pdStart_lanes (kw n : Nat) (s : State) : (pdStart kw n s).lanes = s.lanes.map Lane.cleared := rfl
@[simp] theorem pdStart_bufMem (kw n : Nat) (s : State) : (pdStart kw n s).bufMem = s.bufMem := rfl
@[simp] theorem pdStart_vrSrc (kw n : Nat) (s : State) : (pdStart kw n s).vrSrc = s.vrSrc := rfl
@[simp] theorem pdStart_rdMetaSrc (kw n : Nat) (s : State) : (pdStart kw n s).rdMetaSrc = s.rdMetaSrc := rfl
@[simp] theorem pdStart_rdDataSrc (kw n : Nat) (s : State) : (pdStart kw n s).rdDataSrc = s.rdDataSrc := rfl
@[simp] theorem pdStart_pdFile (kw n : Nat) (s : State) : (pdStart kw n s).pdFile = s.pdFile := rfl
@[simp] theorem pdStart_bpSink (kw n : Nat) (s : State) : (pdStart kw n s).bpSink = s.bpSink := rfl
@[simp] theorem pdStart_vwSink (kw n : Nat) (s : State) : (pdStart kw n s).vwSink = s.vwSink := rfl
@[simp] theorem pdStart_reDataSink (kw n : Nat) (s : State) : (pdStart kw n s).reDataSink = s.reDataSink := rfl
@[simp] theorem pdStart_reMetaSink (kw n : Nat) (s : State) : (pdStart kw n s).reMetaSink = s.reMetaSink := rfl
@[simp] theorem pdStart_rdOutSink (kw n : Nat) (s : State) : (pdStart kw n s).rdOutSink = s.rdOutSink := rfl
@[simp] theorem pdStart_bufMax (kw n : Nat) (s : State) : (pdStart kw n s).bufMax = s.bufMax := rfl
@[simp] theorem pdStart_drawn (kw n : Nat) (s : State) : (pdStart kw n s).drawn = s.drawn := rfl
@[simp] theorem pdStart_pending (kw n : Nat) (s : State) : (pdStart kw n s).pending = s.pending := rfl
@[simp] theorem pdStart_reply (kw n : Nat) (s : State) : (pdStart kw n s).reply = s.reply := rfl

/-! ### `pdSized` (R193, R194) -/

@[simp] theorem pdSized_fault (n : Nat) (s : State) : (pdSized n s).fault = s.fault := rfl
@[simp] theorem pdSized_bx (n : Nat) (s : State) : (pdSized n s).bx = s.bx := rfl
@[simp] theorem pdSized_bp (n : Nat) (s : State) : (pdSized n s).bp = s.bp := rfl
@[simp] theorem pdSized_vr (n : Nat) (s : State) : (pdSized n s).vr = s.vr := rfl
@[simp] theorem pdSized_vw (n : Nat) (s : State) : (pdSized n s).vw = s.vw := rfl
@[simp] theorem pdSized_re (n : Nat) (s : State) : (pdSized n s).re = s.re := rfl
@[simp] theorem pdSized_rd (n : Nat) (s : State) : (pdSized n s).rd = s.rd := rfl
@[simp] theorem pdSized_pd (n : Nat) (s : State) : (pdSized n s).pd = s.pd := rfl
@[simp] theorem pdSized_lanes (n : Nat) (s : State) : (pdSized n s).lanes = onLanes n (Lane.sized s.pdFile n) (onLanes n (fun _ l => l.named) s.lanes) :=
  rfl
@[simp] theorem pdSized_bufMem (n : Nat) (s : State) : (pdSized n s).bufMem = s.bufMem := rfl
@[simp] theorem pdSized_vrSrc (n : Nat) (s : State) : (pdSized n s).vrSrc = s.vrSrc := rfl
@[simp] theorem pdSized_rdMetaSrc (n : Nat) (s : State) : (pdSized n s).rdMetaSrc = s.rdMetaSrc := rfl
@[simp] theorem pdSized_rdDataSrc (n : Nat) (s : State) : (pdSized n s).rdDataSrc = s.rdDataSrc := rfl
@[simp] theorem pdSized_pdFile (n : Nat) (s : State) : (pdSized n s).pdFile = s.pdFile := rfl
@[simp] theorem pdSized_bpSink (n : Nat) (s : State) : (pdSized n s).bpSink = s.bpSink := rfl
@[simp] theorem pdSized_vwSink (n : Nat) (s : State) : (pdSized n s).vwSink = s.vwSink := rfl
@[simp] theorem pdSized_reDataSink (n : Nat) (s : State) : (pdSized n s).reDataSink = s.reDataSink := rfl
@[simp] theorem pdSized_reMetaSink (n : Nat) (s : State) : (pdSized n s).reMetaSink = s.reMetaSink := rfl
@[simp] theorem pdSized_rdOutSink (n : Nat) (s : State) : (pdSized n s).rdOutSink = s.rdOutSink := rfl
@[simp] theorem pdSized_bufMax (n : Nat) (s : State) : (pdSized n s).bufMax = s.bufMax := rfl
@[simp] theorem pdSized_drawn (n : Nat) (s : State) : (pdSized n s).drawn = s.drawn := rfl
@[simp] theorem pdSized_pending (n : Nat) (s : State) : (pdSized n s).pending = s.pending := rfl
@[simp] theorem pdSized_reply (n : Nat) (s : State) : (pdSized n s).reply = s.reply := rfl

/-! ### `pdFinish` (R195 to R197) -/

@[simp] theorem pdFinish_fault (kw n : Nat) (s : State) : (pdFinish kw n s).fault = s.fault := rfl
@[simp] theorem pdFinish_bx (kw n : Nat) (s : State) : (pdFinish kw n s).bx = s.bx := rfl
@[simp] theorem pdFinish_bp (kw n : Nat) (s : State) : (pdFinish kw n s).bp = s.bp := rfl
@[simp] theorem pdFinish_vr (kw n : Nat) (s : State) : (pdFinish kw n s).vr = s.vr := rfl
@[simp] theorem pdFinish_vw (kw n : Nat) (s : State) : (pdFinish kw n s).vw = s.vw := rfl
@[simp] theorem pdFinish_re (kw n : Nat) (s : State) : (pdFinish kw n s).re = s.re := rfl
@[simp] theorem pdFinish_rd (kw n : Nat) (s : State) : (pdFinish kw n s).rd = s.rd := rfl
@[simp] theorem pdFinish_pd (kw n : Nat) (s : State) : (pdFinish kw n s).pd = s.pd := rfl
@[simp] theorem pdFinish_lanes (kw n : Nat) (s : State) : (pdFinish kw n s).lanes = 
      onLanes n (fun _ l => l.compressed kw n)
        (onLanes n (Lane.loaded s.pdFile n) (onLanes n Lane.withBuffer s.lanes)) := rfl
@[simp] theorem pdFinish_bufMem (kw n : Nat) (s : State) : (pdFinish kw n s).bufMem = s.bufMem := rfl
@[simp] theorem pdFinish_vrSrc (kw n : Nat) (s : State) : (pdFinish kw n s).vrSrc = s.vrSrc := rfl
@[simp] theorem pdFinish_rdMetaSrc (kw n : Nat) (s : State) : (pdFinish kw n s).rdMetaSrc = s.rdMetaSrc := rfl
@[simp] theorem pdFinish_rdDataSrc (kw n : Nat) (s : State) : (pdFinish kw n s).rdDataSrc = s.rdDataSrc := rfl
@[simp] theorem pdFinish_pdFile (kw n : Nat) (s : State) : (pdFinish kw n s).pdFile = s.pdFile := rfl
@[simp] theorem pdFinish_bpSink (kw n : Nat) (s : State) : (pdFinish kw n s).bpSink = s.bpSink := rfl
@[simp] theorem pdFinish_vwSink (kw n : Nat) (s : State) : (pdFinish kw n s).vwSink = s.vwSink := rfl
@[simp] theorem pdFinish_reDataSink (kw n : Nat) (s : State) : (pdFinish kw n s).reDataSink = s.reDataSink := rfl
@[simp] theorem pdFinish_reMetaSink (kw n : Nat) (s : State) : (pdFinish kw n s).reMetaSink = s.reMetaSink := rfl
@[simp] theorem pdFinish_rdOutSink (kw n : Nat) (s : State) : (pdFinish kw n s).rdOutSink = s.rdOutSink := rfl
@[simp] theorem pdFinish_bufMax (kw n : Nat) (s : State) : (pdFinish kw n s).bufMax = s.bufMax := rfl
@[simp] theorem pdFinish_drawn (kw n : Nat) (s : State) : (pdFinish kw n s).drawn = s.drawn := rfl
@[simp] theorem pdFinish_pending (kw n : Nat) (s : State) : (pdFinish kw n s).pending = s.pending := rfl
@[simp] theorem pdFinish_reply (kw n : Nat) (s : State) : (pdFinish kw n s).reply = s.reply := rfl

/-! ### `resetBlock` (R29, R245) -/

@[simp] theorem resetBlock_fault (s : State) : (resetBlock s).fault = ⟨.ok, 0#32, 0#64⟩ := rfl
@[simp] theorem resetBlock_bx (s : State) : (resetBlock s).bx = Extractor.reset := rfl
@[simp] theorem resetBlock_bp (s : State) : (resetBlock s).bp = Packer.reset := rfl
@[simp] theorem resetBlock_vr (s : State) : (resetBlock s).vr = Reader.reset := rfl
@[simp] theorem resetBlock_vw (s : State) : (resetBlock s).vw = Writer.reset := rfl
@[simp] theorem resetBlock_re (s : State) : (resetBlock s).re = Encoder.reset := rfl
@[simp] theorem resetBlock_rd (s : State) : (resetBlock s).rd = Decoder.reset := rfl
@[simp] theorem resetBlock_pd (s : State) : (resetBlock s).pd = ⟨0#8, 0#7, 0#64⟩ := rfl
@[simp] theorem resetBlock_lanes (s : State) : (resetBlock s).lanes = s.lanes.map fun _ => Lane.reset := rfl
@[simp] theorem resetBlock_bufMem (s : State) : (resetBlock s).bufMem = s.bufMem := rfl
@[simp] theorem resetBlock_vrSrc (s : State) : (resetBlock s).vrSrc = s.vrSrc := rfl
@[simp] theorem resetBlock_rdMetaSrc (s : State) : (resetBlock s).rdMetaSrc = s.rdMetaSrc := rfl
@[simp] theorem resetBlock_rdDataSrc (s : State) : (resetBlock s).rdDataSrc = s.rdDataSrc := rfl
@[simp] theorem resetBlock_pdFile (s : State) : (resetBlock s).pdFile = s.pdFile := rfl
@[simp] theorem resetBlock_bpSink (s : State) : (resetBlock s).bpSink = [] := rfl
@[simp] theorem resetBlock_vwSink (s : State) : (resetBlock s).vwSink = [] := rfl
@[simp] theorem resetBlock_reDataSink (s : State) : (resetBlock s).reDataSink = [] := rfl
@[simp] theorem resetBlock_reMetaSink (s : State) : (resetBlock s).reMetaSink = [] := rfl
@[simp] theorem resetBlock_rdOutSink (s : State) : (resetBlock s).rdOutSink = [] := rfl
@[simp] theorem resetBlock_bufMax (s : State) : (resetBlock s).bufMax = s.bufMax := rfl
@[simp] theorem resetBlock_drawn (s : State) : (resetBlock s).drawn = s.drawn := rfl
@[simp] theorem resetBlock_pending (s : State) : (resetBlock s).pending = s.pending := rfl
@[simp] theorem resetBlock_reply (s : State) : (resetBlock s).reply = none := rfl

/-! ### `present` (R60) -/

@[simp] theorem present_fault (c : Command) (s : State) : (present c s).fault = s.fault := rfl
@[simp] theorem present_bx (c : Command) (s : State) : (present c s).bx = s.bx := rfl
@[simp] theorem present_bp (c : Command) (s : State) : (present c s).bp = s.bp := rfl
@[simp] theorem present_vr (c : Command) (s : State) : (present c s).vr = s.vr := rfl
@[simp] theorem present_vw (c : Command) (s : State) : (present c s).vw = s.vw := rfl
@[simp] theorem present_re (c : Command) (s : State) : (present c s).re = s.re := rfl
@[simp] theorem present_rd (c : Command) (s : State) : (present c s).rd = s.rd := rfl
@[simp] theorem present_pd (c : Command) (s : State) : (present c s).pd = s.pd := rfl
@[simp] theorem present_lanes (c : Command) (s : State) : (present c s).lanes = s.lanes := rfl
@[simp] theorem present_bufMem (c : Command) (s : State) : (present c s).bufMem = s.bufMem := rfl
@[simp] theorem present_vrSrc (c : Command) (s : State) : (present c s).vrSrc = s.vrSrc := rfl
@[simp] theorem present_rdMetaSrc (c : Command) (s : State) : (present c s).rdMetaSrc = s.rdMetaSrc := rfl
@[simp] theorem present_rdDataSrc (c : Command) (s : State) : (present c s).rdDataSrc = s.rdDataSrc := rfl
@[simp] theorem present_pdFile (c : Command) (s : State) : (present c s).pdFile = s.pdFile := rfl
@[simp] theorem present_bpSink (c : Command) (s : State) : (present c s).bpSink = s.bpSink := rfl
@[simp] theorem present_vwSink (c : Command) (s : State) : (present c s).vwSink = s.vwSink := rfl
@[simp] theorem present_reDataSink (c : Command) (s : State) : (present c s).reDataSink = s.reDataSink := rfl
@[simp] theorem present_reMetaSink (c : Command) (s : State) : (present c s).reMetaSink = s.reMetaSink := rfl
@[simp] theorem present_rdOutSink (c : Command) (s : State) : (present c s).rdOutSink = s.rdOutSink := rfl
@[simp] theorem present_bufMax (c : Command) (s : State) : (present c s).bufMax = s.bufMax := rfl
@[simp] theorem present_drawn (c : Command) (s : State) : (present c s).drawn = s.drawn := rfl
@[simp] theorem present_pending (c : Command) (s : State) : (present c s).pending = .command c :: s.pending := rfl
@[simp] theorem present_reply (c : Command) (s : State) : (present c s).reply = s.reply := rfl

/-! ### Host actions -/

@[simp] theorem withFetchWord_eq (s : State) (nbits w : Nat) : s.withFetchWord nbits w = present (commandOfBits nbits w) s := rfl

end Sys2Proof.Machine
end

