-- ==== Sys2Proof/Laws/Ops.lean ====
section
/-! SUPPORT. What each shared check of a command can do, said once (R217, R220, R221), and that every operation on the block's storage
keeps its bounds (R20, R21, R24). -/

namespace Sys2Proof.Machine

/-! ### Checks -/

theorem FaultReg.latched_iff (f : FaultReg) : f.latched = true ↔ f.code ≠ .ok := by simp [FaultReg.latched]

theorem accept_clear {s : State} (h : s.Clear) (run : State → State) : accept s run = run s := by
  simp [accept, FaultReg.latched, h]

theorem accept_latched {s : State} (h : ¬ s.Clear) (run : State → State) : accept s run = refuse s := by
  simp [accept, FaultReg.latched, h]

/-- Everything that accepting a command can do. -/
theorem accept_cases (s : State) (run : State → State) :
    (s.Clear ∧ accept s run = run s) ∨ (¬ s.Clear ∧ accept s run = refuse s) := by
  by_cases h : s.Clear
  · exact .inl ⟨h, accept_clear h run⟩
  · exact .inr ⟨h, accept_latched h run⟩

theorem checkWidth_ok {a : Nat} (h : WidthOk a) (cw : CmdWord) (run : State → State) (s : State) :
    checkWidth cw a run s = run s := if_pos h

theorem checkWidth_bad {a : Nat} (h : ¬ WidthOk a) (cw : CmdWord) (run : State → State) (s : State) :
    checkWidth cw a run s = raise cw .badArgument (auxOfNat a) s := if_neg h

/-- Everything that the check of a width can do. -/
theorem checkWidth_cases (cw : CmdWord) (a : Nat) (run : State → State) (s : State) :
    (WidthOk a ∧ checkWidth cw a run s = run s) ∨
      (¬ WidthOk a ∧ checkWidth cw a run s = raise cw .badArgument (auxOfNat a) s) := by
  by_cases h : WidthOk a
  · exact .inl ⟨h, checkWidth_ok h cw run s⟩
  · exact .inr ⟨h, checkWidth_bad h cw run s⟩

theorem checkReady_ready {st : UnitState} (h : st = .ready) (cw : CmdWord) (run : State → State) (s : State) :
    checkReady cw st run s = run s := if_pos h

theorem checkReady_other {st : UnitState} (h : st ≠ .ready) (cw : CmdWord) (run : State → State) (s : State) :
    checkReady cw st run s = raise cw .badState (auxOfState st) s := if_neg h

/-- Everything that the check for a ready unit can do. -/
theorem checkReady_cases (cw : CmdWord) (st : UnitState) (run : State → State) (s : State) :
    (st = .ready ∧ checkReady cw st run s = run s) ∨
      (st ≠ .ready ∧ checkReady cw st run s = raise cw .badState (auxOfState st) s) := by
  by_cases h : st = .ready
  · exact .inl ⟨h, checkReady_ready h cw run s⟩
  · exact .inr ⟨h, checkReady_other h cw run s⟩

theorem checkNotReady_other {st : UnitState} (h : st ≠ .ready) (cw : CmdWord) (run : State → State) (s : State) :
    checkNotReady cw st run s = run s := if_neg h

theorem checkNotReady_ready {st : UnitState} (h : st = .ready) (cw : CmdWord) (run : State → State) (s : State) :
    checkNotReady cw st run s = raise cw .badState (auxOfState st) s := if_pos h

/-- Everything that the check for a unit that is not ready can do. -/
theorem checkNotReady_cases (cw : CmdWord) (st : UnitState) (run : State → State) (s : State) :
    (st ≠ .ready ∧ checkNotReady cw st run s = run s) ∨
      (st = .ready ∧ checkNotReady cw st run s = raise cw .badState (auxOfState st) s) := by
  by_cases h : st = .ready
  · exact .inr ⟨h, checkNotReady_ready h cw run s⟩
  · exact .inl ⟨h, checkNotReady_other h cw run s⟩

theorem checkWorkers_ok {n : Nat} {s : State} (h : 1 ≤ n ∧ n ≤ s.lanes.length) (cw : CmdWord) (run : State → State) :
    checkWorkers cw n run s = run s := if_pos h

theorem checkWorkers_bad {n : Nat} {s : State} (h : ¬ (1 ≤ n ∧ n ≤ s.lanes.length)) (cw : CmdWord) (run : State → State) :
    checkWorkers cw n run s = raise cw .badArgument (auxOfNat n) s := if_neg h

/-- Everything that the check of the worker count can do. -/
theorem checkWorkers_cases (cw : CmdWord) (n : Nat) (run : State → State) (s : State) :
    ((1 ≤ n ∧ n ≤ s.lanes.length) ∧ checkWorkers cw n run s = run s) ∨
      (¬ (1 ≤ n ∧ n ≤ s.lanes.length) ∧ checkWorkers cw n run s = raise cw .badArgument (auxOfNat n) s) := by
  by_cases h : 1 ≤ n ∧ n ≤ s.lanes.length
  · exact .inl ⟨h, checkWorkers_ok h cw run⟩
  · exact .inr ⟨h, checkWorkers_bad h cw run⟩

/-! ### Host actions -/

theorem hostLoadBufMem_fits {s : State} {bytes : Bytes} (h : bytes.length ≤ s.bufMax) :
    hostLoadBufMem bytes s = .next { s with bufMem := bytes } := if_pos h

theorem hostLoadBufMem_tooLong {s : State} {bytes : Bytes} (h : ¬ bytes.length ≤ s.bufMax) :
    hostLoadBufMem bytes s = .refused .bufMemTooLong := if_neg h

theorem hostLoadPdFile_fits {s : State} {bytes : Bytes} (h : bytes.length < 2 ^ 64) :
    hostLoadPdFile bytes s = .next { s with pdFile := bytes } := if_pos h

theorem hostLoadPdFile_tooLong {s : State} {bytes : Bytes} (h : ¬ bytes.length < 2 ^ 64) :
    hostLoadPdFile bytes s = .refused .pdFileTooLong := if_neg h

theorem onLane_lane {s : State} {r : Nat} (h : r < s.lanes.length) (change : Lane → Lane) :
    onLane r change s = .next { s with lanes := s.lanes.modify r change } := if_pos h

theorem onLane_none {s : State} {r : Nat} (h : ¬ r < s.lanes.length) (change : Lane → Lane) :
    onLane r change s = .refused .noSuchLane := if_neg h

/-! ### Storage bounds -/

/-- Any update that leaves the storage with bounds alone keeps them. -/
theorem Memory.wf_congr {s t : State} (h : Memory.wf s) (h1 : t.bufMax = s.bufMax) (h2 : t.bufMem = s.bufMem)
    (h3 : t.pdFile = s.pdFile) (h4 : t.lanes = s.lanes) : Memory.wf t := by
  rw [Memory.wf, h1, h2, h3, h4]
  exact h

theorem Memory.wf_answer {s : State} (h : Memory.wf s) (v : Word) : Memory.wf (answer v s) := h

theorem Memory.wf_raise {s : State} (h : Memory.wf s) (cw : CmdWord) (code : Code) (aux : Word) :
    Memory.wf (raise cw code aux s) := h

theorem Memory.wf_refuse {s : State} (h : Memory.wf s) : Memory.wf (refuse s) := h

theorem Memory.wf_withEncoded {s : State} (h : Memory.wf s) (r : Encoded) : Memory.wf (withEncoded s r) := h

theorem Memory.wf_withDecoding {s : State} (h : Memory.wf s) (d : Decoding) : Memory.wf (withDecoding s d) := h

theorem Memory.wf_present {s : State} (h : Memory.wf s) (c : Command) : Memory.wf (present c s) := h

theorem Memory.wf_resetBlock {s : State} (h : Memory.wf s) : Memory.wf (resetBlock s) :=
  ⟨h.1, h.2.1, h.2.2.1, by simp [Lane.reset]⟩

theorem Memory.wf_loadBufMem {s : State} (h : Memory.wf s) {bytes : Bytes} (hb : bytes.length ≤ s.bufMax) :
    Memory.wf { s with bufMem := bytes } := ⟨h.1, hb, h.2.2⟩

theorem Memory.wf_loadPdFile {s : State} (h : Memory.wf s) {bytes : Bytes} (hb : bytes.length < 2 ^ 64) :
    Memory.wf { s with pdFile := bytes } := ⟨h.1, h.2.1, hb, h.2.2.2⟩

/-- A change of the lanes that lengthens no buffer beyond `BUF_MAX` keeps the bounds. -/
theorem Memory.wf_lanes {s : State} (h : Memory.wf s) {lanes : List Lane} (hl : ∀ l ∈ lanes, l.buf.length ≤ s.bufMax) :
    Memory.wf { s with lanes := lanes } := ⟨h.1, h.2.1, h.2.2.1, hl⟩

/-- After power-on the storage is within its bounds (R4, R21, R24, R29). -/
theorem Memory.wf_reset : Memory.wf State.reset := by
  refine ⟨Nat.min_le_right _ _, ?_, ?_, ?_⟩
  · exact List.length_take_le _ _
  · exact lt_of_le_of_lt (List.length_take_le _ _) (by norm_num)
  · simp [State.reset, Lane.reset]

end Sys2Proof.Machine
end

