-- ==== Sys2Proof/Laws/Pd.lean ====
section
/-! SUPPORT. What `PD.RUN` does to each lane (R186, R192 to R199). -/

namespace Sys2Proof.Machine

/-! ### The partition (R192) -/

theorem laneOffset_add_laneSize_le (file : Bytes) (n r : Nat) (h : r < n) :
    laneOffset file n r + laneSize file n r ≤ file.length := by
  have hn : 0 < n := by omega
  have hd := Nat.div_add_mod file.length n
  unfold laneOffset laneSize chunkSize
  by_cases hr : r + 1 = n
  · rw [if_pos hr]
    have h2 : n * (file.length / n) = r * (file.length / n) + file.length / n := by
      rw [← hr, Nat.add_mul, Nat.one_mul]
    omega
  · rw [if_neg hr]
    have h2 : (r + 1) * (file.length / n) ≤ n * (file.length / n) := Nat.mul_le_mul_right _ (by omega)
    rw [Nat.add_mul, Nat.one_mul] at h2
    omega

theorem laneSize_le (file : Bytes) (n r : Nat) (h : r < n) : laneSize file n r ≤ file.length := by
  have := laneOffset_add_laneSize_le file n r h
  omega

@[simp] theorem laneBytes_length (file : Bytes) (n r : Nat) (h : r < n) :
    (laneBytes file n r).length = laneSize file n r := by
  have := laneOffset_add_laneSize_le file n r h
  unfold laneBytes memRead
  rw [List.length_take, List.length_drop]
  omega

/-- The first k byte ranges are the file up to where range k starts. -/
theorem flatMap_laneBytes (file : Bytes) (n k : Nat) (h : k < n) :
    (List.range k).flatMap (laneBytes file n) = file.take (k * chunkSize file n) := by
  induction k with
  | zero => simp
  | succ k ih =>
    have h1 : laneSize file n k = chunkSize file n := by
      unfold laneSize
      rw [if_neg (by omega)]
    rw [List.range_succ, List.flatMap_append, ih (by omega)]
    simp only [List.flatMap_cons, List.flatMap_nil, List.append_nil]
    unfold laneBytes memRead laneOffset
    rw [h1, Nat.add_mul, Nat.one_mul, List.take_add]

theorem ofNat_laneSize_toNat (file : Bytes) (n r : Nat) (h : r < n) (hf : file.length < 2 ^ 64) :
    (BitVec.ofNat 64 (laneSize file n r)).toNat = laneSize file n r := by
  have := laneSize_le file n r h
  rw [BitVec.toNat_ofNat]
  exact Nat.mod_eq_of_lt (by omega)

/-! ### Messages (R188) -/

theorem receive_map {α : Type} (f : Nat → α) (l : List Nat) (r : Nat) (h : r ∈ l) :
    receive (l.map fun q => ⟨q, f q⟩) r = some (f r) := by
  unfold receive
  induction l with
  | nil => simp at h
  | cons x l ih =>
    rw [List.map_cons, List.find?_cons]
    by_cases hx : x = r
    · subst hx; simp
    · have hne : (x == r) = false := by simpa using hx
      rw [hne]
      exact ih (by simpa [Ne.symm hx] using h)

theorem mem_tail_range (n r : Nat) (h0 : r ≠ 0) (h : r < n) : r ∈ (List.range n).tail := by
  cases n with
  | zero => omega
  | succ n =>
    rw [List.range_succ_eq_map, List.tail_cons]
    exact List.mem_map.mpr ⟨r - 1, by simp; omega, by omega⟩

/-- The size a lane has after step 2 (R194). -/
theorem Lane.sized_eq (file : Bytes) (n r : Nat) (l : Lane) (h : r < n) :
    l.sized file n r = { l with size := BitVec.ofNat 64 (laneSize file n r), phase := .sized } := by
  unfold Lane.sized sizeMessages
  by_cases h0 : r = 0
  · subst h0; simp
  · rw [receive_map (fun q => BitVec.ofNat 64 (laneSize file n q)) _ _ (mem_tail_range n r h0 h)]
    simp [h0]

/-- The bytes a lane has after step 4 (R196). -/
theorem Lane.loaded_eq (file : Bytes) (n r : Nat) (l : Lane) (h : r < n) :
    l.loaded file n r = { l with buf := laneBytes file n r, phase := .loaded } := by
  unfold Lane.loaded dataMessages
  by_cases h0 : r = 0
  · subst h0; simp [laneBytes, laneOffset]
  · rw [receive_map (laneBytes file n) _ _ (mem_tail_range n r h0 h)]
    simp [h0]

/-! ### Lane by lane -/

@[simp] theorem onLanes_length (n : Nat) (step : Nat → Lane → Lane) (lanes : List Lane) :
    (onLanes n step lanes).length = lanes.length := by simp [onLanes]

theorem onLanes_getElem? (n : Nat) (step : Nat → Lane → Lane) (lanes : List Lane) (r : Nat) :
    (onLanes n step lanes)[r]? = lanes[r]?.map fun l => if r < n then step r l else l := by
  simp [onLanes]

/-- Every lane after barrier 2 (R193, R194). -/
theorem pdSized_lane (kw n : Nat) (s : State) (r : Nat) :
    (pdSized n (pdStart kw n s)).lanes[r]? = s.lanes[r]?.map fun l =>
      if r < n then { l.cleared with size := BitVec.ofNat 64 (laneSize s.pdFile n r), phase := .sized } else l.cleared := by
  rw [pdSized_lanes, onLanes_getElem?, onLanes_getElem?, pdStart_lanes, pdStart_pdFile, List.getElem?_map]
  cases s.lanes[r]? with
  | none => rfl
  | some l =>
    by_cases h : r < n
    · simp [h, Lane.sized_eq, Lane.named]
    · simp [h]

/-- Every lane at the end of a run in which every buffer fits (R195 to R198). -/
theorem pdFinish_lane (kw n : Nat) (s : State) (r : Nat) :
    (pdFinish kw n (pdSized n (pdStart kw n s))).lanes[r]? = s.lanes[r]?.map fun l =>
      if r < n then
        { l with
          phase := .done
          size := BitVec.ofNat 64 (laneSize s.pdFile n r)
          buf := laneBytes s.pdFile n r
          enc := (l.enc.run kw n (laneBytes s.pdFile n r)).enc
          dataSink := (l.enc.run kw n (laneBytes s.pdFile n r)).dataBytes
          metaSink := (l.enc.run kw n (laneBytes s.pdFile n r)).metaBytes }
      else l.cleared := by
  rw [pdFinish_lanes, onLanes_getElem?, onLanes_getElem?, onLanes_getElem?, pdSized_lane, pdSized_pdFile, pdStart_pdFile]
  cases s.lanes[r]? with
  | none => rfl
  | some l =>
    by_cases h : r < n
    · simp [h, Lane.loaded_eq, Lane.withBuffer, Lane.compressed, Lane.cleared]
    · simp [h]

/-- Every lane of an aborted run (R199). -/
theorem pdAbort_lane (kw n : Nat) (s : State) (r : Nat) :
    (onLanes n (fun _ l => l.abort) (pdSized n (pdStart kw n s)).lanes)[r]? = s.lanes[r]?.map fun l =>
      if r < n then
        { l with phase := .aborted, size := BitVec.ofNat 64 (laneSize s.pdFile n r), buf := [], dataSink := [], metaSink := [] }
      else l.cleared := by
  rw [onLanes_getElem?, pdSized_lane]
  cases s.lanes[r]? with
  | none => rfl
  | some l =>
    by_cases h : r < n
    · simp [h, Lane.abort, Lane.cleared]
    · simp [h]

/-! ### Which lane fails (R195, R199) -/

theorem failingLane_none (kw n : Nat) (s : State) (hn : n ≤ s.lanes.length) (hf : s.pdFile.length < 2 ^ 64) :
    failingLane n s.bufMax (pdSized n (pdStart kw n s)).lanes = none ↔ ∀ r < n, laneSize s.pdFile n r ≤ s.bufMax := by
  unfold failingLane
  rw [List.find?_eq_none]
  constructor
  · intro h r hr
    have hl : r < s.lanes.length := by omega
    have hg := pdSized_lane kw n s r
    rw [List.getElem?_eq_getElem hl, Option.map_some, if_pos hr] at hg
    have hm := h _ (List.mem_of_getElem? (i := r) (by rw [List.getElem?_take, if_pos hr, hg]))
    simp only [decide_eq_true_eq, ofNat_laneSize_toNat _ _ _ hr hf] at hm
    omega
  · intro h l hl
    obtain ⟨r, hr⟩ := List.mem_iff_getElem?.mp hl
    rw [List.getElem?_take] at hr
    by_cases hrn : r < n
    · rw [if_pos hrn, pdSized_lane, List.getElem?_eq_getElem (show r < s.lanes.length by omega), Option.map_some, if_pos hrn,
        Option.some.injEq] at hr
      subst hr
      have := h r hrn
      simp only [decide_eq_true_eq, ofNat_laneSize_toNat _ _ _ hrn hf]
      omega
    · rw [if_neg hrn] at hr
      exact absurd hr (by simp)

/-- The first lane that fails, by the two sizes a partition has (R192): lane 0 if the chunk does not fit, else the last lane. -/
theorem failingLane_some (kw n : Nat) (s : State) (hn1 : 1 ≤ n) (hn : n ≤ s.lanes.length) (hf : s.pdFile.length < 2 ^ 64)
    (r : Nat) (hr : r < n) (hbig : s.bufMax < laneSize s.pdFile n r) :
    ∃ l, failingLane n s.bufMax (pdSized n (pdStart kw n s)).lanes = some l ∧
      l.size = BitVec.ofNat 64 (if s.bufMax < s.pdFile.length / n then s.pdFile.length / n
        else laneSize s.pdFile n (n - 1)) := by
  have hfind : ∀ q, q < n → s.bufMax < laneSize s.pdFile n q → (∀ p < q, ¬ s.bufMax < laneSize s.pdFile n p) →
      ∃ l, failingLane n s.bufMax (pdSized n (pdStart kw n s)).lanes = some l ∧
        l.size = BitVec.ofNat 64 (laneSize s.pdFile n q) := by
    intro q hq hlt hmin
    have hlen : (pdSized n (pdStart kw n s)).lanes.length = s.lanes.length := by simp
    have hel : ∀ p (hp : p < n) (hb : p < ((pdSized n (pdStart kw n s)).lanes.take n).length),
        (((pdSized n (pdStart kw n s)).lanes.take n)[p]).size = BitVec.ofNat 64 (laneSize s.pdFile n p) := by
      intro p hp hb
      have hg := pdSized_lane kw n s p
      rw [List.getElem?_eq_getElem (show p < s.lanes.length by omega), Option.map_some, if_pos hp] at hg
      have h2 : ((pdSized n (pdStart kw n s)).lanes.take n)[p]? = some _ := List.getElem?_eq_getElem hb
      rw [List.getElem?_take, if_pos hp, hg, Option.some.injEq] at h2
      rw [← h2]
    have hb : q < ((pdSized n (pdStart kw n s)).lanes.take n).length := by
      rw [List.length_take, hlen]; omega
    refine ⟨((pdSized n (pdStart kw n s)).lanes.take n)[q], ?_, hel q hq hb⟩
    unfold failingLane
    rw [List.find?_eq_some_iff_getElem]
    refine ⟨by simp only [hel q hq hb, ofNat_laneSize_toNat _ _ _ hq hf, hlt, decide_true], q, hb, rfl, ?_⟩
    intro p hp
    have := hmin p hp
    simp only [hel p (by omega) (by omega), ofNat_laneSize_toNat _ _ _ (show p < n by omega) hf, this, decide_false]
    rfl
  have hother : ∀ q, q + 1 ≠ n → laneSize s.pdFile n q = s.pdFile.length / n := by
    intro q hq
    unfold laneSize chunkSize
    rw [if_neg hq]
  by_cases hc : s.bufMax < s.pdFile.length / n
  · rw [if_pos hc]
    have h0 : s.pdFile.length / n ≤ laneSize s.pdFile n 0 := by
      unfold laneSize chunkSize
      split <;> omega
    obtain ⟨l, h1, h2⟩ := hfind 0 (by omega) (by omega) (by omega)
    refine ⟨l, h1, ?_⟩
    by_cases hone : n = 1
    · subst hone
      rw [h2]
      simp [laneSize, chunkSize, Nat.mod_one]
    · rw [h2, hother 0 (by omega)]
  · rw [if_neg hc]
    have hlast : r = n - 1 := by
      by_contra hne
      rw [hother r (by omega)] at hbig
      exact hc hbig
    subst hlast
    exact hfind (n - 1) hr hbig fun p hp => by rw [hother p (by omega)]; exact hc

end Sys2Proof.Machine
end

