-- ==== Sys2Proof/Laws/PerInstr.lean ====
section
/-! SUPPORT. Per command: the word that the encoder makes of it lies in its own row of the opcode map (R61, R65). -/

namespace Sys2Proof.Laws.EncodedWordInRow

open Sys2Proof

/-- The word of a well-formed command lies in the command's row. -/
def Statement (i : Instr) : Prop := i.WellFormed → (opcodeRow i.opcode).covers i.word = true

theorem bxInit (stepBits : Nat) (sizeBytes : Word) : Statement (.bxInit stepBits sizeBytes) :=
  fun h => word_covers _ h (.inr (mask_argA _ (by simp [Instr.opcode]))) (.inl rfl)

theorem bxHasNext : Statement .bxHasNext := fun h => word_covers _ h (.inl rfl) (.inl rfl)

theorem bxAdvance : Statement .bxAdvance := fun h => word_covers _ h (.inl rfl) (.inl rfl)

theorem bxUnused : Statement .bxUnused := fun h => word_covers _ h (.inl rfl) (.inl rfl)

theorem bpInit (width : Nat) : Statement (.bpInit width) := fun h => word_covers _ h (.inr (mask_argA _ (by simp [Instr.opcode]))) (.inl rfl)

theorem bpPush (value : Word) : Statement (.bpPush value) := fun h => word_covers _ h (.inl rfl) (.inl rfl)

theorem bpClose : Statement .bpClose := fun h => word_covers _ h (.inl rfl) (.inl rfl)

theorem vrInit : Statement .vrInit := fun h => word_covers _ h (.inl rfl) (.inl rfl)

theorem vrRead (width : Nat) : Statement (.vrRead width) := fun h => word_covers _ h (.inr (mask_argA _ (by simp [Instr.opcode]))) (.inl rfl)

theorem vwInit : Statement .vwInit := fun h => word_covers _ h (.inl rfl) (.inl rfl)

theorem vwWrite (width : Nat) (value : Word) : Statement (.vwWrite width value) :=
  fun h => word_covers _ h (.inr (mask_argA _ (by simp [Instr.opcode]))) (.inl rfl)

theorem vwClose : Statement .vwClose := fun h => word_covers _ h (.inl rfl) (.inl rfl)

theorem reEncode (keyWidth numFragmentProducers : Nat) : Statement (.reEncode keyWidth numFragmentProducers) :=
  fun h => word_covers _ h (.inr (mask_argA _ (by simp [Instr.opcode]))) (.inr (mask_argB _ (by simp [Instr.opcode])))

theorem rdDecode : Statement .rdDecode := fun h => word_covers _ h (.inl rfl) (.inl rfl)

theorem pdRun (keyWidth n : Nat) : Statement (.pdRun keyWidth n) :=
  fun h => word_covers _ h (.inr (mask_argA _ (by simp [Instr.opcode]))) (.inr (mask_argB _ (by simp [Instr.opcode])))

end Sys2Proof.Laws.EncodedWordInRow
end

