-- ==== Sys2Proof/Laws/Protocol.lean ====
section
/-! SUPPORT. What every schedule of the lanes' steps can reach: the group is always in one of six stages, whatever lane moves next (R187 to
R199). -/

namespace Sys2Proof.Machine

/-- The stages of a run. -/
inductive Stage where
  /-- Every lane is about to reach barrier 1. -/
  | start
  /-- Lane 0 has sent the sizes of the lanes below `k`; at `k = N + 1` it has taken its own as well. -/
  | sizing (k : Nat)
  /-- The lanes for which `d` holds have allocated. -/
  | allocating (d : Nat → Bool)
  /-- Lane 0 has sent the bytes of the lanes below `k`; at `k = N + 1` it has taken its own as well. -/
  | sending (k : Nat)
  /-- The lanes for which `d` holds are finished. -/
  | compressing (d : Nat → Bool)
  /-- The group was aborted. -/
  | aborted

/-- Where lane `r` stands in a stage. -/
def Stage.pc (n r : Nat) : Stage → AgentPc
  | .start => .atBarrier 1
  | .sizing k => if r = 0 then (if k ≤ n then .sendSize k else .atBarrier 2) else (if r < k then .atBarrier 2 else .recvSize)
  | .allocating d => if d r then .atBarrier 3 else .alloc
  | .sending k => if r = 0 then (if k ≤ n then .sendData k else .atBarrier 4) else (if r < k then .atBarrier 4 else .recvData)
  | .compressing d => if d r then .finished else .compress
  | .aborted => .stopped

/-- What lane `r` holds at each place, from what it held before the run. -/
def laneAt (c : RunConfig) (r : Nat) (l : Lane) : AgentPc → Lane
  | .atBarrier 1 => l.cleared
  | .sendSize _ => { l.cleared with phase := .named }
  | .recvSize => { l.cleared with phase := .named }
  | .atBarrier 2 => { l.cleared with phase := .named, size := BitVec.ofNat 64 (laneSize c.file c.n r) }
  | .alloc => { l.cleared with phase := .sized, size := BitVec.ofNat 64 (laneSize c.file c.n r) }
  | .atBarrier 3 =>
    { l.cleared with
      phase := .sized, size := BitVec.ofNat 64 (laneSize c.file c.n r), buf := allocated r (laneSize c.file c.n r) }
  | .sendData _ =>
    { l.cleared with
      phase := .allocated, size := BitVec.ofNat 64 (laneSize c.file c.n r), buf := allocated r (laneSize c.file c.n r) }
  | .recvData =>
    { l.cleared with
      phase := .allocated, size := BitVec.ofNat 64 (laneSize c.file c.n r), buf := allocated r (laneSize c.file c.n r) }
  | .atBarrier 4 =>
    { l.cleared with phase := .allocated, size := BitVec.ofNat 64 (laneSize c.file c.n r), buf := laneBytes c.file c.n r }
  | .compress =>
    { l.cleared with phase := .loaded, size := BitVec.ofNat 64 (laneSize c.file c.n r), buf := laneBytes c.file c.n r }
  | .finished =>
    Lane.compressed c.kw c.n
      { l.cleared with phase := .loaded, size := BitVec.ofNat 64 (laneSize c.file c.n r), buf := laneBytes c.file c.n r }
  | .stopped => { l.cleared with phase := .aborted, size := BitVec.ofNat 64 (laneSize c.file c.n r) }
  | .atBarrier _ => l

/-- What holds of the lanes' sizes in a stage. -/
def Stage.Fits (c : RunConfig) : Stage → Prop
  | .start => True
  | .sizing k => 1 ≤ k ∧ k ≤ c.n + 1
  | .allocating d => ∀ r < c.n, d r = true → laneSize c.file c.n r ≤ c.bufMax
  | .sending k => 1 ≤ k ∧ k ≤ c.n + 1 ∧ ∀ r < c.n, laneSize c.file c.n r ≤ c.bufMax
  | .compressing _ => ∀ r < c.n, laneSize c.file c.n r ≤ c.bufMax
  | .aborted => ∃ r < c.n, c.bufMax < laneSize c.file c.n r

/-- The moves, the messages and the barriers that lead to a stage; an aborted group has made no more than these. -/
def Stage.moves (n : Nat) : Stage → Nat × Nat × Nat
  | .start => (0, 0, 0)
  | .sizing k => (k, min (k - 1) (n - 1), 1)
  | .allocating d => (n + 2 + (List.range n).countP d, n - 1, 2)
  | .sending k => (2 * n + 2 + k, n - 1 + min (k - 1) (n - 1), 3)
  | .compressing d => (3 * n + 4 + (List.range n).countP d, 2 * (n - 1), 4)
  | .aborted => (2 * n + 2, n - 1, 2)

/-- A group in a stage. -/
structure Stage.Holds (c : RunConfig) (lanes : List Lane) (g : Group) (st : Stage) : Prop where
  length : g.length = c.n
  agent : ∀ (r : Nat) (a : Agent), g[r]? = some a → ∃ l : Lane, lanes[r]? = some l ∧ a = ⟨st.pc c.n r, laneAt c r l (st.pc c.n r)⟩
  fits : st.Fits c

theorem countP_update (d : Nat → Bool) (n r : Nat) (hr : r < n) (hd : d r = false) :
    (List.range n).countP (fun q => decide (q = r) || d q) = (List.range n).countP d + 1 := by
  induction n with
  | zero => omega
  | succ n ih =>
    rw [List.range_succ, List.countP_append, List.countP_append]
    by_cases h : r = n
    · subst h
      have h1 : (List.range r).countP (fun q => decide (q = r) || d q) = (List.range r).countP d := by
        apply List.countP_congr
        intro q hq
        have : q ≠ r := by have := List.mem_range.mp hq; omega
        simp [this]
      rw [h1]
      simp [hd]
    · rw [ih (by omega)]
      have h1 : [n].countP (fun q => decide (q = r) || d q) = [n].countP d := by
        apply List.countP_congr
        intro q hq
        have : q ≠ r := by have := List.mem_singleton.mp hq; omega
        simp [this]
      rw [h1]
      omega

theorem countP_all (d : Nat → Bool) (n : Nat) (h : ∀ r < n, d r = true) : (List.range n).countP d = n := by
  have := List.countP_eq_length (p := d) (l := List.range n)
  rw [List.length_range] at this
  exact this.mpr fun r hr => h r (List.mem_range.mp hr)

theorem countP_none (n : Nat) : (List.range n).countP (fun _ => false) = 0 := by simp

/-- The group at the start of a run. -/
theorem Stage.holds_start (kw n : Nat) (s : State) (hn : n ≤ s.lanes.length) :
    Stage.Holds (runConfig kw n s) s.lanes (Group.start n s.lanes) .start where
  length := by
    show (Group.start n s.lanes).length = n
    simp [Group.start]
    omega
  agent := by
    intro r a h
    unfold Group.start at h
    rw [List.getElem?_map, List.getElem?_take] at h
    by_cases hr : r < n
    · rw [if_pos hr, List.getElem?_eq_getElem (show r < s.lanes.length by omega), Option.map_some, Option.some.injEq] at h
      exact ⟨_, List.getElem?_eq_getElem (show r < s.lanes.length by omega), h.symm⟩
    · rw [if_neg hr] at h
      exact absurd h (by simp)
  fits := trivial

/-- A change of one lane that agrees with the next stage. -/
theorem Stage.Holds.set {c : RunConfig} {lanes : List Lane} {g : Group} {st st' : Stage} (h : st.Holds c lanes g) {r : Nat}
    {a : Agent} {l : Lane} (hl : lanes[r]? = some l) (ha : a = ⟨st'.pc c.n r, laneAt c r l (st'.pc c.n r)⟩)
    (hpc : ∀ q, q < c.n → q ≠ r → st'.pc c.n q = st.pc c.n q) (hfits : st'.Fits c) : st'.Holds c lanes (g.set r a) where
  length := by rw [List.length_set]; exact h.length
  agent := by
    intro q b hq
    rw [List.getElem?_set] at hq
    by_cases hqr : r = q
    · subst hqr
      rw [if_pos rfl] at hq
      split at hq
      · rw [Option.some.injEq] at hq
        exact ⟨l, hl, by rw [← hq, ha]⟩
      · exact absurd hq (by simp)
    · rw [if_neg hqr] at hq
      obtain ⟨m, hm, rfl⟩ := h.agent q b hq
      have hqn : q < c.n := by
        rw [← h.length]
        exact (List.getElem?_eq_some_iff.mp hq).1
      exact ⟨m, hm, by rw [hpc q hqn (Ne.symm hqr)]⟩
  fits := hfits

/-- The numbers of moves, messages and barriers after one more move. -/
def Move.after (m : Move) (p : Nat × Nat × Nat) : Nat × Nat × Nat :=
  match m with
  | .alone _ => (p.1 + 1, p.2.1, p.2.2)
  | .message _ => (p.1 + 1, p.2.1 + 1, p.2.2)
  | .barrier _ => (p.1 + 1, p.2.1, p.2.2 + 1)

/-- A stage reached by a number of moves, messages and barriers. -/
def Stage.Counted (n : Nat) (st : Stage) (p : Nat × Nat × Nat) : Prop :=
  match st with
  | .aborted => p.1 ≤ 2 * n + 2
  | .start => p = st.moves n
  | .sizing _ => p = st.moves n
  | .allocating _ => p = st.moves n
  | .sending _ => p = st.moves n
  | .compressing _ => p = st.moves n

/-- A step of one lane alone: everything it does. -/
theorem Stage.Holds.alone {c : RunConfig} {lanes : List Lane} {g g' : Group} {st : Stage} (h : st.Holds c lanes g)
    (hf : c.file.length < 2 ^ 64) (hn : 1 ≤ c.n) {r : Nat} (hm : moveAlone c r g = some g') {p : Nat × Nat × Nat}
    (hp : st.Counted c.n p) :
    ∃ st', Stage.Holds c lanes g' st' ∧ st'.Counted c.n ((Move.alone r).after p) := by
  unfold moveAlone at hm
  cases hg : g[r]? with
  | none => rw [hg] at hm; exact absurd hm (by simp)
  | some a =>
    have hrn : r < c.n := by
      rw [← h.length]
      exact (List.getElem?_eq_some_iff.mp hg).1
    obtain ⟨l, hl, ha⟩ := h.agent r a hg
    have hsz := ofNat_laneSize_toNat c.file c.n r hrn hf
    rw [hg] at hm
    cases st with
    | start => subst ha; simp [Stage.pc] at hm
    | aborted => subst ha; simp [Stage.pc] at hm
    | sizing k =>
      have hfit := h.fits
      subst ha
      by_cases h0 : r = 0
      · subst h0
        by_cases hk : k ≤ c.n
        · simp only [Stage.pc, if_true, hk] at hm
          split at hm
          · rename_i hkn
            rw [Option.some.injEq] at hm
            subst hm
            refine ⟨.sizing (c.n + 1), h.set hl ?_ ?_ ⟨by omega, by omega⟩, ?_⟩
            · simp [Stage.pc, laneAt]
            · intro q hq hq0
              simp only [Stage.pc, if_neg hq0]
              rw [if_pos (by omega), if_pos (by omega)]
            · simp only [Stage.Counted, Stage.moves, Move.after] at hp ⊢
              rw [hp]
              simp only [Prod.mk.injEq, and_true]
              omega
          · exact absurd hm (by simp)
        · simp [Stage.pc, hk] at hm
      · simp only [Stage.pc, if_neg h0] at hm
        by_cases hrk : r < k <;> simp [hrk] at hm
    | allocating d =>
      have hfit := h.fits
      subst ha
      by_cases hd : d r
      · simp [Stage.pc, hd] at hm
      · simp only [Stage.pc, hd, Bool.false_eq_true, if_false, laneAt, hsz] at hm
        split at hm
        · rename_i hbig
          rw [Option.some.injEq] at hm
          subst hm
          refine ⟨.aborted, ⟨?_, ?_, r, hrn, hbig⟩, ?_⟩
          · unfold abortGroup
            rw [List.length_map]
            exact h.length
          · intro q b hq
            unfold abortGroup at hq
            rw [List.getElem?_map] at hq
            cases hgq : g[q]? with
            | none => rw [hgq] at hq; exact absurd hq (by simp)
            | some b0 =>
              rw [hgq, Option.map_some, Option.some.injEq] at hq
              obtain ⟨m, hmq, rfl⟩ := h.agent q b0 hgq
              refine ⟨m, hmq, ?_⟩
              rw [← hq]
              by_cases hdq : d q <;> simp [Stage.pc, hdq, laneAt, Lane.abort, Lane.cleared]
          · have hle : (List.range c.n).countP d < c.n := by
              have h1 := countP_update d c.n r hrn (by simpa using hd)
              have h2 := List.countP_le_length (p := fun q => decide (q = r) || d q) (l := List.range c.n)
              rw [List.length_range] at h2
              omega
            simp only [Stage.Counted, Stage.moves, Move.after] at hp ⊢
            rw [hp]
            simp only
            omega
        · rename_i hsmall
          rw [Option.some.injEq] at hm
          subst hm
          refine ⟨.allocating (fun q => decide (q = r) || d q), h.set hl ?_ ?_ ?_, ?_⟩
          · simp [Stage.pc, laneAt]
          · intro q _ hq0
            simp [Stage.pc, hq0]
          · intro q hq hqd
            by_cases hqr : q = r
            · subst hqr; omega
            · exact hfit q hq (by simpa [hqr] using hqd)
          · simp only [Stage.Counted, Stage.moves, Move.after] at hp ⊢
            rw [hp, countP_update d c.n r hrn (by simpa using hd)]
            rfl
    | sending k =>
      have hfit := h.fits
      subst ha
      by_cases h0 : r = 0
      · subst h0
        by_cases hk : k ≤ c.n
        · simp only [Stage.pc, if_true, hk] at hm
          split at hm
          · rename_i hkn
            rw [Option.some.injEq] at hm
            subst hm
            refine ⟨.sending (c.n + 1), h.set hl ?_ ?_ ⟨by omega, by omega, hfit.2.2⟩, ?_⟩
            · simp [Stage.pc, laneAt, laneBytes, laneOffset]
            · intro q hq hq0
              simp only [Stage.pc, if_neg hq0]
              rw [if_pos (by omega), if_pos (by omega)]
            · simp only [Stage.Counted, Stage.moves, Move.after] at hp ⊢
              rw [hp]
              simp only [Prod.mk.injEq, and_true]
              omega
          · exact absurd hm (by simp)
        · simp [Stage.pc, hk] at hm
      · simp only [Stage.pc, if_neg h0] at hm
        by_cases hrk : r < k <;> simp [hrk] at hm
    | compressing d =>
      have hfit := h.fits
      subst ha
      by_cases hd : d r
      · simp [Stage.pc, hd] at hm
      · simp only [Stage.pc, hd, Bool.false_eq_true, if_false, laneAt] at hm
        rw [Option.some.injEq] at hm
        subst hm
        refine ⟨.compressing (fun q => decide (q = r) || d q), h.set hl ?_ ?_ hfit, ?_⟩
        · simp [Stage.pc, laneAt]
        · intro q _ hq0
          simp [Stage.pc, hq0]
        · simp only [Stage.Counted, Stage.moves, Move.after] at hp ⊢
          rw [hp, countP_update d c.n r hrn (by simpa using hd)]
          rfl

/-- A message: everything it does. -/
theorem Stage.Holds.message {c : RunConfig} {lanes : List Lane} {g g' : Group} {st : Stage} (h : st.Holds c lanes g)
    {dst : Nat} (hm : moveMessage c dst g = some g') {p : Nat × Nat × Nat} (hp : st.Counted c.n p) :
    ∃ st', Stage.Holds c lanes g' st' ∧ st'.Counted c.n ((Move.message dst).after p) := by
  unfold moveMessage at hm
  cases hg0 : g[0]? with
  | none => rw [hg0] at hm; exact absurd hm (by simp)
  | some a =>
    cases hgd : g[dst]? with
    | none => rw [hg0, hgd] at hm; exact absurd hm (by simp)
    | some b =>
      have hdn : dst < c.n := by
        rw [← h.length]
        exact (List.getElem?_eq_some_iff.mp hgd).1
      obtain ⟨l0, hl0, ha⟩ := h.agent 0 a hg0
      obtain ⟨l, hl, hb⟩ := h.agent dst b hgd
      rw [hg0, hgd] at hm
      cases st with
      | start => subst ha; simp [Stage.pc] at hm
      | aborted => subst ha; simp [Stage.pc] at hm
      | allocating d => subst ha; by_cases hd : d 0 <;> simp [Stage.pc, hd] at hm
      | compressing d => subst ha; by_cases hd : d 0 <;> simp [Stage.pc, hd] at hm
      | sizing k =>
        have hfit := h.fits
        obtain ⟨hk1, hk2⟩ := hfit
        subst ha hb
        by_cases hk : k ≤ c.n
        · by_cases hkd : k = dst
          · subst hkd
            have hk0 : k ≠ 0 := by omega
            simp only [Stage.pc, if_true, hk, hk0, if_false, Nat.lt_irrefl, and_self, laneAt, Option.some.injEq] at hm
            subst hm
            refine ⟨.sizing (k + 1), ?_, ?_⟩
            · refine ⟨by rw [List.length_set, List.length_set]; exact h.length, ?_, by omega, by omega⟩
              intro q x hq
              rw [List.getElem?_set] at hq
              by_cases hqk : k = q
              · subst hqk
                rw [if_pos rfl] at hq
                split at hq
                · rw [Option.some.injEq] at hq
                  exact ⟨l, hl, by rw [← hq]; simp [Stage.pc, hk0, laneAt]⟩
                · exact absurd hq (by simp)
              · rw [if_neg hqk, List.getElem?_set] at hq
                by_cases hq0 : 0 = q
                · subst hq0
                  rw [if_pos rfl] at hq
                  split at hq
                  · rw [Option.some.injEq] at hq
                    exact ⟨l0, hl0, by rw [← hq]; simp [Stage.pc, laneAt, show k + 1 ≤ c.n by omega]⟩
                  · exact absurd hq (by simp)
                · rw [if_neg hq0] at hq
                  obtain ⟨m, hmq, rfl⟩ := h.agent q x hq
                  refine ⟨m, hmq, ?_⟩
                  have hpc : Stage.pc c.n q (.sizing (k + 1)) = Stage.pc c.n q (.sizing k) := by
                    simp only [Stage.pc, if_neg (Ne.symm hq0)]
                    by_cases hqk' : q < k
                    · rw [if_pos hqk', if_pos (by omega)]
                    · rw [if_neg hqk', if_neg (by omega)]
                  rw [hpc]
            · simp only [Stage.Counted, Stage.moves, Move.after] at hp ⊢
              rw [hp]
              simp only [Prod.mk.injEq, true_and, and_true]
              omega
          · simp [Stage.pc, hk, hkd] at hm
        · simp [Stage.pc, hk] at hm
      | sending k =>
        have hfit := h.fits
        obtain ⟨hk1, hk2, hfit⟩ := hfit
        subst ha hb
        by_cases hk : k ≤ c.n
        · by_cases hkd : k = dst
          · subst hkd
            have hk0 : k ≠ 0 := by omega
            simp only [Stage.pc, if_true, hk, hk0, if_false, Nat.lt_irrefl, and_self, laneAt, Option.some.injEq,
              reduceCtorEq] at hm
            subst hm
            refine ⟨.sending (k + 1), ?_, ?_⟩
            · refine ⟨by rw [List.length_set, List.length_set]; exact h.length, ?_, by omega, by omega, hfit⟩
              intro q x hq
              rw [List.getElem?_set] at hq
              by_cases hqk : k = q
              · subst hqk
                rw [if_pos rfl] at hq
                split at hq
                · rw [Option.some.injEq] at hq
                  exact ⟨l, hl, by rw [← hq]; simp [Stage.pc, hk0, laneAt]⟩
                · exact absurd hq (by simp)
              · rw [if_neg hqk, List.getElem?_set] at hq
                by_cases hq0 : 0 = q
                · subst hq0
                  rw [if_pos rfl] at hq
                  split at hq
                  · rw [Option.some.injEq] at hq
                    exact ⟨l0, hl0, by rw [← hq]; simp [Stage.pc, laneAt, show k + 1 ≤ c.n by omega]⟩
                  · exact absurd hq (by simp)
                · rw [if_neg hq0] at hq
                  obtain ⟨m, hmq, rfl⟩ := h.agent q x hq
                  refine ⟨m, hmq, ?_⟩
                  have hpc : Stage.pc c.n q (.sending (k + 1)) = Stage.pc c.n q (.sending k) := by
                    simp only [Stage.pc, if_neg (Ne.symm hq0)]
                    by_cases hqk' : q < k
                    · rw [if_pos hqk', if_pos (by omega)]
                    · rw [if_neg hqk', if_neg (by omega)]
                  rw [hpc]
            · simp only [Stage.Counted, Stage.moves, Move.after] at hp ⊢
              rw [hp]
              simp only [Prod.mk.injEq, and_true]
              omega
          · simp [Stage.pc, hk, hkd] at hm
        · simp [Stage.pc, hk] at hm

/-- A barrier: everything it does. -/
theorem Stage.Holds.barrier {c : RunConfig} {lanes : List Lane} {g g' : Group} {st : Stage} (h : st.Holds c lanes g)
    (hn : 1 ≤ c.n) {k : Nat} (hm : moveBarrier k g = some g') {p : Nat × Nat × Nat} (hp : st.Counted c.n p) :
    ∃ st', Stage.Holds c lanes g' st' ∧ st'.Counted c.n ((Move.barrier k).after p) := by
  unfold moveBarrier at hm
  split at hm
  · rename_i hall
    rw [Option.some.injEq] at hm
    subst hm
    have hpcs : ∀ r < c.n, st.pc c.n r = .atBarrier k := by
      intro r hr
      have hb : r < g.length := by rw [h.length]; exact hr
      obtain ⟨l, -, ha⟩ := h.agent r _ (List.getElem?_eq_getElem hb)
      have := List.all_eq_true.mp hall _ (List.getElem_mem hb)
      rw [ha] at this
      simpa using this
    have next : ∀ st' : Stage, st'.Fits c →
        (∀ r < c.n, ∀ l, Agent.passBarrier k r ⟨.atBarrier k, laneAt c r l (.atBarrier k)⟩ =
          ⟨st'.pc c.n r, laneAt c r l (st'.pc c.n r)⟩) →
        Stage.Holds c lanes (g.mapIdx (Agent.passBarrier k)) st' := by
      intro st' hfits hpass
      refine ⟨by rw [List.length_mapIdx]; exact h.length, ?_, hfits⟩
      intro r a hr
      rw [List.getElem?_mapIdx] at hr
      cases hg : g[r]? with
      | none => rw [hg] at hr; exact absurd hr (by simp)
      | some b =>
        have hrn : r < c.n := by
          rw [← h.length]
          exact (List.getElem?_eq_some_iff.mp hg).1
        obtain ⟨l, hl, hb⟩ := h.agent r b hg
        rw [hg, Option.map_some, Option.some.injEq] at hr
        rw [hpcs r hrn] at hb
        exact ⟨l, hl, by rw [← hr, hb, hpass r hrn l]⟩
    have h0 := hpcs 0 hn
    cases st with
    | aborted => simp [Stage.pc] at h0
    | compressing d => by_cases hd : d 0 <;> simp [Stage.pc, hd] at h0
    | start =>
      have hk : k = 1 := by simp [Stage.pc] at h0; omega
      subst hk
      refine ⟨.sizing 1, next _ ⟨by omega, by omega⟩ ?_, ?_⟩
      · intro r hr l
        by_cases hr0 : r = 0
        · subst hr0; simp [Agent.passBarrier, Stage.pc, laneAt, hn]
        · simp [Agent.passBarrier, Stage.pc, laneAt, hr0]
      · simp only [Stage.Counted, Stage.moves, Move.after] at hp ⊢
        rw [hp]
        simp
    | sizing j =>
      obtain ⟨hj1, hj2⟩ := h.fits
      have hj : ¬ j ≤ c.n := by
        intro hle
        simp [Stage.pc, hle] at h0
      have hk : k = 2 := by
        simp [Stage.pc, hj] at h0
        omega
      subst hk
      refine ⟨.allocating (fun _ => false), next _ (by intro r _ h; simp at h) ?_, ?_⟩
      · intro r hr l
        simp [Agent.passBarrier, Stage.pc, laneAt]
      · simp only [Stage.Counted, Stage.moves, Move.after] at hp ⊢
        rw [hp, countP_none]
        simp only [Prod.mk.injEq, and_true]
        omega
    | allocating d =>
      have hd : ∀ r < c.n, d r = true := by
        intro r hr
        have := hpcs r hr
        by_contra hne
        simp [Stage.pc, hne] at this
      have hk : k = 3 := by
        simp [Stage.pc, hd 0 hn] at h0
        omega
      subst hk
      have hfit := h.fits
      refine ⟨.sending 1, next _ ⟨by omega, by omega, fun r hr => hfit r hr (hd r hr)⟩ ?_, ?_⟩
      · intro r hr l
        by_cases hr0 : r = 0
        · subst hr0; simp [Agent.passBarrier, Stage.pc, laneAt, hn]
        · simp [Agent.passBarrier, Stage.pc, laneAt, hr0]
      · simp only [Stage.Counted, Stage.moves, Move.after] at hp ⊢
        rw [hp, countP_all d c.n hd]
        simp only [Prod.mk.injEq, and_true]
        omega
    | sending j =>
      obtain ⟨hj1, hj2, hfit⟩ := h.fits
      have hj : ¬ j ≤ c.n := by
        intro hle
        simp [Stage.pc, hle] at h0
      have hk : k = 4 := by
        simp [Stage.pc, hj] at h0
        omega
      subst hk
      refine ⟨.compressing (fun _ => false), next _ hfit ?_, ?_⟩
      · intro r hr l
        simp [Agent.passBarrier, Stage.pc, laneAt]
      · simp only [Stage.Counted, Stage.moves, Move.after] at hp ⊢
        rw [hp, countP_none]
        simp only [Prod.mk.injEq, and_true]
        omega
  · exact absurd hm (by simp)

/-- Every move leads from a stage to a stage. -/
theorem Stage.Holds.move {c : RunConfig} {lanes : List Lane} {g g' : Group} {st : Stage} (h : st.Holds c lanes g)
    (hf : c.file.length < 2 ^ 64) (hn : 1 ≤ c.n) {m : Move} (hm : g.move c m = some g') {p : Nat × Nat × Nat}
    (hp : st.Counted c.n p) : ∃ st', Stage.Holds c lanes g' st' ∧ st'.Counted c.n (m.after p) := by
  cases m with
  | alone r => exact h.alone hf hn hm hp
  | message dst => exact h.message hm hp
  | barrier k => exact h.barrier hn hm hp

/-- Every schedule leads from a stage to a stage, with its moves, messages and barriers counted. -/
theorem Stage.Holds.follow {c : RunConfig} {lanes : List Lane} (hf : c.file.length < 2 ^ 64) (hn : 1 ≤ c.n) (ms : List Move) :
    ∀ {g g' : Group} {st : Stage} {p : Nat × Nat × Nat}, st.Holds c lanes g → Group.follow c g ms = some g' → st.Counted c.n p →
      ∃ st', Stage.Holds c lanes g' st' ∧
        st'.Counted c.n (p.1 + ms.length, p.2.1 + messageCount ms, p.2.2 + barrierCount ms) := by
  induction ms with
  | nil =>
    intro g g' st p h hm hp
    simp only [Group.follow, Option.some.injEq] at hm
    subst hm
    exact ⟨st, h, by simpa [messageCount, barrierCount] using hp⟩
  | cons m ms ih =>
    intro g g' st p h hm hp
    simp only [Group.follow, Option.bind_eq_some_iff] at hm
    obtain ⟨g1, hm1, hm2⟩ := hm
    obtain ⟨st1, h1, hp1⟩ := h.move hf hn hm1 hp
    obtain ⟨st2, h2, hp2⟩ := ih h1 hm2 hp1
    refine ⟨st2, h2, ?_⟩
    have e : (p.1 + (m :: ms).length, p.2.1 + messageCount (m :: ms), p.2.2 + barrierCount (m :: ms)) =
        ((m.after p).1 + ms.length, (m.after p).2.1 + messageCount ms, (m.after p).2.2 + barrierCount ms) := by
      cases m <;> simp [Move.after, messageCount, barrierCount] <;> omega
    rw [e]
    exact hp2

/-- A group that has not ended has a next move. -/
theorem Stage.Holds.canMove {c : RunConfig} {lanes : List Lane} {g : Group} {st : Stage} (h : st.Holds c lanes g)
    (hn : 1 ≤ c.n) (hend : g.ended = false) : ∃ m g', g.move c m = some g' := by
  have hget : ∀ r < c.n, ∃ l, g[r]? = some ⟨st.pc c.n r, laneAt c r l (st.pc c.n r)⟩ := by
    intro r hr
    have hb : r < g.length := by rw [h.length]; exact hr
    obtain ⟨l, -, ha⟩ := h.agent r _ (List.getElem?_eq_getElem hb)
    exact ⟨l, by rw [List.getElem?_eq_getElem hb, ha]⟩
  have hallpc : ∀ x : AgentPc, (∀ r < c.n, st.pc c.n r = x) → (g.all fun a => a.pc == x) = true := by
    intro x hx
    rw [List.all_eq_true]
    intro a ha
    obtain ⟨r, hr⟩ := List.mem_iff_getElem?.mp ha
    have hrn : r < c.n := by
      rw [← h.length]
      exact (List.getElem?_eq_some_iff.mp hr).1
    obtain ⟨l, -, rfl⟩ := h.agent r a hr
    simp [hx r hrn]
  have go : ∀ m, (g.move c m).isSome = true → ∃ m g', g.move c m = some g' := fun m hm =>
    ⟨m, Option.isSome_iff_exists.mp hm⟩
  have hbar : ∀ k, (∀ r < c.n, st.pc c.n r = .atBarrier k) → ∃ m g', g.move c m = some g' := fun k hk =>
    go (.barrier k) (by
      show (moveBarrier k g).isSome = true
      unfold moveBarrier
      rw [if_pos (hallpc _ hk)]
      rfl)
  cases st with
  | start => exact hbar 1 fun r _ => rfl
  | sizing k =>
    obtain ⟨hk1, hk2⟩ := h.fits
    by_cases hk : k < c.n
    · obtain ⟨l0, e0⟩ := hget 0 hn
      obtain ⟨l, e⟩ := hget k hk
      refine go (.message k) ?_
      simp [Group.move, moveMessage, e0, e, Stage.pc, show k ≤ c.n by omega, show k ≠ 0 by omega]
    · by_cases hkn : k = c.n
      · obtain ⟨l0, e0⟩ := hget 0 hn
        refine go (.alone 0) ?_
        simp [Group.move, moveAlone, e0, Stage.pc, hkn]
      · refine hbar 2 fun r hr => ?_
        by_cases hr0 : r = 0
        · subst hr0; simp [Stage.pc]; omega
        · simp [Stage.pc, hr0]; omega
  | allocating d =>
    by_cases hd : ∀ r < c.n, d r = true
    · exact hbar 3 fun r hr => by simp [Stage.pc, hd r hr]
    · have : ∃ r, r < c.n ∧ ¬ d r = true := by
        by_contra hno
        exact hd fun r hr => by
          by_contra hne
          exact hno ⟨r, hr, hne⟩
      obtain ⟨r, hr, hdr⟩ := this
      obtain ⟨l, e⟩ := hget r hr
      refine go (.alone r) ?_
      simp only [Group.move, moveAlone, e, Stage.pc, hdr, Bool.false_eq_true, if_false]
      split <;> rfl
  | sending k =>
    obtain ⟨hk1, hk2, -⟩ := h.fits
    by_cases hk : k < c.n
    · obtain ⟨l0, e0⟩ := hget 0 hn
      obtain ⟨l, e⟩ := hget k hk
      refine go (.message k) ?_
      simp [Group.move, moveMessage, e0, e, Stage.pc, show k ≤ c.n by omega, show k ≠ 0 by omega]
    · by_cases hkn : k = c.n
      · obtain ⟨l0, e0⟩ := hget 0 hn
        refine go (.alone 0) ?_
        simp [Group.move, moveAlone, e0, Stage.pc, hkn]
      · refine hbar 4 fun r hr => ?_
        by_cases hr0 : r = 0
        · subst hr0; simp [Stage.pc]; omega
        · simp [Stage.pc, hr0]; omega
  | compressing d =>
    by_cases hd : ∀ r < c.n, d r = true
    · have : g.ended = true := by
        unfold Group.ended
        rw [hallpc .finished fun r hr => by simp [Stage.pc, hd r hr]]
        rfl
      rw [this] at hend
      exact absurd hend (by simp)
    · have : ∃ r, r < c.n ∧ ¬ d r = true := by
        by_contra hno
        exact hd fun r hr => by
          by_contra hne
          exact hno ⟨r, hr, hne⟩
      obtain ⟨r, hr, hdr⟩ := this
      obtain ⟨l, e⟩ := hget r hr
      refine go (.alone r) ?_
      simp [Group.move, moveAlone, e, Stage.pc, hdr]
  | aborted =>
    have : g.ended = true := by
      unfold Group.ended
      rw [hallpc .stopped fun r hr => rfl]
      simp
    rw [this] at hend
    exact absurd hend (by simp)

end Sys2Proof.Machine
end

