-- ==== Sys2Proof/Laws/RoundTrip.lean ====
section
/-! SUPPORT. What the decoder makes of a Fragment that the encoder wrote, on the records alone (R154, R175). -/

namespace Sys2Proof.Machine

/-! ### The keys of a buffer as bits (R97) -/

theorem groupCount_mul (n w : Nat) (hw : 1 ≤ w) : 8 * n ≤ groupCount n w * w ∧ groupCount n w * w - 8 * n ≤ w - 1 := by
  constructor
  · by_contra h
    have := (lt_groupCount_iff n w (groupCount n w) hw).mpr (by omega)
    omega
  · rcases Nat.eq_zero_or_pos (groupCount n w) with h0 | h0
    · rw [h0]; omega
    · have h1 := (lt_groupCount_iff n w (groupCount n w - 1) hw).mp (by omega)
      have h2 : groupCount n w * w = (groupCount n w - 1) * w + w := by
        conv_lhs => rw [show groupCount n w = groupCount n w - 1 + 1 by omega]
        rw [Nat.add_mul, Nat.one_mul]
      omega

/-- Groups of a bit function, one after another, are its bits in order. -/
theorem flatMap_groups (f : Nat → Bool) (w k : Nat) (hw : w ≤ 64) :
    ((List.range k).map fun g => ofBits ((List.range w).map fun j => f (g * w + j))).flatMap (field w) =
      (List.range (k * w)).map f := by
  induction k with
  | zero => simp
  | succ k ih =>
    have h1 := field_ofBits ((List.range w).map fun j => f (k * w + j)) (by simpa using hw)
    rw [List.length_map, List.length_range] at h1
    rw [List.range_succ, List.map_append, List.flatMap_append, ih, Nat.add_mul, Nat.one_mul, List.range_add, List.map_append]
    simp only [List.map_cons, List.map_nil, List.flatMap_cons, List.flatMap_nil, List.append_nil, h1, List.map_map]
    rfl

/-- The keys of a buffer are its bits, completed with zeros to a whole group (R97). -/
theorem flatMap_keysOf (w : Nat) (hw : WidthOk w) (buf : Bytes) :
    (keysOf w buf).flatMap (field w) =
      bitsOf buf ++ List.replicate (groupCount buf.length w * w - 8 * buf.length) false := by
  have hle := (groupCount_mul buf.length w hw.1).1
  unfold keysOf
  rw [flatMap_groups (fun i => (bitsOf buf).getD i false) w _ hw.2]
  apply List.ext_getElem?
  intro i
  by_cases hi : i < 8 * buf.length
  · rw [List.getElem?_append_left (by simpa using hi), List.getElem?_map, List.getElem?_range (by omega)]
    have : i < (bitsOf buf).length := by simpa using hi
    simp [List.getD_eq_getElem?_getD, List.getElem?_eq_getElem this]
  · rw [List.getElem?_append_right (by simpa using hi), List.getElem?_replicate, bitsOf_length]
    by_cases h2 : i < groupCount buf.length w * w
    · rw [if_pos (by omega), List.getElem?_map, List.getElem?_range h2]
      have : (bitsOf buf).length ≤ i := by rw [bitsOf_length]; omega
      simp [List.getD_eq_getElem?_getD, List.getElem?_eq_none this]
    · rw [if_neg (by omega), List.getElem?_eq_none (by simpa using h2)]

theorem packBits_zeros (n : Nat) : packBits (List.replicate n false) = List.replicate ((n + 7) / 8) 0#8 := by
  apply bitsOf_injective
  rw [bitsOf_packBits, List.length_replicate, List.replicate_append_replicate]
  have h : ∀ k, bitsOf (List.replicate k 0#8) = List.replicate (8 * k) false := by
    intro k
    induction k with
    | zero => rfl
    | succ k ih =>
      rw [List.replicate_succ, bitsOf_cons, ih, Nat.mul_add, Nat.add_comm, ← List.replicate_append_replicate]
      rfl
  rw [h]
  congr 1
  omega

/-! ### The runs as run records -/

/-- Runs as the run records that the encoder writes of them. -/
def runRecords (keys counts : List Word) : List RunRecord := (keys.zip counts).map fun r => .run r.2 r.1

theorem runRecords_length (keys counts : List Word) (h : keys.length = counts.length) :
    (runRecords keys counts).length = counts.length := by
  simp [runRecords, h]

theorem runRecords_spec (rw : Nat) (keys counts : List Word) (h : keys.length = counts.length) :
    (runRecords keys counts).flatMap (RunRecord.countBits rw) = counts.flatMap (field rw) ∧
      (runRecords keys counts).flatMap RunRecord.keys = keys ∧
      (runRecords keys counts).flatMap RunRecord.output = expandRuns keys counts := by
  induction keys generalizing counts with
  | nil => cases counts <;> simp_all [runRecords, expandRuns]
  | cons k keys ih =>
    cases counts with
    | nil => simp at h
    | cons c counts =>
      obtain ⟨h1, h2, h3⟩ := ih counts (by simpa using h)
      have e : runRecords (k :: keys) (c :: counts) = .run c k :: runRecords keys counts := rfl
      rw [e]
      simp only [List.flatMap_cons, h1, h2, h3]
      exact ⟨rfl, rfl, rfl⟩

theorem runRecords_fits (rw kw : Nat) (keys counts : List Word) (hc0 : ∀ c ∈ counts, c ≠ 0#64)
    (hc : ∀ c ∈ counts, c.toNat < 2 ^ rw) (hk : ∀ k ∈ keys, k.toNat < 2 ^ kw) : ∀ r ∈ runRecords keys counts, r.Fits rw kw := by
  intro r hr
  obtain ⟨p, hp, rfl⟩ := List.mem_map.mp hr
  have := List.of_mem_zip hp
  exact ⟨hc0 _ this.2, hc _ this.2, hk _ this.1⟩

/-- Every count fits the run width, and the run width is legal (R149). -/
theorem Encoded.Describes.fits {kw np : Nat} {buf : Bytes} {keys counts : List Word} {r : Encoded}
    (h : Encoded.Describes kw np buf keys counts r) :
    WidthOk r.enc.runWidth.toNat ∧ r.enc.maxCount.toNat < 2 ^ r.enc.runWidth.toNat ∧
      ∀ c ∈ counts, c.toNat < 2 ^ r.enc.runWidth.toNat := by
  obtain ⟨h1, h2, -⟩ := runWidthOf_spec r.enc.maxCount
  rw [← h.runWidth] at h1 h2
  refine ⟨h1, h2, fun c hc => lt_of_le_of_lt ?_ h2⟩
  rw [h.maxCount]
  exact le_foldl_max _ 0 _ (.inl (List.mem_map_of_mem hc))

/-! ### The round trip -/

/-- Decoding the Fragment of a buffer completes and gives the buffer back, followed by the zero bytes of the last group's padding
(R175). -/
theorem Decoder.run_encoded (rd : Decoder) {kw np : Nat} {buf : Bytes} {keys counts : List Word} {r : Encoded}
    (hw : WidthOk kw) (hb : buf.length ≤ 2 ^ 45 - 1) (h : Encoded.Describes kw np buf keys counts r) :
    ∃ d, rd.run r.metaBytes r.dataBytes = .going d ∧
      d.out = buf ++ List.replicate ((groupCount buf.length kw * kw - 8 * buf.length + 7) / 8) 0#8 := by
  obtain ⟨hrw, -, hfit⟩ := h.fits
  have hw2 := hw.2
  have hrw2 := hrw.2
  have hgc := groupCount_le buf.length kw hw.1
  have hle := length_le_sum_of_ne_zero counts h.nonzero
  rw [h.sum] at hle
  obtain ⟨s1, s2, s3⟩ := runRecords_spec r.enc.runWidth.toNat keys counts h.lengths
  have enp : (BitVec.ofNat 8 (np % 2 ^ 8)).toNat = np % 2 ^ 8 := by rw [BitVec.toNat_ofNat]; omega
  have erw : (BitVec.ofNat 8 r.enc.runWidth.toNat).toNat = r.enc.runWidth.toNat := by rw [BitVec.toNat_ofNat]; omega
  have ekw : (BitVec.ofNat 8 kw).toNat = kw := by rw [BitVec.toNat_ofNat]; omega
  have hmeta : bitsOf r.metaBytes =
      metaBits (BitVec.ofNat 8 (np % 2 ^ 8)).toNat (runRecords keys counts).length
        (BitVec.ofNat 8 r.enc.runWidth.toNat).toNat
        ((runRecords keys counts).flatMap (RunRecord.countBits (BitVec.ofNat 8 r.enc.runWidth.toNat).toNat) ++
          List.replicate (8 * (((metaBits (np % 2 ^ 8) counts.length r.enc.runWidth.toNat
            (counts.flatMap (field r.enc.runWidth.toNat))).length + 7) / 8) -
            (metaBits (np % 2 ^ 8) counts.length r.enc.runWidth.toNat
              (counts.flatMap (field r.enc.runWidth.toNat))).length) false) := by
    rw [h.metaBytes, metaRecord, bitsOf_packBits, enp, erw, s1, runRecords_length keys counts h.lengths]
    unfold metaBits
    simp only [List.append_assoc]
  have hdata : bitsOf r.dataBytes =
      field 8 (BitVec.ofNat 64 (BitVec.ofNat 8 kw).toNat) ++
        (((runRecords keys counts).flatMap RunRecord.keys).flatMap (field (BitVec.ofNat 8 kw).toNat) ++
          List.replicate (8 * (((keys.flatMap (field kw)).length + 7) / 8) - (keys.flatMap (field kw)).length) false) := by
    rw [h.dataBytes, dataRecord, bitsOf_cons, bitsOf_packBits, byteBits_eq_field, ekw, s2]
  have hflat : ∀ (w : Nat) (l : List Word), (l.flatMap (field w)).length = l.length * w := by
    intro w l
    induction l with
    | nil => simp
    | cons x l ih => rw [List.flatMap_cons, List.length_append, ih, field_length, List.length_cons, Nat.add_mul]; omega
  have hcw : counts.length * r.enc.runWidth.toNat ≤ counts.length * 64 := Nat.mul_le_mul_left _ hrw2
  have hkw : keys.length * kw ≤ keys.length * 64 := Nat.mul_le_mul_left _ hw2
  have hkl := h.lengths
  have hm : r.metaBytes.length < 2 ^ 64 := by
    rw [h.metaBytes, metaRecord, packBits_length]
    simp only [metaBits, List.length_append, field_length, hflat]
    omega
  have hd : r.dataBytes.length < 2 ^ 64 := by
    rw [h.dataBytes, dataRecord, List.length_cons, packBits_length, hflat]
    omega
  obtain ⟨d, e, h1, -⟩ := Decoder.run_records rd hm hd (by rw [erw]; exact hrw) (by rw [ekw]; exact hw) (runRecords keys counts)
    (by rw [runRecords_length keys counts h.lengths]; omega)
    (by rw [erw, ekw]; exact runRecords_fits _ _ _ _ h.nonzero hfit h.keyFits) hmeta hdata
  refine ⟨d, e, ?_⟩
  rw [h1, ekw, s3, h.expand, flatMap_keysOf kw hw, packBits_bitsOf_append, packBits_zeros]

end Sys2Proof.Machine
end

