-- ==== Sys2Proof/Laws/Runs.lean ====
section
/-! SUPPORT. Safe runs of commands, step by step. -/

namespace Sys2Proof.Machine

/-- A run that begins with a command that ends `OK`. -/
theorem runOk_cons {i : Instr} {is : List Instr} {s t u : State} {v : Word} {ds : List Word} (h : exec i s = .next t)
    (hr : t.reply = some ⟨.ended .ok, v⟩) (h2 : runOk is t = some (u, ds)) : runOk (i :: is) s = some (u, v :: ds) := by
  simp [runOk, h, hr, h2]

/-- Two runs one after the other. -/
theorem runOk_append {is js : List Instr} {s t u : State} {ds es : List Word} (h : runOk is s = some (t, ds))
    (h2 : runOk js t = some (u, es)) : runOk (is ++ js) s = some (u, ds ++ es) := by
  induction is generalizing s ds with
  | nil => simp [runOk] at h; obtain ⟨rfl, rfl⟩ := h; simpa using h2
  | cons i is ih =>
    simp only [runOk, List.cons_append] at h ⊢
    split at h
    · split at h
      · simp only [Option.map_eq_some_iff, Prod.exists] at h
        obtain ⟨a, b, hab, he⟩ := h
        simp only [Prod.mk.injEq] at he
        obtain ⟨rfl, rfl⟩ := he
        rw [ih hab]; simp
      · simp at h
      · simp at h
    · simp at h
    · simp at h

end Sys2Proof.Machine
end

