-- ==== Sys2Proof/Tests/Slice0.lean ====
section
/-! SUPPORT. The model's own tests. Every expected value is taken from the vectors and worked examples of 95_test_vectors.md, named in the
docstring, or from the rule it names; none is the model's own answer. The last part shows, for every statement with hypotheses, a
concrete state and operands that meet them. -/

namespace Sys2Proof.Tests

open Sys2Proof Sys2Proof.Machine

/-! ### Small states -/

/-- A state after reset with `BUF_MAX = 300`, `NLANES = 3` and empty memories and sources (95_test_vectors.md: "from the reset state
with `BUF_MAX >= 300` and `NLANES >= 3`"). -/
def base : State :=
  { State.reset with
    bufMax := 300, lanes := List.replicate 3 Lane.reset, bufMem := [], vrSrc := [], rdMetaSrc := [], rdDataSrc := [], pdFile := [] }

/-- A byte list from numbers. -/
def bytes (l : List Nat) : Bytes := l.map (BitVec.ofNat 8)

/-- The buffer of RSPEC's scenario (S7). -/
def scenario : Bytes := bytes [0xFF, 0xFF, 0x00, 0x00, 0xAB]

/-- The file of program P4. -/
def file11 : Bytes := bytes [0xFF, 0xFF, 0xFF, 0, 0, 0, 0xAB, 0xAB, 0xCD, 0xCD, 0xCD]

/-- The extractor over a buffer, at a cursor. -/
def extracting (buf : Bytes) (w size cur : Nat) : State :=
  { base with bufMem := buf, bx := ⟨.ready, BitVec.ofNat 7 w, BitVec.ofNat 64 size, BitVec.ofNat 64 cur⟩ }

/-- An open packer. -/
def packing (w : Nat) (acc : Word) (fill : Nat) : State := { base with bp := ⟨.ready, BitVec.ofNat 7 w, acc, BitVec.ofNat 6 fill⟩ }

/-- A reader over a source. -/
def reading (src : Bytes) (curb : Byte) (used pos : Nat) : State :=
  { base with vrSrc := src, vr := ⟨.ready, curb, BitVec.ofNat 4 used, BitVec.ofNat 64 pos⟩ }

/-- An open writer. -/
def writing (curb : Byte) (used : Nat) : State := { base with vw := ⟨.ready, curb, BitVec.ofNat 3 used⟩ }

/-- A buffer to encode. -/
def encoding (buf : Bytes) : State := { base with bufMem := buf }

/-- A Fragment to decode. -/
def decoding (m d : Bytes) : State := { base with rdMetaSrc := m, rdDataSrc := d }

/-- A file to distribute. -/
def distributing (file : Bytes) (bufMax : Nat) : State := { base with pdFile := file, bufMax := bufMax }

/-- A latched block (V-CM-3). -/
def latched : State := { base with fault := ⟨.badState, 0x21000000#32, 0#64⟩ }

/-- The next state, if there is one. -/
def next? : Host.Outcome State Fault Refusal → Option State
  | .next t => some t
  | .fault _ => none
  | .refused _ => none

/-- What is seen of the state after a command. -/
def seen {α : Type} (i : Instr) (s : State) (f : State → α) : Option α := (next? (exec i s)).map f

/-- `OK` with a result. -/
abbrev ok (v : Word) : Option Reply := some ⟨.ended .ok, v⟩

/-! ### Well-formedness -/

/-- R60: `A` is 8 bits; the largest value is well formed, one more is not. -/
theorem test_wf_bxInit : (Instr.bxInit 255 0#64).WellFormed ∧ ¬ (Instr.bxInit 256 0#64).WellFormed := by simp [Instr.WellFormed]

/-- R60. -/
theorem test_wf_bpInit : (Instr.bpInit 255).WellFormed ∧ ¬ (Instr.bpInit 256).WellFormed := by simp [Instr.WellFormed]

/-- R60. -/
theorem test_wf_vrRead : (Instr.vrRead 255).WellFormed ∧ ¬ (Instr.vrRead 256).WellFormed := by simp [Instr.WellFormed]

/-- R60. -/
theorem test_wf_vwWrite : (Instr.vwWrite 255 0#64).WellFormed ∧ ¬ (Instr.vwWrite 256 0#64).WellFormed := by simp [Instr.WellFormed]

/-- R60: both fields are checked. -/
theorem test_wf_reEncode :
    (Instr.reEncode 255 255).WellFormed ∧ ¬ (Instr.reEncode 256 1).WellFormed ∧ ¬ (Instr.reEncode 8 256).WellFormed := by
  simp [Instr.WellFormed]

/-- R60: both fields are checked. -/
theorem test_wf_pdRun :
    (Instr.pdRun 255 255).WellFormed ∧ ¬ (Instr.pdRun 256 1).WellFormed ∧ ¬ (Instr.pdRun 8 256).WellFormed := by
  simp [Instr.WellFormed]

/-! ### Decoding: the words of V-CM-1, written bit by bit as `UNIT OP MBZ B A` (R60) -/

/-- The command the decoder reads from a word. -/
def decoded (cw : CmdWord) (din : Word) : Option Instr :=
  match decode ⟨cw, din⟩ with
  | .ok i => some i
  | .error _ => none

theorem test_decode_bxInit : decoded 0b0001_0000_00000000_00000000_00001100#32 5#64 = some (.bxInit 12 5#64) := by decide
theorem test_decode_bxHasNext : decoded 0b0001_0001_00000000_00000000_00000000#32 0#64 = some .bxHasNext := by decide
theorem test_decode_bxAdvance : decoded 0b0001_0010_00000000_00000000_00000000#32 0#64 = some .bxAdvance := by decide
theorem test_decode_bxUnused : decoded 0b0001_0011_00000000_00000000_00000000#32 0#64 = some .bxUnused := by decide
theorem test_decode_bpInit : decoded 0b0010_0000_00000000_00000000_00011000#32 0#64 = some (.bpInit 24) := by decide
theorem test_decode_bpPush : decoded 0b0010_0001_00000000_00000000_00000000#32 7#64 = some (.bpPush 7#64) := by decide
theorem test_decode_bpClose : decoded 0b0010_0010_00000000_00000000_00000000#32 0#64 = some .bpClose := by decide
theorem test_decode_vrInit : decoded 0b0011_0000_00000000_00000000_00000000#32 0#64 = some .vrInit := by decide
theorem test_decode_vrRead : decoded 0b0011_0001_00000000_00000000_00110000#32 0#64 = some (.vrRead 48) := by decide
theorem test_decode_vwInit : decoded 0b0100_0000_00000000_00000000_00000000#32 0#64 = some .vwInit := by decide
theorem test_decode_vwWrite : decoded 0b0100_0001_00000000_00000000_00000010#32 3#64 = some (.vwWrite 2 3#64) := by decide
theorem test_decode_vwClose : decoded 0b0100_0010_00000000_00000000_00000000#32 0#64 = some .vwClose := by decide
theorem test_decode_reEncode : decoded 0b0101_0000_00000000_00000011_00001000#32 0#64 = some (.reEncode 8 3) := by decide
theorem test_decode_rdDecode : decoded 0b0110_0000_00000000_00000000_00000000#32 0#64 = some .rdDecode := by decide
theorem test_decode_pdRun : decoded 0b0111_0000_00000000_00000011_00001000#32 0#64 = some (.pdRun 8 3) := by decide

/-- V-CM-2, V-CM-4: the illegal words. -/
theorem test_decode_illegal :
    [0x00000000#32, 0x80000000#32, 0x14000000#32, 0x23000000#32, 0x32000000#32, 0x43000000#32, 0x51000000#32, 0x61000000#32,
      0x71000000#32, 0x10010008#32, 0x11000001#32, 0x10000108#32, 0x60000001#32, 0x31000100#32].all
      (fun cw => decoded cw 0#64 == none) = true := by decide

/-- A table word: the command word in bits 31 to 0, `DIN` above it. -/
theorem test_table_word : decodeTableWord 96 (5 * 2 ^ 32 + 0x1000000C) = some (.bxInit 12 5#64) := by decide

/-- A table word without bits for `DIN`. -/
theorem test_table_word_short : decodeTableWord 32 0x41000002 = some (.vwWrite 2 0#64) := by decide

/-! ### One step per test -/

/-- V-BX-2: the first command. -/
theorem test_bxInit : seen (.bxInit 12 5#64) (encoding scenario) (fun t => (t.bx, t.reply)) =
    some (⟨.ready, 12#7, 5#64, 0#64⟩, ok 0#64) := by decide

/-- V-BX-11: `BX.INIT 0 ; din=6` on 5 bytes: the argument before the size. -/
theorem test_bxInit_order : seen (.bxInit 0 6#64) (encoding scenario) (fun t => (t.fault, t.bx.st)) =
    some (⟨.badArgument, 0x10000000#32, 0#64⟩, .uninit) := by decide

/-- V-BX-2: before and after the last group. -/
theorem test_bxHasNext : (seen .bxHasNext (extracting scenario 12 5 36) State.reply,
    seen .bxHasNext (extracting scenario 12 5 48) State.reply) = (some (ok 1#64), some (ok 0#64)) := by decide

/-- V-BX-7: the second group of 63 bits covers nine bytes. -/
theorem test_bxAdvance_nine_bytes :
    seen .bxAdvance (extracting (bytes [0x10, 0x11, 0x12, 0x13, 0x14, 0x15, 0x16, 0x17, 0x18, 0x19, 0x1A, 0x1B, 0x1C, 0x1D, 0x1E,
      0x1F]) 63 16 63) (fun t => (t.bx.cur, t.reply)) = some (126#64, ok 0x8C0C8D0D8E0E8F0E#64) := by
  decide +kernel

/-- V-BX-9: the bits beyond `BX.SIZE` are padding although `BUFMEM` goes on. -/
theorem test_bxAdvance_prefix : seen .bxAdvance (extracting scenario 12 2 12) (fun t => (t.bx.cur, t.reply)) =
    some (24#64, ok 0xF000000000000000#64) := by decide

/-- V-BX-2: 4 bits are left at cursor 36, none at 48. -/
theorem test_bxUnused : (seen .bxUnused (extracting scenario 12 5 36) State.reply,
    seen .bxUnused (extracting scenario 12 5 48) State.reply) = (some (ok 4#64), some (ok 0#64)) := by decide

/-- V-BP-8: `BP.INIT 8` when open; `BP.INIT 0` when open. -/
theorem test_bpInit_faults : (seen (.bpInit 8) (packing 8 0#64 0) State.fault, seen (.bpInit 0) (packing 8 0#64 0) State.fault) =
    (some ⟨.badState, 0x20000008#32, 1#64⟩, some ⟨.badArgument, 0x20000000#32, 0#64⟩) := by decide

/-- V-BP-8: a closed packer may be opened again. -/
theorem test_bpInit_again : seen (.bpInit 3) { base with bp := ⟨.closed, 8#7, 0#64, 0#6⟩ } (fun t => (t.bp, t.reply)) =
    some (⟨.ready, 3#7, 0#64, 0#6⟩, ok 0#64) := by decide

/-- V-BP-5: the second push emits a word and keeps 16 bits. -/
theorem test_bpPush_emits : seen (.bpPush 0x1122334455#64) (packing 40 0xAABBCCDDEE000000#64 40) (fun t => (t.bp, t.bpSink)) =
    some (⟨.ready, 40#7, 0x4455000000000000#64, 16#6⟩, bytes [0xAA, 0xBB, 0xCC, 0xDD, 0xEE, 0x11, 0x22, 0x33]) := by decide

/-- V-BP-1: only the low 3 bits count. -/
theorem test_bpPush_masks : seen (.bpPush 0xFFFFFFFFFFFFFFF9#64) (packing 3 0xAB80000000000000#64 9) (fun t => (t.bp, t.bpSink)) =
    some (⟨.ready, 3#7, 0xAB90000000000000#64, 12#6⟩, []) := by decide

/-- V-BP-6: 15 pending bits close to two bytes. -/
theorem test_bpClose : seen .bpClose (packing 5 0xF82A000000000000#64 15) (fun t => (t.bp, t.bpSink)) =
    some (⟨.closed, 5#7, 0#64, 0#6⟩, bytes [0xF8, 0x2A]) := by decide

/-- V-BP-4: 62 zero bits close to eight bytes. -/
theorem test_bpClose_zeros : seen .bpClose (packing 63 0#64 62) (fun t => t.bpSink) = some (bytes [0, 0, 0, 0, 0, 0, 0, 0]) := by
  decide

/-- V-VR-1: the first command, here on a reader already in use. -/
theorem test_vrInit : seen .vrInit (reading (bytes [0xA5, 0x3C]) 0x3C#8 2 2) (fun t => (t.vr, t.reply)) =
    some (⟨.ready, 0#8, 8#4, 0#64⟩, ok 0#64) := by decide

/-- V-VR-1: a read across a byte boundary. -/
theorem test_vrRead : seen (.vrRead 7) (reading (bytes [0xA5, 0x3C]) 0xA5#8 3 1) (fun t => (t.vr, t.reply)) =
    some (⟨.ready, 0x3C#8, 2#4, 2#64⟩, ok 0x14#64) := by decide

/-- V-VR-3: all or nothing. -/
theorem test_vrRead_underrun : seen (.vrRead 14) (reading (bytes [0xA5, 0x3C]) 0xA5#8 3 1) (fun t => (t.vr, t.fault)) =
    some (⟨.ready, 0xA5#8, 3#4, 1#64⟩, ⟨.sourceUnderrun, 0x3100000E#32, 1#64⟩) := by decide

/-- V-VW-5: `VW.INIT` when open. -/
theorem test_vwInit_open : seen .vwInit (writing 0#8 0) State.fault = some ⟨.badState, 0x40000000#32, 1#64⟩ := by decide

/-- V-VW-1: the second write fills a byte. -/
theorem test_vwWrite : seen (.vwWrite 7 0x14#64) (writing 0xA0#8 3) (fun t => (t.vw, t.vwSink)) =
    some (⟨.ready, 0#8, 2#3⟩, bytes [0xA5]) := by decide

/-- V-VW-4: only the low 3 bits count. -/
theorem test_vwWrite_masks : seen (.vwWrite 3 0xFD#64) (writing 0#8 0) (fun t => (t.vw, t.vwSink)) =
    some (⟨.ready, 0xA0#8, 3#3⟩, []) := by decide

/-- V-VW-2: the partial byte is flushed. -/
theorem test_vwClose : seen .vwClose (writing 0xA4#8 6) (fun t => (t.vw, t.vwSink)) =
    some (⟨.closed, 0#8, 0#3⟩, bytes [0xA4]) := by decide

/-- V-RE-4: keys of 3 bits, the last one padded, and the last run flushed. -/
theorem test_reEncode : seen (.reEncode 3 1) (encoding scenario) (fun t => (t.reDataSink, t.reMetaSink, t.reply)) =
    some (bytes [0x03, 0xF0, 0x15, 0x60], bytes [0x01, 0, 0, 0, 0, 0, 0x07, 0x03, 0xA6, 0x12, 0x48], ok 7#64) := by decide +kernel

/-- P2: the encoder's state after `RE.ENCODE 8, 1`. -/
theorem test_reEncode_state :
    seen (.reEncode 8 1) (encoding scenario) (fun t => (t.re.maxCount, t.re.last, t.re.count, t.re.rcs)) =
      some (2#64, 0xAB00000000000000#64, 1#64, []) := by decide +kernel

/-- V-RD-2: an escape with three literals, then a run. -/
theorem test_rdDecode_escape :
    seen .rdDecode (decoding (bytes [0x01, 0, 0, 0, 0, 0, 0x02, 0x04, 0x03, 0x20]) (bytes [0x08, 0x11, 0x22, 0x33, 0x44]))
      (fun t => (t.rdOutSink, t.rd.i, t.reply)) = some (bytes [0x11, 0x22, 0x33, 0x44, 0x44], 2#48, ok 0#64) := by decide +kernel

/-- V-RD-8: an underrun on the data source leaves the partial output. -/
theorem test_rdDecode_underrun :
    seen .rdDecode (decoding (bytes [0x01, 0, 0, 0, 0, 0, 0x02, 0x02, 0xA0]) (bytes [0x08, 0xFF]))
      (fun t => (t.rdOutSink, t.rd.i, t.fault)) =
      some (bytes [0xFF, 0xFF], 1#48, ⟨.sourceUnderrun, 0x60000000#32, 1#64⟩) := by decide +kernel

/-- P4: three lanes, each with its Fragment. -/
theorem test_pdRun :
    seen (.pdRun 8 3) (distributing file11 300) (fun t => t.lanes.map fun l => (l.size, l.dataSink, l.metaSink)) =
      some [(3#64, bytes [0x08, 0xFF], bytes [3, 0, 0, 0, 0, 0, 1, 2, 0xC0]),
        (3#64, bytes [0x08, 0x00], bytes [3, 0, 0, 0, 0, 0, 1, 2, 0xC0]),
        (5#64, bytes [0x08, 0xAB, 0xCD], bytes [3, 0, 0, 0, 0, 0, 2, 2, 0xB0])] := by decide +kernel

/-- V-PD-7: with `BUF_MAX = 4` lane 2 fails and the whole group is aborted. -/
theorem test_pdRun_abort :
    seen (.pdRun 8 3) (distributing file11 4) (fun t => (t.fault, t.lanes.map fun l => (l.phase, l.size, l.buf))) =
      some (⟨.resource, 0x70000308#32, 5#64⟩, [(.aborted, 3#64, []), (.aborted, 3#64, []), (.aborted, 5#64, [])]) := by
  decide +kernel

/-- V-CM-3: a latched block refuses a legal and an illegal word. -/
theorem test_latched :
    ((next? (step { latched with pending := [.command ⟨0x20000008#32, 0#64⟩] })).map fun t => (t.reply, t.bp.st, t.fault),
      (next? (step { latched with pending := [.command ⟨0#32, 0#64⟩] })).map fun t => (t.reply, t.bp.st, t.fault)) =
      (some (some ⟨.refused, 0#64⟩, .uninit, ⟨.badState, 0x21000000#32, 0#64⟩),
        some (some ⟨.refused, 0#64⟩, .uninit, ⟨.badState, 0x21000000#32, 0#64⟩)) := by decide

/-- R245: reset clears the latch and leaves the memories that the host loaded. -/
theorem test_reset_event :
    (next? (step { latched with bufMem := scenario, pending := [.reset] })).map (fun t => (t.fault, t.bufMem, t.bp.st)) =
      some (⟨.ok, 0#32, 0#64⟩, scenario, .uninit) := by decide

/-! ### Witnesses: states and operands that meet the hypotheses of the statements, one for each clause -/

/-- A state in which the host's next action is the command. -/
def presenting (s : State) (cw : CmdWord) : State := { s with pending := [.command ⟨cw, 0#64⟩] }

theorem test_hyps_DecodeInvertsEncode : (Instr.pdRun 255 0).WellFormed ∧ (Instr.bxInit 0 0xFFFFFFFFFFFFFFFF#64).WellFormed := by
  simp [Instr.WellFormed]

theorem test_hyps_EncodeInvertsDecode : decode ⟨0x500000FF#32, 9#64⟩ = .ok (.reEncode 255 0) := by rfl

theorem test_hyps_OpcodeRowsAreDisjoint :
    opcodeRow .bxInit ∈ opcodeTable ∧ (opcodeRow .bxInit).covers 0x100000FF#32 = true := by decide

/-- A word for each of the eight reasons of R66, and a clear state that presents one. -/
theorem test_hyps_IllegalWordsRaiseIllegalCommand :
    (unitField 0x00000000#32 = 0 ∧ 8 ≤ unitField 0x80000000#32 ∧ (unitField 0x14000000#32 = 1 ∧ 4 ≤ opField 0x14000000#32) ∧
      (unitField 0x43000000#32 = 4 ∧ 3 ≤ opField 0x43000000#32) ∧ (unitField 0x32000000#32 = 3 ∧ 2 ≤ opField 0x32000000#32) ∧
      (unitField 0x71000000#32 = 7 ∧ 1 ≤ opField 0x71000000#32) ∧ mbzField 0x10010008#32 ≠ 0 ∧
      (argA 0x11000001#32 ≠ 0 ∧ (unitField 0x11000001#32, opField 0x11000001#32) = (1, 1)) ∧
      (argB 0x10000108#32 ≠ 0 ∧ (unitField 0x10000108#32, opField 0x10000108#32) = (1, 0))) ∧
    (presenting base 0x10010008#32).Clear ∧ (presenting base 0x10010008#32).pending = [.command ⟨0x10010008#32, 0#64⟩] ∧
    decode ⟨0x10010008#32, 0#64⟩ = .error .mbzNonzero := by
  refine ⟨by decide, rfl, rfl, rfl⟩

theorem test_hyps_DinReachesOnlyThreeCommands :
    decode ⟨0x21000000#32, 7#64⟩ = .ok (.bpPush 7#64) ∧ decode ⟨0x22000000#32, 7#64⟩ = .ok .bpClose ∧
    (∀ k < (packing 3 0#64 0).bp.width.toNat, (0xF9#64).getLsbD k = (1#64).getLsbD k) ∧
    (∀ k < 3, (0xFD#64).getLsbD k = (5#64).getLsbD k) := by
  refine ⟨rfl, rfl, by decide, by decide⟩

theorem test_hyps_StepRunsTheDecodedCommand :
    (presenting base 0x21000000#32).pending = [.command ⟨0x21000000#32, 0#64⟩] ∧
    decode ⟨0x21000000#32, 0#64⟩ = .ok (.bpPush 0#64) ∧ decodeTableWord 32 0x70000308 = some (.pdRun 8 3) := by
  refine ⟨rfl, rfl, by decide⟩

/-- Loads at the limits of `BUF_MAX = 300` and of `2^64`, an empty list of actions, the last lane. -/
theorem test_hyps_HostActionsChangeOnlyWhatTheyName :
    base.pending = [] ∧ (List.replicate 300 0#8).length ≤ base.bufMax ∧ base.bufMax < (List.replicate 301 0#8).length ∧
    (List.replicate (2 ^ 64 - 1) 0#8).length < 2 ^ 64 ∧ 2 ^ 64 ≤ (List.replicate (2 ^ 64) 0#8).length ∧
    base.lanes[2]? = some Lane.reset := by
  refine ⟨rfl, ?_, ?_, ?_, ?_, rfl⟩ <;> rw [List.length_replicate] <;> decide

theorem test_hyps_LatchedBlockRefusesEveryCommand :
    ¬ (presenting latched 0x20000008#32).Clear ∧ (presenting latched 0x20000008#32).pending = [.command ⟨0x20000008#32, 0#64⟩] ∧
    (∃ t, step (presenting latched 0x20000008#32) = .next t) ∧ HostAction.command ⟨0x20000008#32, 0#64⟩ ≠ .reset := by
  refine ⟨by decide, rfl, ⟨_, rfl⟩, by decide⟩

/-- A primitive command that faults, and the two composite commands whose state after a fault is not the one before it. -/
theorem test_hyps_FaultsArePrecise :
    (base.Clear ∧ ∃ t, exec (.bpPush 1#64) base = .next t ∧ ¬ t.Clear) ∧
    (base.Clear ∧ ∃ t, exec .rdDecode base = .next t ∧ ¬ t.Clear) ∧
    (base.Clear ∧ ∃ t, exec (.pdRun 8 4) base = .next t ∧ ¬ t.Clear) := by
  refine ⟨⟨rfl, _, rfl, by decide⟩, ⟨rfl, _, rfl, by decide⟩, ⟨rfl, _, rfl, by decide⟩⟩

/-- The states of the clauses, by the unit they look at; widths 0 and 65 and the widest legal width. -/
theorem test_hyps_ChecksComeInTheOrderOfTheSpec :
    base.Clear ∧ ¬ WidthOk 0 ∧ ¬ WidthOk 65 ∧ WidthOk 1 ∧ WidthOk 64 ∧ base.bufMem.length < (1#64).toNat ∧ base.bx.st ≠ .ready ∧
    ((extracting scenario 8 5 40).Clear ∧ (extracting scenario 8 5 40).bx.st = .ready ∧
      8 * (extracting scenario 8 5 40).bx.size.toNat ≤ (extracting scenario 8 5 40).bx.cur.toNat) ∧
    ((packing 8 0#64 0).Clear ∧ (packing 8 0#64 0).bp.st = .ready) ∧ base.bp.st ≠ .ready ∧ base.vr.st ≠ .ready ∧
    ((reading scenario 0#8 8 0).Clear ∧ (reading scenario 0#8 8 0).vr.st = .ready ∧
      ((reading scenario 0#8 8 0).vr.unread scenario).length < 41) ∧
    ((writing 0#8 0).Clear ∧ (writing 0#8 0).vw.st = .ready) ∧ base.vw.st ≠ .ready ∧
    ¬ (1 ≤ 0 ∧ 0 ≤ base.lanes.length) ∧ ¬ (1 ≤ 4 ∧ 4 ≤ base.lanes.length) := by
  decide

/-- Every command answers a next state; here a composite one. -/
theorem test_hyps_CommandsChangeOnlyTheirOwnUnit :
    (∃ t, exec (.bxInit 8 0#64) base = .next t) ∧ (∃ t, exec .bxHasNext base = .next t) ∧ (∃ t, exec .bxAdvance base = .next t) ∧
    (∃ t, exec .bxUnused base = .next t) ∧ (∃ t, exec (.bpInit 8) base = .next t) ∧ (∃ t, exec (.bpPush 0#64) base = .next t) ∧
    (∃ t, exec .bpClose base = .next t) ∧ (∃ t, exec .vrInit base = .next t) ∧ (∃ t, exec (.vrRead 8) base = .next t) ∧
    (∃ t, exec .vwInit base = .next t) ∧ (∃ t, exec (.vwWrite 8 0#64) base = .next t) ∧ (∃ t, exec .vwClose base = .next t) ∧
    (∃ t, exec (.reEncode 8 0) base = .next t) ∧ (∃ t, exec .rdDecode base = .next t) ∧ (∃ t, exec (.pdRun 8 1) base = .next t) := by
  refine ⟨⟨_, rfl⟩, ⟨_, rfl⟩, ⟨_, rfl⟩, ⟨_, rfl⟩, ⟨_, rfl⟩, ⟨_, rfl⟩, ⟨_, rfl⟩, ⟨_, rfl⟩, ⟨_, rfl⟩, ⟨_, rfl⟩, ⟨_, rfl⟩,
    ⟨_, rfl⟩, ⟨_, rfl⟩, ⟨_, rfl⟩, ⟨_, rfl⟩⟩

/-- An open packer and a buffer to encode (V-RE-13). -/
theorem test_hyps_CommandsOfDifferentUnitsCommute :
    unitField (opcodeRow (Instr.bpPush 0x11#64).opcode).matchBits ≠ unitField (opcodeRow (Instr.reEncode 8 1).opcode).matchBits ∧
    (packing 8 0#64 0).Clear ∧ (∃ t, exec (.bpPush 0x11#64) (packing 8 0#64 0) = .next t ∧ t.Clear) ∧
    (∃ t, exec (.reEncode 8 1) (packing 8 0#64 0) = .next t ∧ t.Clear) := by
  refine ⟨by decide, rfl, ⟨_, rfl, by decide⟩, ⟨_, rfl, by decide⟩⟩

/-- A command that is no composite one, an accepted and a refused form of each composite command with arguments. -/
theorem test_hyps_SinksChangeOnlyByTheirOwnCommands :
    (∃ t, exec .bpClose (packing 5 0xF82A000000000000#64 15) = .next t) ∧
    (∀ a b, Instr.bpClose ≠ .reEncode a b) ∧ Instr.bpClose ≠ .rdDecode ∧ (∀ a b, Instr.bpClose ≠ .pdRun a b) ∧
    base.Clear ∧ WidthOk 64 ∧ ¬ WidthOk 65 ∧ (∃ t, exec (.reEncode 65 1) base = .next t) ∧
    (1 ≤ 3 ∧ 3 ≤ base.lanes.length) ∧ ¬ (WidthOk 8 ∧ 1 ≤ 4 ∧ 4 ≤ base.lanes.length) ∧
    (∃ t, exec (.pdRun 8 4) base = .next t) := by
  refine ⟨⟨_, rfl⟩, by simp, by simp, by simp, rfl, by decide, by decide, ⟨_, rfl⟩, by decide, by decide, ⟨_, rfl⟩⟩

theorem test_hyps_BxInitStartsTheExtractor : (encoding scenario).Clear ∧ (encoding scenario).bufMem.length = (5#64).toNat := by decide

theorem test_hyps_BxHasNextTellsWhetherABitRemains :
    (extracting scenario 8 5 39).Clear ∧ (extracting scenario 8 5 39).bx.st = .ready := by decide

/-- The common hypotheses with each clause's own: not initialised, at the end, at the last bit. -/
theorem test_hyps_BxAdvanceReturnsTheNextGroup :
    ((extracting scenario 64 5 39).Clear ∧ WidthOk (extracting scenario 64 5 39).bx.step.toNat ∧
      (extracting scenario 64 5 39).bx.cur.toNat + (extracting scenario 64 5 39).bx.step.toNat < 2 ^ 64 ∧
      (extracting scenario 64 5 39).bx.size.toNat ≤ (extracting scenario 64 5 39).bufMem.length ∧
      (extracting scenario 64 5 39).bx.st = .ready ∧
      (extracting scenario 64 5 39).bx.cur.toNat < 8 * (extracting scenario 64 5 39).bx.size.toNat) ∧
    ((extracting scenario 1 5 40).Clear ∧ WidthOk (extracting scenario 1 5 40).bx.step.toNat ∧
      (extracting scenario 1 5 40).bx.size.toNat ≤ (extracting scenario 1 5 40).bufMem.length ∧
      (extracting scenario 1 5 40).bx.st = .ready ∧
      8 * (extracting scenario 1 5 40).bx.size.toNat ≤ (extracting scenario 1 5 40).bx.cur.toNat) ∧
    (WidthOk (1#7).toNat ∧ ({ base with bx := ⟨.uninit, 1#7, 0#64, 0#64⟩ } : State).Clear ∧
      ({ base with bx := ⟨.uninit, 1#7, 0#64, 0#64⟩ } : State).bx.st ≠ .ready) := by
  decide

/-- `BUFMEM` shortened to 5 bytes under a `BX.SIZE` of 8: the group of bits 36 to 99 has four bits below the new length. -/
theorem test_hyps_BxAdvanceOnAShortenedBufferRuns :
    (extracting scenario 64 8 36).Clear ∧ (extracting scenario 64 8 36).bx.st = .ready ∧
    WidthOk (extracting scenario 64 8 36).bx.step.toNat ∧
    (extracting scenario 64 8 36).bx.cur.toNat + (extracting scenario 64 8 36).bx.step.toNat < 2 ^ 64 ∧
    (extracting scenario 64 8 36).bx.cur.toNat < 8 * (extracting scenario 64 8 36).bx.size.toNat ∧
    (extracting scenario 64 8 36).bufMem.length < (extracting scenario 64 8 36).bx.size.toNat ∧
    36 + 3 < 8 * scenario.length := by
  decide

theorem test_hyps_BxUnusedCountsTheRemainingBits :
    (extracting scenario 12 5 48).Clear ∧ 8 * (extracting scenario 12 5 48).bx.size.toNat < 2 ^ 64 ∧
    (extracting scenario 12 5 48).bx.st = .ready ∧ 8 * base.bx.size.toNat < 2 ^ 64 ∧ base.bx.st ≠ .ready := by
  decide

theorem test_hyps_BxGroupsReproduceTheBuffer :
    (encoding scenario).Clear ∧ WidthOk 64 ∧ WidthOk 8 ∧ 5 ≤ (encoding scenario).bufMem.length ∧ 5 ≤ 2 ^ 45 - 1 := by decide

/-- Bytes 1 to 4 count for the group of bits 12 to 23 of two bytes: only byte 1. -/
theorem test_hyps_BxAdvanceReadsOnlyTheBytesOfItsGroup :
    (extracting scenario 12 2 12).Clear ∧ (extracting scenario 12 2 12).bx.st = .ready ∧
    WidthOk (extracting scenario 12 2 12).bx.step.toNat ∧
    (extracting scenario 12 2 12).bx.size.toNat ≤ (extracting scenario 12 2 12).bufMem.length ∧
    (extracting scenario 12 2 12).bx.size.toNat ≤ (bytes [7, 0xFF, 9]).length ∧
    (∀ a, (extracting scenario 12 2 12).bx.cur.toNat / 8 ≤ a →
      a ≤ ((extracting scenario 12 2 12).bx.cur.toNat + (extracting scenario 12 2 12).bx.step.toNat - 1) / 8 →
      a < (extracting scenario 12 2 12).bx.size.toNat →
      (extracting scenario 12 2 12).bufMem[a]? = (bytes [7, 0xFF, 9])[a]?) := by
  refine ⟨by decide, by decide, by decide, by decide, by decide, ?_⟩
  intro a h1 _ h2
  have h1 : 1 ≤ a := h1
  have h2 : a < 2 := h2
  obtain rfl : a = 1 := by omega
  rfl

theorem test_hyps_BpInitOpensThePacker : base.Clear ∧ WidthOk 64 ∧ (packing 8 0#64 0).Clear ∧ (packing 8 0#64 0).bp.st = .ready := by
  decide

/-- An open packer whose accumulator is full but for one bit (V-BP-4). -/
theorem packing_inv : (packing 63 0xFFFFFFFFFFFFFFFE#64 63).bp.Inv := ⟨by decide, by decide, by decide⟩

theorem test_hyps_BpPushAppendsTheLowBits :
    (packing 63 0xFFFFFFFFFFFFFFFE#64 63).Clear ∧ (packing 63 0xFFFFFFFFFFFFFFFE#64 63).bp.st = .ready ∧
    (packing 63 0xFFFFFFFFFFFFFFFE#64 63).bp.Inv ∧ base.Clear ∧ base.bp.st ≠ .ready :=
  ⟨rfl, rfl, packing_inv, rfl, by decide⟩

theorem test_hyps_BpCloseFlushesThePendingBits :
    (packing 63 0xFFFFFFFFFFFFFFFE#64 63).Clear ∧ (packing 63 0xFFFFFFFFFFFFFFFE#64 63).bp.st = .ready ∧
    (packing 63 0xFFFFFFFFFFFFFFFE#64 63).bp.Inv ∧ base.Clear ∧ base.bp.st ≠ .ready :=
  ⟨rfl, rfl, packing_inv, rfl, by decide⟩

theorem test_hyps_PackerWritesItsFieldsBackToBack : base.Clear ∧ WidthOk 64 ∧ base.bp.st ≠ .ready ∧ base.vw.st ≠ .ready := by decide

theorem test_hyps_PackerEmitsOnlyWholeWords : base.Clear ∧ WidthOk 1 ∧ base.bp.st ≠ .ready := by decide

theorem test_hyps_VrInitRewindsTheReader : (reading scenario 0xFF#8 8 1).Clear := rfl

/-- V-VR-3: 13 bits are left; 13 can be read and 14 cannot. -/
theorem test_hyps_VrReadTakesTheNextBits :
    (reading (bytes [0xA5, 0x3C]) 0xA5#8 3 1).Clear ∧ ¬ WidthOk 0 ∧ ¬ WidthOk 65 ∧ base.Clear ∧ base.vr.st ≠ .ready ∧ WidthOk 13 ∧
    WidthOk 14 ∧ (reading (bytes [0xA5, 0x3C]) 0xA5#8 3 1).vr.st = .ready ∧
    (reading (bytes [0xA5, 0x3C]) 0xA5#8 3 1).vr.used.toNat ≤ 8 ∧
    (reading (bytes [0xA5, 0x3C]) 0xA5#8 3 1).vrSrc.length < 2 ^ 64 ∧
    ((reading (bytes [0xA5, 0x3C]) 0xA5#8 3 1).vr.unread (bytes [0xA5, 0x3C])).length = 13 := by
  decide

theorem test_hyps_SuccessiveReadsFollowTheStream :
    (reading scenario 0#8 8 0).Clear ∧ (∀ w ∈ [1, 38, 1], WidthOk w) ∧ (reading scenario 0#8 8 0).vrSrc.length < 2 ^ 64 ∧
    [1, 38, 1].sum ≤ 8 * (reading scenario 0#8 8 0).vrSrc.length := by
  decide

theorem test_hyps_VwInitOpensTheWriter : base.Clear ∧ base.vw.st ≠ .ready ∧ (writing 0#8 0).vw.st = .ready := by decide

/-- A writer with seven bits of its byte produced. -/
theorem writing_inv : (writing 0xFE#8 7).vw.Inv := ⟨by decide, by decide⟩

theorem test_hyps_VwWriteAppendsTheLowBits :
    (writing 0xFE#8 7).Clear ∧ ¬ WidthOk 0 ∧ ¬ WidthOk 65 ∧ WidthOk 1 ∧ WidthOk 64 ∧ (writing 0xFE#8 7).vw.st = .ready ∧
    (writing 0xFE#8 7).vw.Inv ∧ base.Clear ∧ base.vw.st ≠ .ready :=
  ⟨rfl, by decide, by decide, by decide, by decide, rfl, writing_inv, rfl, by decide⟩

theorem test_hyps_VwCloseFlushesThePartialByte :
    (writing 0xFE#8 7).Clear ∧ (writing 0xFE#8 7).vw.st = .ready ∧ (writing 0xFE#8 7).vw.Inv ∧ base.Clear ∧ base.vw.st ≠ .ready :=
  ⟨rfl, rfl, writing_inv, rfl, by decide⟩

/-- The fields of V-VW-3. -/
def fields : List (Nat × Word) := [(4, 0xF#64), (64, 0x0123456789ABCDEF#64), (1, 1#64)]

theorem test_hyps_WriterWritesItsFieldsBackToBack :
    base.Clear ∧ (∀ f ∈ fields, WidthOk f.1) ∧ base.vw.st ≠ .ready ∧
    (WidthOk 64 ∧ (∀ f ∈ [(64, 1#64), (64, 2#64)], WidthOk f.1 ∧ f.1 = 64) ∧ base.bp.st ≠ .ready) := by decide

theorem test_hyps_ReadingInvertsWriting :
    base.Clear ∧ (∀ f ∈ fields, WidthOk f.1) ∧ base.vw.st ≠ .ready ∧ base.vwSink = [] ∧ (fields.map Prod.fst).sum < 2 ^ 64 := by
  decide

theorem test_hyps_EncodeProducesTheFragmentOfTheRuns :
    (encoding scenario).Clear ∧ WidthOk 3 ∧ (encoding scenario).bufMem.length ≤ 2 ^ 45 - 1 := by decide

theorem test_hyps_RunWidthIsTheLeastThatFits :
    (encoding scenario).Clear ∧ WidthOk 1 ∧ (encoding scenario).bufMem.length ≤ 2 ^ 45 - 1 := by decide

theorem test_hyps_EncodeOfAnEmptyBuffer : base.Clear ∧ WidthOk 8 ∧ base.bufMem = [] := by decide

/-- V-RE-2: six equal bytes. -/
theorem test_hyps_EqualKeysMakeOneRun :
    (encoding (bytes [7, 7, 7, 7, 7, 7])).Clear ∧ WidthOk 8 ∧ (encoding (bytes [7, 7, 7, 7, 7, 7])).bufMem.length ≤ 2 ^ 45 - 1 ∧
    1 ≤ 6 ∧ keysOf 8 (encoding (bytes [7, 7, 7, 7, 7, 7])).bufMem = List.replicate 6 7#64 := by
  decide +kernel

/-- V-RD-2: an escape with three literals and a run of two, 4 padding bits in the meta source. -/
theorem test_hyps_DecodeExpandsTheRunRecords :
    (decoding (bytes [0x01, 0, 0, 0, 0, 0, 0x02, 0x04, 0x03, 0x20]) (bytes [0x08, 0x11, 0x22, 0x33, 0x44])).Clear ∧ 1 < 2 ^ 8 ∧
    WidthOk 8 ∧ WidthOk 4 ∧
    (∀ r ∈ [RunRecord.escape [0x11#64, 0x22#64, 0x33#64], .run 2#64 0x44#64], r.Fits 4 8) ∧
    bitsOf (bytes [0x01, 0, 0, 0, 0, 0, 0x02, 0x04, 0x03, 0x20]) =
      metaBits 1 2 4 ([RunRecord.escape [0x11#64, 0x22#64, 0x33#64], .run 2#64 0x44#64].flatMap (RunRecord.countBits 4)) ++
        [false, false, false, false] ∧
    bitsOf (bytes [0x08, 0x11, 0x22, 0x33, 0x44]) =
      field 8 8#64 ++
        ([RunRecord.escape [0x11#64, 0x22#64, 0x33#64], .run 2#64 0x44#64].flatMap RunRecord.keys).flatMap (field 8) ++ [] := by
  refine ⟨rfl, by decide, by decide, by decide, by simp [RunRecord.Fits], by decide +kernel, by decide +kernel⟩

/-- V-RD-10: a run width of 0; a key width of 65. -/
theorem test_hyps_DecodeRejectsBadHeaders :
    (decoding (bytes [0x01, 0, 0, 0, 0, 0, 0x03, 0x00, 0xA4]) (bytes [0x08])).Clear ∧
    (bytes [0x01, 0, 0, 0, 0, 0, 0x03, 0x00, 0xA4])[7]? = some 0#8 ∧ (bytes [0x08])[0]? = some 8#8 ∧
    ¬ (WidthOk (0#8).toNat ∧ WidthOk (8#8).toNat) ∧
    (bytes [0x01, 0, 0, 0, 0, 0, 0x03, 0x02, 0xA4])[7]? = some 2#8 ∧ (bytes [0x41])[0]? = some 65#8 ∧
    ¬ (WidthOk (2#8).toNat ∧ WidthOk (65#8).toNat) := by
  decide

/-- V-RD-9: the header cut; no data; the body missing. -/
theorem test_hyps_DecodeUnderrunNamesItsSource :
    ((decoding (bytes [1, 0, 0, 0, 0, 0, 3]) []).Clear ∧ (decoding (bytes [1, 0, 0, 0, 0, 0, 3]) []).rdMetaSrc.length < 8) ∧
    ((decoding (bytes [1, 0, 0, 0, 0, 0, 3, 2]) []).Clear ∧
      8 ≤ (decoding (bytes [1, 0, 0, 0, 0, 0, 3, 2]) []).rdMetaSrc.length ∧
      (decoding (bytes [1, 0, 0, 0, 0, 0, 3, 2]) []).rdMetaSrc.length < 2 ^ 64 ∧
      (decoding (bytes [1, 0, 0, 0, 0, 0, 3, 2]) []).rdDataSrc = []) ∧
    ((decoding (bytes [1, 0, 0, 0, 0, 0, 3, 2]) (bytes [8])).rdMetaSrc.length = 8 ∧
      (decoding (bytes [1, 0, 0, 0, 0, 0, 3, 2]) (bytes [8])).rdDataSrc.length < 2 ^ 64 ∧
      (bytes [1, 0, 0, 0, 0, 0, 3, 2])[7]? = some 2#8 ∧ (bytes [8])[0]? = some 8#8 ∧
      WidthOk (2#8).toNat ∧ WidthOk (8#8).toNat ∧
      (((bitsOf (bytes [1, 0, 0, 0, 0, 0, 3, 2])).drop 8).take 48).any id = true) := by
  decide +kernel

/-- Run records cut short at each kind of field with 8-bit keys and 4-bit counts: no count, three of four bits of a literal count, no key
for a run of 15, two of three literals. -/
theorem test_hyps_cut_short :
    CutShort 4 8 [] [] [] [] [] 0#64 ∧
    CutShort 4 8 (field 4 0#64 ++ [true, true, true]) [] [] [true, true, true] [] 0#64 ∧
    CutShort 4 8 (field 4 15#64 ++ []) [false] [] [] [false] 1#64 ∧
    CutShort 4 8 (field 4 0#64 ++ field 4 (BitVec.ofNat 64 3) ++ []) ([0x11#64, 0xFF#64].flatMap (field 8) ++ []) [0x11#64, 0xFF#64]
      [] [] 1#64 :=
  ⟨.count (by decide), .literalCount (by decide), .runKey (by decide) (by decide) (by decide),
    .literalKey (by decide) (by decide) (by simp) (by decide)⟩

/-- V-RD-8: after one whole record the key of the second is missing, with 4 padding bits left of the meta source. -/
theorem test_hyps_DecodeUnderrunNamesItsSource_body :
    (decoding (bytes [0x01, 0, 0, 0, 0, 0, 0x02, 0x02, 0xA0]) (bytes [0x08, 0xFF])).Clear ∧ 1 < 2 ^ 8 ∧ WidthOk 8 ∧ WidthOk 2 ∧
    [RunRecord.run 2#64 0xFF#64].length < 2 ∧ 2 < 2 ^ 48 ∧ (∀ r ∈ [RunRecord.run 2#64 0xFF#64], r.Fits 2 8) ∧
    CutShort 2 8 (field 2 2#64 ++ [false, false, false, false]) [] [] [false, false, false, false] [] 1#64 ∧
    bitsOf (bytes [0x01, 0, 0, 0, 0, 0, 0x02, 0x02, 0xA0]) =
      metaBits 1 2 2 ([RunRecord.run 2#64 0xFF#64].flatMap (RunRecord.countBits 2) ++
        (field 2 2#64 ++ [false, false, false, false])) ∧
    bitsOf (bytes [0x08, 0xFF]) =
      field 8 (BitVec.ofNat 64 8) ++ ([RunRecord.run 2#64 0xFF#64].flatMap RunRecord.keys).flatMap (field 8) ++ [] := by
  refine ⟨rfl, by decide, by decide, by decide, by decide, by decide, by simp [RunRecord.Fits],
    .runKey (by decide) (by decide) (by decide), by decide +kernel, by decide +kernel⟩

theorem test_hyps_DecodeInvertsEncodeOfABuffer :
    (encoding scenario).Clear ∧ WidthOk 3 ∧ (encoding scenario).bufMem.length ≤ 2 ^ 45 - 1 := by decide

theorem test_hyps_LaneRangesCoverTheFile : 1 ≤ 3 ∧ 2 < 3 ∧ 1 + 1 < 3 := by decide

/-- P4 with the smallest `BUF_MAX` that fits, on all lanes of the block, and on fewer. -/
theorem test_hyps_PdRunLeavesEveryLaneItsFragment :
    (distributing file11 5).Clear ∧ WidthOk 8 ∧ 1 ≤ 3 ∧ 3 ≤ (distributing file11 5).lanes.length ∧
    (distributing file11 5).pdFile.length < 2 ^ 64 ∧ (∀ r < 3, laneSize (distributing file11 5).pdFile 3 r ≤ 5) ∧
    1 ≤ (distributing file11 11).lanes.length ∧ (∀ r < 1, laneSize (distributing file11 11).pdFile 1 r ≤ 11) ∧
    (distributing file11 11).lanes[2]? = some Lane.reset := by
  decide

theorem test_hyps_PdFragmentsDecodeToTheFile :
    (distributing file11 5).Clear ∧ WidthOk 64 ∧ 1 ≤ 3 ∧ 3 ≤ (distributing file11 5).lanes.length ∧
    (distributing file11 5).pdFile.length < 2 ^ 64 ∧ (distributing file11 5).bufMax ≤ 2 ^ 45 - 1 ∧
    (∀ r < 3, laneSize (distributing file11 5).pdFile 3 r ≤ (distributing file11 5).bufMax) := by
  decide

/-- V-PD-7: only the last lane fails with `BUF_MAX = 4`; lane 0 fails with `BUF_MAX = 2`. -/
theorem test_hyps_PdRunAbortsTheWholeGroup :
    (distributing file11 4).Clear ∧ WidthOk 8 ∧ 1 ≤ 3 ∧ 3 ≤ (distributing file11 4).lanes.length ∧
    (distributing file11 4).pdFile.length < 2 ^ 64 ∧ 2 < 3 ∧ (distributing file11 4).bufMax < laneSize file11 3 2 ∧
    (distributing file11 2).bufMax < laneSize file11 3 0 := by
  decide

/-- A schedule of two lanes, lane 1 ahead of lane 0 wherever it can be. -/
def schedule : List Move :=
  [.barrier 1, .message 1, .alone 0, .barrier 2, .alone 1, .alone 0, .barrier 3, .message 1, .alone 0, .barrier 4, .alone 1, .alone 0]

/-- A schedule that ends in the abort of the group. -/
def shortSchedule : List Move := [.barrier 1, .message 1, .alone 0, .barrier 2, .alone 1]

/-- The group after a schedule on the file of P4. -/
def groupAfter (bufMax : Nat) (moves : List Move) : Option Group :=
  Group.follow (runConfig 8 2 (distributing file11 bufMax)) (Group.start 2 (distributing file11 bufMax).lanes) moves

theorem test_hyps_EveryScheduleEndsAsPdRunDoes :
    (distributing file11 6).Clear ∧ WidthOk 8 ∧ 1 ≤ 2 ∧ 2 ≤ (distributing file11 6).lanes.length ∧
    (distributing file11 6).pdFile.length < 2 ^ 64 ∧
    (groupAfter 6 schedule).map Group.ended = some true ∧ (groupAfter 5 shortSchedule).map Group.ended = some true := by
  refine ⟨by decide, by decide, by decide, by decide, by decide, by rfl, by rfl⟩

theorem test_hyps_NoScheduleBlocks :
    1 ≤ 2 ∧ 2 ≤ (distributing file11 6).lanes.length ∧ (distributing file11 6).pdFile.length < 2 ^ 64 ∧
    (groupAfter 6 (schedule.take 11)).map Group.ended = some false := by
  refine ⟨by decide, by decide, by decide, by rfl⟩

theorem test_hyps_CompleteRunPassesFourBarriers :
    1 ≤ 2 ∧ 2 ≤ (distributing file11 6).lanes.length ∧ (distributing file11 6).pdFile.length < 2 ^ 64 ∧
    (groupAfter 6 schedule).map (fun g => g.all fun a => a.pc == .finished) = some true := by
  refine ⟨by decide, by decide, by decide, by rfl⟩

/-- The block's invariant holds in a state with a host command pending. -/
theorem test_hyps_EveryStepKeepsTheInvariant :
    (presenting base 0x70000308#32).Inv ∧ ∃ t, step (presenting base 0x70000308#32) = .next t := by
  have wr : Writer.reset.Inv := ⟨by decide, by decide⟩
  have pk : Packer.reset.Inv := ⟨by decide, by decide, by decide⟩
  have rr : Reader.reset.Inv := ⟨by decide, by decide⟩
  have er : Encoder.reset.Inv := ⟨rfl, pk, by decide, wr, by decide, by decide, by decide, by decide⟩
  refine ⟨⟨⟨by decide, by decide, by decide, by decide⟩, by decide, ⟨by decide, by decide, by decide, by decide, by decide⟩, pk, rr,
    wr, er, ⟨rr, rr, wr⟩, ?_, fun _ => ⟨rfl, rfl⟩⟩, ⟨_, rfl⟩⟩
  intro l hl
  obtain rfl : l = Lane.reset := List.eq_of_mem_replicate hl
  exact ⟨.inl rfl, fun _ => ⟨rfl, rfl, rfl, rfl⟩, fun h => absurd h (by decide), fun _ => ⟨rfl, rfl, rfl⟩, by decide, er⟩

theorem test_hyps_EveryStepKeepsStorageInBounds :
    Memory.wf (presenting base 0x70000308#32) ∧ ∃ t, step (presenting base 0x70000308#32) = .next t :=
  ⟨⟨by decide, by decide, by decide, by decide⟩, ⟨_, rfl⟩⟩

end Sys2Proof.Tests
end

/-! SUPPORT. The state of the block: how each command and each action of the host can end, said once (`EndsIn`, `ActEndsIn`), and from
that what each of them leaves unchanged, which sinks it touches, and that it keeps the invariant. -/

namespace Sys2Proof.Machine

/-! ### What a command can do -/

/-- How the command `i`, issued in state `s`, can end: refused while a fault is latched (R220), a fault raised with nothing else done
(R219, R221), or one constructor per way in which it takes effect. -/
inductive EndsIn (s : State) : Instr → State → Prop where
  | refused {i : Instr} : ¬ s.Clear → EndsIn s i (refuse s)
  | raised {i : Instr} {code : Code} {aux : Word} : s.Clear → i ≠ .vrInit → code ≠ .ok → EndsIn s i (raise i.word code aux s)
  | bxInit {w : Nat} {size : Word} : s.Clear → WidthOk w → size.toNat ≤ s.bufMem.length →
      EndsIn s (.bxInit w size) (answer 0#64 { s with bx := Extractor.init w size })
  | bxHasNext : s.Clear → s.bx.st = .ready → EndsIn s .bxHasNext (answer (if s.bx.hasNext then 1#64 else 0#64) s)
  | bxAdvance : s.Clear → s.bx.st = .ready → s.bx.hasNext = true →
      EndsIn s .bxAdvance (answer (s.bx.group (bxBit s))
        { s with bx := s.bx.moved, drawn := if s.bufMem.length < s.bx.size.toNat then s.drawn + 1 else s.drawn })
  | bxUnused : s.Clear → s.bx.st = .ready → EndsIn s .bxUnused (answer s.bx.unused s)
  | bpInit {w : Nat} : s.Clear → WidthOk w → s.bp.st ≠ .ready →
      EndsIn s (.bpInit w) (answer 0#64 { s with bp := Packer.init w })
  | bpPush {v : Word} : s.Clear → s.bp.st = .ready →
      EndsIn s (.bpPush v) (answer 0#64 { s with bp := (s.bp.push v).1, bpSink := s.bpSink ++ (s.bp.push v).2 })
  | bpClose : s.Clear → s.bp.st = .ready →
      EndsIn s .bpClose (answer 0#64 { s with bp := s.bp.close.1, bpSink := s.bpSink ++ s.bp.close.2 })
  | vrInit : s.Clear → EndsIn s .vrInit (answer 0#64 { s with vr := Reader.init })
  | vrRead {w : Nat} {r : Reader} {v : Word} : s.Clear → WidthOk w → s.vr.st = .ready → s.vr.read s.vrSrc w = some (r, v) →
      EndsIn s (.vrRead w) (answer v { s with vr := r })
  | vwInit : s.Clear → s.vw.st ≠ .ready → EndsIn s .vwInit (answer 0#64 { s with vw := Writer.init })
  | vwWrite {w : Nat} {v : Word} : s.Clear → WidthOk w → s.vw.st = .ready →
      EndsIn s (.vwWrite w v) (answer 0#64 { s with vw := (s.vw.write w v).1, vwSink := s.vwSink ++ (s.vw.write w v).2 })
  | vwClose : s.Clear → s.vw.st = .ready →
      EndsIn s .vwClose (answer 0#64 { s with vw := s.vw.close.1, vwSink := s.vwSink ++ s.vw.close.2 })
  | reEncode {kw np : Nat} : s.Clear → WidthOk kw →
      EndsIn s (.reEncode kw np)
        (answer ((s.re.run kw np s.bufMem).enc.numRuns.zeroExtend 64) (withEncoded s (s.re.run kw np s.bufMem)))
  | rdDecode {d : Decoding} : s.Clear → s.rd.run s.rdMetaSrc s.rdDataSrc = .going d →
      EndsIn s .rdDecode (answer 0#64 (withDecoding s d))
  | rdDecodeFault {d : Decoding} {code : Code} {aux : Word} : s.Clear →
      s.rd.run s.rdMetaSrc s.rdDataSrc = .raised d code aux →
      EndsIn s .rdDecode (raise Instr.rdDecode.word code aux (withDecoding s d))
  | pdRun {kw n : Nat} : s.Clear → WidthOk kw → 1 ≤ n ∧ n ≤ s.lanes.length →
      failingLane n s.bufMax (pdSized n (pdStart kw n s)).lanes = none →
      EndsIn s (.pdRun kw n) (answer (pdStart kw n s).pd.chunk (pdFinish kw n (pdSized n (pdStart kw n s))))
  | pdAbort {kw n : Nat} {failing : Lane} : s.Clear → WidthOk kw → 1 ≤ n ∧ n ≤ s.lanes.length →
      failingLane n s.bufMax (pdSized n (pdStart kw n s)).lanes = some failing →
      EndsIn s (.pdRun kw n) (raise (Instr.pdRun kw n).word .resource failing.size
        { pdSized n (pdStart kw n s) with lanes := onLanes n (fun _ l => l.abort) (pdSized n (pdStart kw n s)).lanes })

section Checks

variable {s : State} {i : Instr} {run : State → State}

theorem accept_endsIn (h : s.Clear → EndsIn s i (run s)) : EndsIn s i (accept s run) := by
  rcases accept_cases s run with ⟨hc, e⟩ | ⟨hc, e⟩ <;> rw [e]
  · exact h hc
  · exact .refused hc

theorem checkWidth_endsIn {a : Nat} (hc : s.Clear) (h : WidthOk a → EndsIn s i (run s)) (hi : i ≠ .vrInit := by simp) :
    EndsIn s i (checkWidth i.word a run s) := by
  rcases checkWidth_cases i.word a run s with ⟨hw, e⟩ | ⟨-, e⟩ <;> rw [e]
  · exact h hw
  · exact .raised hc hi (by decide)

theorem checkReady_endsIn {st : UnitState} (hc : s.Clear) (h : st = .ready → EndsIn s i (run s))
    (hi : i ≠ .vrInit := by simp) :
    EndsIn s i (checkReady i.word st run s) := by
  rcases checkReady_cases i.word st run s with ⟨hr, e⟩ | ⟨-, e⟩ <;> rw [e]
  · exact h hr
  · exact .raised hc hi (by decide)

theorem checkNotReady_endsIn {st : UnitState} (hc : s.Clear) (h : st ≠ .ready → EndsIn s i (run s))
    (hi : i ≠ .vrInit := by simp) :
    EndsIn s i (checkNotReady i.word st run s) := by
  rcases checkNotReady_cases i.word st run s with ⟨hr, e⟩ | ⟨-, e⟩ <;> rw [e]
  · exact h hr
  · exact .raised hc hi (by decide)

theorem checkWorkers_endsIn {n : Nat} (hc : s.Clear) (h : 1 ≤ n ∧ n ≤ s.lanes.length → EndsIn s i (run s))
    (hi : i ≠ .vrInit := by simp) : EndsIn s i (checkWorkers i.word n run s) := by
  rcases checkWorkers_cases i.word n run s with ⟨hn, e⟩ | ⟨-, e⟩ <;> rw [e]
  · exact h hn
  · exact .raised hc hi (by decide)

end Checks

/-- The protocol of `PD.RUN` completes or aborts (R186, R195, R199). -/
theorem pdProtocol_endsIn {s : State} {kw n : Nat} (hc : s.Clear) (hw : WidthOk kw) (hn : 1 ≤ n ∧ n ≤ s.lanes.length) :
    EndsIn s (.pdRun kw n) (pdProtocol (Instr.pdRun kw n).word kw n s) := by
  unfold pdProtocol
  simp only [pdSized_bufMax, pdStart_bufMax]
  split
  next failing hf => exact .pdAbort hc hw hn hf
  next hf => exact .pdRun hc hw hn hf

/-- Every command ends, in one of the ways of `EndsIn` (R251, R256). -/
theorem exec_next (i : Instr) (s : State) : ∃ t, exec i s = .next t ∧ EndsIn s i t := by
  cases i with
  | bxInit w size =>
    refine ⟨_, rfl, accept_endsIn fun hc => checkWidth_endsIn hc fun hw => ?_⟩
    split
    next => exact .raised hc (by simp) (by decide)
    next hsize => exact .bxInit hc hw (Nat.le_of_not_lt hsize)
  | bxHasNext => exact ⟨_, rfl, accept_endsIn fun hc => checkReady_endsIn hc fun hr => .bxHasNext hc hr⟩
  | bxAdvance =>
    refine ⟨_, rfl, accept_endsIn fun hc => checkReady_endsIn hc fun hr => ?_⟩
    split
    next hnext => exact .bxAdvance hc hr hnext
    next => exact .raised hc (by simp) (by decide)
  | bxUnused => exact ⟨_, rfl, accept_endsIn fun hc => checkReady_endsIn hc fun hr => .bxUnused hc hr⟩
  | bpInit w =>
    exact ⟨_, rfl, accept_endsIn fun hc => checkWidth_endsIn hc fun hw =>
      checkNotReady_endsIn hc fun hr => .bpInit hc hw hr⟩
  | bpPush v => exact ⟨_, rfl, accept_endsIn fun hc => checkReady_endsIn hc fun hr => .bpPush hc hr⟩
  | bpClose => exact ⟨_, rfl, accept_endsIn fun hc => checkReady_endsIn hc fun hr => .bpClose hc hr⟩
  | vrInit => exact ⟨_, rfl, accept_endsIn fun hc => .vrInit hc⟩
  | vrRead w =>
    refine ⟨_, rfl, accept_endsIn fun hc => checkWidth_endsIn hc fun hw =>
      checkReady_endsIn hc fun hr => ?_⟩
    split
    next hread => exact .vrRead hc hw hr hread
    next => exact .raised hc (by simp) (by decide)
  | vwInit => exact ⟨_, rfl, accept_endsIn fun hc => checkNotReady_endsIn hc fun hr => .vwInit hc hr⟩
  | vwWrite w v =>
    exact ⟨_, rfl, accept_endsIn fun hc => checkWidth_endsIn hc fun hw =>
      checkReady_endsIn hc fun hr => .vwWrite hc hw hr⟩
  | vwClose => exact ⟨_, rfl, accept_endsIn fun hc => checkReady_endsIn hc fun hr => .vwClose hc hr⟩
  | reEncode kw np => exact ⟨_, rfl, accept_endsIn fun hc => checkWidth_endsIn hc fun hw => .reEncode hc hw⟩
  | rdDecode =>
    refine ⟨_, rfl, accept_endsIn fun hc => ?_⟩
    split
    next hrun => exact .rdDecode hc hrun
    next hrun => exact .rdDecodeFault hc hrun
  | pdRun kw n =>
    exact ⟨_, rfl, accept_endsIn fun hc => checkWidth_endsIn hc fun hw =>
      checkWorkers_endsIn hc fun hn => pdProtocol_endsIn hc hw hn⟩

theorem exec_endsIn {i : Instr} {s t : State} (h : exec i s = .next t) : EndsIn s i t := by
  obtain ⟨u, hu, hends⟩ := exec_next i s
  rw [hu] at h
  cases h
  exact hends

/-! ### Frames (R27, R252) -/

/-- `s` with what the command `i` may change taken from `t`: its unit's state, its sinks, the fault register and the reply. -/
def withOwn (i : Instr) (s t : State) : State :=
  match i with
  | .bxInit _ _ => { s with bx := t.bx, fault := t.fault, reply := t.reply }
  | .bxHasNext => { s with fault := t.fault, reply := t.reply }
  | .bxAdvance => { s with bx := t.bx, drawn := t.drawn, fault := t.fault, reply := t.reply }
  | .bxUnused => { s with fault := t.fault, reply := t.reply }
  | .bpInit _ => { s with bp := t.bp, fault := t.fault, reply := t.reply }
  | .bpPush _ => { s with bp := t.bp, bpSink := t.bpSink, fault := t.fault, reply := t.reply }
  | .bpClose => { s with bp := t.bp, bpSink := t.bpSink, fault := t.fault, reply := t.reply }
  | .vrInit => { s with vr := t.vr, reply := t.reply }
  | .vrRead _ => { s with vr := t.vr, fault := t.fault, reply := t.reply }
  | .vwInit => { s with vw := t.vw, fault := t.fault, reply := t.reply }
  | .vwWrite _ _ => { s with vw := t.vw, vwSink := t.vwSink, fault := t.fault, reply := t.reply }
  | .vwClose => { s with vw := t.vw, vwSink := t.vwSink, fault := t.fault, reply := t.reply }
  | .reEncode _ _ => { s with re := t.re, reDataSink := t.reDataSink, reMetaSink := t.reMetaSink, fault := t.fault, reply := t.reply }
  | .rdDecode => { s with rd := t.rd, rdOutSink := t.rdOutSink, fault := t.fault, reply := t.reply }
  | .pdRun _ _ => { s with pd := t.pd, lanes := t.lanes, fault := t.fault, reply := t.reply }

theorem refuse_eq_withOwn (i : Instr) (s : State) : refuse s = withOwn i s (refuse s) := by
  cases i <;> rfl

/-- `VR.INIT` raises no fault, so its frame leaves `FAULT` out (R121). -/
theorem raise_eq_withOwn {i : Instr} (hi : i ≠ .vrInit) (cw : CmdWord) (code : Code) (aux : Word) (s : State) :
    raise cw code aux s = withOwn i s (raise cw code aux s) := by
  cases i with
  | vrInit => exact absurd rfl hi
  | _ => rfl

/-- A command changes only what is its own. -/
theorem EndsIn.frame {i : Instr} {s t : State} (h : EndsIn s i t) : t = withOwn i s t := by
  cases h with
  | refused => exact refuse_eq_withOwn i s
  | raised _ hi => exact raise_eq_withOwn hi _ _ _ s
  | _ => rfl

/-! ### RE, RD and PD empty their sinks first (R142, R167, R186) -/

theorem exec_reEncode_accepted {s : State} {kw np : Nat} (hc : s.Clear) (hw : WidthOk kw) :
    exec (.reEncode kw np) s = .next (answer ((s.re.run kw np s.bufMem).enc.numRuns.zeroExtend 64)
      (withEncoded s (s.re.run kw np s.bufMem))) :=
  congrArg Host.Outcome.next ((accept_clear hc _).trans (checkWidth_ok hw _ _ s))

theorem exec_reEncode_badArgument {s : State} {kw np : Nat} (hc : s.Clear) (hw : ¬ WidthOk kw) :
    exec (.reEncode kw np) s = .next (raise (Instr.reEncode kw np).word .badArgument (auxOfNat kw) s) :=
  congrArg Host.Outcome.next ((accept_clear hc _).trans (checkWidth_bad hw _ _ s))

/-- The sinks of `RE` before an encode are not part of its result (R142). -/
theorem exec_reEncode_emptied {s : State} {kw np : Nat} (hc : s.Clear) (hw : WidthOk kw) :
    exec (.reEncode kw np) s = exec (.reEncode kw np) { s with reDataSink := [], reMetaSink := [] } :=
  (exec_reEncode_accepted hc hw).trans
    (exec_reEncode_accepted (s := { s with reDataSink := [], reMetaSink := [] }) hc hw).symm

/-- The output of `RD` before a decode is not part of its result (R167). -/
theorem exec_rdDecode_emptied {s : State} (hc : s.Clear) : exec .rdDecode s = exec .rdDecode { s with rdOutSink := [] } := by
  refine congrArg Host.Outcome.next ((accept_clear hc _).trans (Eq.trans ?_ (accept_clear (s := { s with rdOutSink := [] }) hc _).symm))
  dsimp only
  cases s.rd.run s.rdMetaSrc s.rdDataSrc <;> rfl

theorem exec_pdRun_accepted {s : State} {kw n : Nat} (hc : s.Clear) (hw : WidthOk kw) (hn : 1 ≤ n ∧ n ≤ s.lanes.length) :
    exec (.pdRun kw n) s = .next (pdProtocol (Instr.pdRun kw n).word kw n s) :=
  congrArg Host.Outcome.next ((accept_clear hc _).trans ((checkWidth_ok hw _ _ s).trans (checkWorkers_ok hn _ _)))

theorem exec_pdRun_badArgument {s : State} {kw n : Nat} (hc : s.Clear) (h : ¬ (WidthOk kw ∧ 1 ≤ n ∧ n ≤ s.lanes.length)) :
    ∃ aux, exec (.pdRun kw n) s = .next (raise (Instr.pdRun kw n).word .badArgument aux s) := by
  by_cases hw : WidthOk kw
  · have hn : ¬ (1 ≤ n ∧ n ≤ s.lanes.length) := fun hn => h ⟨hw, hn⟩
    exact ⟨_, congrArg Host.Outcome.next ((accept_clear hc _).trans ((checkWidth_ok hw _ _ s).trans (checkWorkers_bad hn _ _)))⟩
  · exact ⟨_, congrArg Host.Outcome.next ((accept_clear hc _).trans (checkWidth_bad hw _ _ s))⟩

/-- The block with the sinks of every lane emptied (R45). -/
def State.withEmptyLaneSinks (s : State) : State :=
  { s with lanes := s.lanes.map fun l => { l with dataSink := [], metaSink := [] } }

/-- The start of `PD.RUN` clears the sinks of every lane, so what they held has no effect on the protocol (R186). -/
theorem pdProtocol_emptied (cw : CmdWord) (kw n : Nat) (s : State) :
    pdProtocol cw kw n s.withEmptyLaneSinks = pdProtocol cw kw n s := by
  have hstart : pdStart kw n s.withEmptyLaneSinks = pdStart kw n s := by
    simp [State.withEmptyLaneSinks, pdStart, Lane.cleared]
  unfold pdProtocol
  rw [hstart]

theorem exec_pdRun_emptied {s : State} {kw n : Nat} (hc : s.Clear) (hw : WidthOk kw) (hn : 1 ≤ n ∧ n ≤ s.lanes.length) :
    exec (.pdRun kw n) s = exec (.pdRun kw n) s.withEmptyLaneSinks := by
  have hn' : 1 ≤ n ∧ n ≤ s.withEmptyLaneSinks.lanes.length := by simpa [State.withEmptyLaneSinks] using hn
  rw [exec_pdRun_accepted hc hw hn, exec_pdRun_accepted (s := s.withEmptyLaneSinks) hc hw hn', pdProtocol_emptied]

/-- The sinks of `BP` and `VW` only grow (R23). -/
theorem EndsIn.bitSinks_prefix {i : Instr} {s t : State} (h : EndsIn s i t) : s.bpSink <+: t.bpSink ∧ s.vwSink <+: t.vwSink := by
  cases h with
  | bpPush | bpClose => exact ⟨List.prefix_append _ _, List.prefix_rfl⟩
  | vwWrite | vwClose => exact ⟨List.prefix_rfl, List.prefix_append _ _⟩
  | _ => exact ⟨List.prefix_rfl, List.prefix_rfl⟩

theorem EndsIn.reSinks {i : Instr} {s t : State} (h : EndsIn s i t) (hi : ∀ a b, i ≠ .reEncode a b) :
    t.reDataSink = s.reDataSink ∧ t.reMetaSink = s.reMetaSink := by
  rw [h.frame]
  cases i with
  | reEncode a b => exact absurd rfl (hi a b)
  | _ => exact ⟨rfl, rfl⟩

theorem EndsIn.rdOutSink {i : Instr} {s t : State} (h : EndsIn s i t) (hi : i ≠ .rdDecode) : t.rdOutSink = s.rdOutSink := by
  rw [h.frame]
  cases i with
  | rdDecode => exact absurd rfl hi
  | _ => rfl

theorem EndsIn.lanes {i : Instr} {s t : State} (h : EndsIn s i t) (hi : ∀ a b, i ≠ .pdRun a b) : t.lanes = s.lanes := by
  rw [h.frame]
  cases i with
  | pdRun a b => exact absurd rfl (hi a b)
  | _ => rfl

/-- Settles O16: each way a command can end has the frame of `withOwn`. -/
theorem commandsChangeOnlyTheirOwnUnit : Obligations.CommandsChangeOnlyTheirOwnUnit := by
  unfold Obligations.CommandsChangeOnlyTheirOwnUnit
  intro s t a b d
  and_intros <;> exact fun h => (exec_endsIn h).frame

/-- Settles O18: frames for the commands of other units; an accepted composite command by its result, in which the former content of its
sinks does not occur; a bad argument by the fault it raises. -/
theorem sinksChangeOnlyByTheirOwnCommands : Obligations.SinksChangeOnlyByTheirOwnCommands := by
  unfold Obligations.SinksChangeOnlyByTheirOwnCommands
  refine ⟨fun i s t h => ?_, fun s kw np hc => ⟨fun hw => ?_, fun t hw h => ?_⟩, fun s hc => exec_rdDecode_emptied hc,
    fun s kw n hc => ⟨fun hw h1 hn => ?_, fun t hbad h => ?_⟩⟩
  · have hends := exec_endsIn h
    obtain ⟨hbp, hvw⟩ := hends.bitSinks_prefix
    exact ⟨hbp, hvw, hends.reSinks, hends.rdOutSink, hends.lanes⟩
  · exact exec_reEncode_emptied hc hw
  · rw [exec_reEncode_badArgument hc hw] at h
    cases h
    exact ⟨rfl, rfl⟩
  · exact exec_pdRun_emptied hc hw ⟨h1, hn⟩
  · obtain ⟨aux, hbadArg⟩ := exec_pdRun_badArgument hc hbad
    rw [hbadArg] at h
    cases h
    rfl

/-! ### The invariants of the unit records (R14 to R19) -/

theorem Extractor.reset_inv (bufMax : Nat) : Extractor.reset.Inv bufMax where
  notClosed := by decide
  width := fun h => absurd h (by decide)
  multiple := fun h => absurd h (by decide)
  bounded := fun h => absurd h (by decide)
  size := fun h => absurd h (by decide)

theorem Extractor.init_inv {w bufMax : Nat} {size : Word} (hw : WidthOk w) (hs : size.toNat ≤ bufMax) :
    (Extractor.init w size).Inv bufMax where
  notClosed := by simp [Extractor.init]
  width := fun _ => by rwa [Extractor.init_step w size hw]
  multiple := fun _ => by simp [Extractor.init]
  bounded := fun _ => by
    rw [Extractor.init_step w size hw]
    have := hw.1
    simp only [Extractor.init, BitVec.toNat_ofNat]
    omega
  size := fun _ => hs

/-- While a group remains the cursor is within the buffer, so one group further it is less than a group past its end (R14, R94). -/
theorem Extractor.Inv.moved {bufMax : Nat} {x : Extractor} (h : x.Inv bufMax) (hmax : bufMax ≤ 2 ^ 45 - 1) (hr : x.st = .ready)
    (hn : x.hasNext = true) : x.moved.Inv bufMax := by
  have hcur : x.cur.toNat < 8 * x.size.toNat := x.hasNext_iff.mp hn
  have hsize := h.size hr
  have hstep := (h.width hr).2
  have hmoved := x.moved_cur (by omega)
  exact {
    notClosed := h.notClosed
    width := h.width
    multiple := fun _ => hmoved ▸ (Nat.dvd_add_self_right).mpr (h.multiple hr)
    bounded := fun _ => hmoved ▸ Nat.add_lt_add_right hcur _
    size := h.size }

theorem Packer.reset_inv : Packer.reset.Inv where
  width := fun h => absurd h (by decide)
  low := fun k _ => by simp [Packer.reset]
  empty := fun _ => ⟨rfl, rfl⟩

theorem Packer.init_inv {w : Nat} (hw : WidthOk w) : (Packer.init w).Inv where
  width := fun _ => by rwa [Packer.init_width w hw]
  low := Packer.init_lowZero w
  empty := fun h => absurd rfl h

theorem Packer.Inv.push {p : Packer} (h : p.Inv) (hr : p.st = .ready) (v : Word) : (p.push v).1.Inv := by
  obtain ⟨hst, hwidth, hlow, -⟩ := p.push_spec v (h.width hr) h.low
  exact ⟨fun _ => hwidth ▸ h.width hr, hlow, fun hne => absurd (hst.trans hr) hne⟩

theorem Packer.close_inv (p : Packer) : p.close.1.Inv where
  width := fun h => absurd h (by simp [Packer.close])
  low := fun k _ => by simp [Packer.close]
  empty := fun _ => ⟨rfl, rfl⟩

theorem Reader.reset_inv : Reader.reset.Inv := ⟨by decide, by decide⟩

theorem Reader.init_inv : Reader.init.Inv := ⟨by decide, by decide⟩

theorem Reader.Inv.read {r r' : Reader} {src : Bytes} {w : Nat} {v : Word} (h : r.Inv) (hread : r.read src w = some (r', v)) :
    r'.Inv := by
  obtain ⟨hst, hused⟩ := Reader.read_kept hread h.used
  exact ⟨hst ▸ h.notClosed, hused⟩

theorem Writer.reset_inv : Writer.reset.Inv := ⟨fun k _ => by simp [Writer.reset], fun _ => ⟨rfl, rfl⟩⟩

theorem Writer.init_inv : Writer.init.Inv := ⟨Writer.init_lowZero, fun h => absurd rfl h⟩

theorem Writer.Inv.write {w : Writer} (h : w.Inv) (hr : w.st = .ready) (width : Nat) (v : Word) : (w.write width v).1.Inv := by
  obtain ⟨hst, hlow, -⟩ := w.writeBits_spec (field width v) h.low
  exact ⟨hlow, fun hne => absurd (hst.trans hr) hne⟩

theorem Writer.close_inv (w : Writer) : w.close.1.Inv := ⟨fun k _ => by simp [Writer.close], fun _ => ⟨rfl, rfl⟩⟩

theorem Encoder.reset_inv : Encoder.reset.Inv where
  rcs := rfl
  pk := Packer.reset_inv
  pkClosed := by decide
  mw := Writer.reset_inv
  mwClosed := by decide
  keyWidth := by decide
  runWidth := by decide
  maxCount := by decide

/-- An encode leaves its encoder record sound whatever the record was before it (R142, R149 to R151). -/
theorem Encoder.run_inv (e : Encoder) (kw np : Nat) (buf : Bytes) (hw : WidthOk kw) (hb : buf.length ≤ 2 ^ 45 - 1) :
    (e.run kw np buf).enc.Inv := by
  obtain ⟨keys, counts, h⟩ := e.run_spec kw np buf hw hb
  obtain ⟨hst, hacc, hfill⟩ := h.pk
  obtain ⟨hrw, hfits, -⟩ := runWidthOf_spec (e.run kw np buf).enc.maxCount
  exact {
    rcs := h.rcs
    pk := ⟨fun hr => absurd (hst ▸ hr) (by decide), fun k _ => by simp [hacc], fun _ => ⟨hacc, hfill⟩⟩
    pkClosed := by simp [hst]
    mw := h.mw ▸ Writer.close_inv Writer.init
    mwClosed := by simp [h.mw]
    keyWidth := h.keyWidth.trans_le hw.2
    runWidth := h.runWidth ▸ hrw.2
    maxCount := h.runWidth ▸ hfits }

theorem Decoder.reset_inv : Decoder.reset.Inv := ⟨Reader.reset_inv, Reader.reset_inv, Writer.reset_inv⟩

theorem Decoding.Sound.inv {d : Decoding} (h : d.Sound) : d.rd.Inv where
  rm := ⟨by simp [h.rmSt], h.rmUsed⟩
  rk := ⟨by simp [h.rkSt], h.rkUsed⟩
  wo := ⟨h.woLow, fun hne => absurd h.woSt hne⟩

theorem Decoder.run_going_inv {rd : Decoder} {metaSrc dataSrc : Bytes} {d : Decoding} (h : rd.run metaSrc dataSrc = .going d) :
    d.rd.Inv := by
  have hends := rd.run_ends metaSrc dataSrc
  rw [h] at hends
  obtain ⟨hrm, hrk, hwo, -⟩ := hends
  exact ⟨hrm, hrk, hwo ▸ Writer.close_inv Writer.init⟩

/-- A decode that faults leaves its open records sound and names one of two faults (R168, R174). -/
theorem Decoder.run_raised_inv {rd : Decoder} {metaSrc dataSrc : Bytes} {d : Decoding} {code : Code} {aux : Word}
    (h : rd.run metaSrc dataSrc = .raised d code aux) : d.rd.Inv ∧ code ≠ .ok := by
  have hends := rd.run_ends metaSrc dataSrc
  rw [h] at hends
  obtain ⟨hs, ⟨rfl, -⟩ | ⟨rfl, -⟩⟩ := hends
  · exact ⟨hs.inv, by decide⟩
  · exact ⟨hs.inv, by decide⟩

/-! ### The invariant of a lane (R20, R191, R198, R199) -/

theorem Lane.idle_inv (bufMax : Nat) {e : Encoder} (h : e.Inv) : Lane.Inv bufMax ⟨.idle, 0#64, [], e, [], []⟩ where
  phase := .inl rfl
  idle := fun _ => ⟨rfl, rfl, rfl, rfl⟩
  done := nofun
  aborted := nofun
  buf := Nat.zero_le _
  enc := h

theorem Lane.reset_inv (bufMax : Nat) : Lane.reset.Inv bufMax := Lane.idle_inv bufMax Encoder.reset_inv

theorem Lane.Inv.cleared {bufMax : Nat} {l : Lane} (h : l.Inv bufMax) : l.cleared.Inv bufMax := Lane.idle_inv bufMax h.enc

theorem Lane.done_inv {bufMax : Nat} {size : Word} {buf : Bytes} {e : Encoder} (data metaBytes : Bytes) (hsize : buf.length = size.toNat)
    (hbuf : buf.length ≤ bufMax) (he : e.Inv) : Lane.Inv bufMax ⟨.done, size, buf, e, data, metaBytes⟩ where
  phase := .inr (.inl rfl)
  idle := nofun
  done := fun _ => hsize
  aborted := nofun
  buf := hbuf
  enc := he

theorem Lane.aborted_inv (bufMax : Nat) (size : Word) {e : Encoder} (he : e.Inv) :
    Lane.Inv bufMax ⟨.aborted, size, [], e, [], []⟩ where
  phase := .inr (.inr rfl)
  idle := nofun
  done := nofun
  aborted := fun _ => ⟨rfl, rfl, rfl⟩
  buf := Nat.zero_le _
  enc := he

theorem Lane.Inv.emptyData {bufMax : Nat} {l : Lane} (h : l.Inv bufMax) : Lane.Inv bufMax { l with dataSink := [] } :=
  { h with
    idle := fun hi => let ⟨size, buf, _, hmeta⟩ := h.idle hi; ⟨size, buf, rfl, hmeta⟩
    aborted := fun ha => let ⟨buf, _, hmeta⟩ := h.aborted ha; ⟨buf, rfl, hmeta⟩ }

theorem Lane.Inv.emptyMeta {bufMax : Nat} {l : Lane} (h : l.Inv bufMax) : Lane.Inv bufMax { l with metaSink := [] } :=
  { h with
    idle := fun hi => let ⟨size, buf, data, _⟩ := h.idle hi; ⟨size, buf, data, rfl⟩
    aborted := fun ha => let ⟨buf, data, _⟩ := h.aborted ha; ⟨buf, data, rfl⟩ }

/-! ### The lanes after a run -/

/-- What holds of every image of a lane by rank holds of every lane of the list of images. -/
theorem forall_lanes_of_getElem? {lanes lanes' : List Lane} {f : Nat → Lane → Lane} (h : ∀ r, lanes'[r]? = lanes[r]?.map (f r))
    {P : Lane → Prop} (hP : ∀ r, ∀ l ∈ lanes, P (f r l)) : ∀ l ∈ lanes', P l := by
  intro l hl
  obtain ⟨r, hr⟩ := List.mem_iff_getElem?.mp hl
  rw [h r] at hr
  obtain ⟨l₀, hl₀, rfl⟩ := Option.map_eq_some_iff.mp hr
  exact hP r l₀ (List.mem_of_getElem? hl₀)

theorem forall_modify_lanes {lanes : List Lane} {r : Nat} {change : Lane → Lane} {P : Lane → Prop} (h : ∀ l ∈ lanes, P l)
    (hc : ∀ l, P l → P (change l)) : ∀ l ∈ lanes.modify r change, P l := by
  refine forall_lanes_of_getElem? (fun k => List.getElem?_modify change r lanes k) fun k l hl => ?_
  split
  · exact hc l (h l hl)
  · exact h l hl

/-- After a completed run a lane of the run holds its byte range, within `BUF_MAX`, and the others are cleared (R186, R198). -/
theorem pdFinish_buf_le {kw n : Nat} {s : State} (hn : n ≤ s.lanes.length) (hf : s.pdFile.length < 2 ^ 64)
    (hfit : failingLane n s.bufMax (pdSized n (pdStart kw n s)).lanes = none) :
    ∀ l ∈ (pdFinish kw n (pdSized n (pdStart kw n s))).lanes, l.buf.length ≤ s.bufMax := by
  refine forall_lanes_of_getElem? (pdFinish_lane kw n s) fun r l _ => ?_
  split
  next hr =>
    rw [laneBytes_length _ _ _ hr]
    exact (failingLane_none kw n s hn hf).mp hfit r hr
  next => exact Nat.zero_le _

theorem pdFinish_lanes_inv {kw n : Nat} {s : State} (hs : s.Inv) (hw : WidthOk kw) (hn : n ≤ s.lanes.length)
    (hfit : failingLane n s.bufMax (pdSized n (pdStart kw n s)).lanes = none) :
    ∀ l ∈ (pdFinish kw n (pdSized n (pdStart kw n s))).lanes, l.Inv s.bufMax := by
  obtain ⟨hmax, -, hfile, -⟩ := hs.memory
  refine forall_lanes_of_getElem? (pdFinish_lane kw n s) fun r l hl => ?_
  split
  next hr =>
    have hlen : (laneBytes s.pdFile n r).length = laneSize s.pdFile n r := laneBytes_length _ _ _ hr
    have hfits : laneSize s.pdFile n r ≤ s.bufMax := (failingLane_none kw n s hn hfile).mp hfit r hr
    refine Lane.done_inv _ _ ?_ (hlen ▸ hfits) (Encoder.run_inv _ _ _ _ hw ?_)
    · rw [hlen, ofNat_laneSize_toNat _ _ _ hr hfile]
    · rw [hlen]
      exact hfits.trans hmax
  next => exact (hs.lanes l hl).cleared

theorem pdAbort_buf_le (kw n : Nat) (s : State) :
    ∀ l ∈ onLanes n (fun _ l => l.abort) (pdSized n (pdStart kw n s)).lanes, l.buf.length ≤ s.bufMax := by
  refine forall_lanes_of_getElem? (pdAbort_lane kw n s) fun r l _ => ?_
  split
  · exact Nat.zero_le _
  · exact Nat.zero_le _

theorem pdAbort_lanes_inv {s : State} (hs : s.Inv) (kw n : Nat) :
    ∀ l ∈ onLanes n (fun _ l => l.abort) (pdSized n (pdStart kw n s)).lanes, l.Inv s.bufMax := by
  refine forall_lanes_of_getElem? (pdAbort_lane kw n s) fun r l hl => ?_
  split
  · exact Lane.aborted_inv _ _ (hs.lanes l hl).enc
  · exact (hs.lanes l hl).cleared

/-! ### What a command keeps -/

theorem EndsIn.memory_wf {i : Instr} {s t : State} (h : EndsIn s i t) (hs : Memory.wf s) : Memory.wf t := by
  have ⟨_, _, hfile, _⟩ := hs
  cases h with
  | pdRun _ _ hn hfit => exact Memory.wf_lanes hs (pdFinish_buf_le hn.2 hfile hfit)
  | pdAbort => exact Memory.wf_lanes hs (pdAbort_buf_le _ _ s)
  | _ => exact hs

theorem State.Inv.refuse {s : State} (hs : s.Inv) : (refuse s).Inv := { hs with }

theorem State.Inv.raise {s : State} (hs : s.Inv) (cw : CmdWord) {code : Code} (hcode : code ≠ .ok) (aux : Word) :
    (raise cw code aux s).Inv := { hs with noFault := fun h => absurd h hcode }

theorem State.Inv.answer {s : State} (hs : s.Inv) (v : Word) : (answer v s).Inv := { hs with }

theorem EndsIn.inv {i : Instr} {s t : State} (h : EndsIn s i t) (hs : s.Inv) : t.Inv := by
  have hmem := h.memory_wf hs.memory
  obtain ⟨hmax, hbuf, -⟩ := hs.memory
  cases h with
  | refused => exact hs.refuse
  | raised _ _ hcode => exact hs.raise _ hcode _
  | bxInit _ hw hsize => exact { hs with bx := Extractor.init_inv hw (hsize.trans hbuf) }
  | bxHasNext | bxUnused => exact hs.answer _
  | bxAdvance _ hr hnext => exact { hs with bx := hs.bx.moved hmax hr hnext }
  | bpInit _ hw => exact { hs with bp := Packer.init_inv hw }
  | bpPush _ hr => exact { hs with bp := hs.bp.push hr _ }
  | bpClose => exact { hs with bp := s.bp.close_inv }
  | vrInit => exact { hs with vr := Reader.init_inv }
  | vrRead _ _ _ hread => exact { hs with vr := hs.vr.read hread }
  | vwInit => exact { hs with vw := Writer.init_inv }
  | vwWrite _ _ hr => exact { hs with vw := hs.vw.write hr _ _ }
  | vwClose => exact { hs with vw := s.vw.close_inv }
  | reEncode _ hw => exact { hs with re := s.re.run_inv _ _ _ hw (hbuf.trans hmax) }
  | rdDecode _ hrun => exact { hs with rd := Decoder.run_going_inv hrun }
  | rdDecodeFault _ hrun =>
    obtain ⟨hrd, hcode⟩ := Decoder.run_raised_inv hrun
    exact State.Inv.raise (s := withDecoding s _) { hs with rd := hrd } _ hcode _
  | pdRun _ hw hn hfit =>
    exact { hs with
      memory := hmem
      nLanes := by simpa using hs.nLanes
      lanes := pdFinish_lanes_inv hs hw hn.2 hfit }
  | pdAbort =>
    refine State.Inv.raise ?_ _ (by decide) _
    exact { hs with
      memory := hmem
      nLanes := by simpa using hs.nLanes
      lanes := pdAbort_lanes_inv hs _ _ }

/-! ### What an action of the host keeps -/

/-- How the host's action `a`, taken in state `s`, can end (R45, R66, R245): one constructor per action, where it is not refused. -/
inductive ActEndsIn (s : State) : HostAction → State → Prop where
  | command {c : Command} {i : Instr} {t : State} : decode c = .ok i → EndsIn s i t → ActEndsIn s (.command c) t
  | illegal {c : Command} {e : Illegal} : decode c = .error e → ActEndsIn s (.command c) (illegalCommand c.cw s)
  | loadBufMem {bytes : Bytes} : bytes.length ≤ s.bufMax → ActEndsIn s (.loadBufMem bytes) { s with bufMem := bytes }
  | loadVrSrc {bytes : Bytes} : ActEndsIn s (.loadVrSrc bytes) { s with vrSrc := bytes }
  | loadRdMetaSrc {bytes : Bytes} : ActEndsIn s (.loadRdMetaSrc bytes) { s with rdMetaSrc := bytes }
  | loadRdDataSrc {bytes : Bytes} : ActEndsIn s (.loadRdDataSrc bytes) { s with rdDataSrc := bytes }
  | loadPdFile {bytes : Bytes} : bytes.length < 2 ^ 64 → ActEndsIn s (.loadPdFile bytes) { s with pdFile := bytes }
  | emptyBp : ActEndsIn s (.emptySink .bp) { s with bpSink := [] }
  | emptyVw : ActEndsIn s (.emptySink .vw) { s with vwSink := [] }
  | emptyReData : ActEndsIn s (.emptySink .reData) { s with reDataSink := [] }
  | emptyReMeta : ActEndsIn s (.emptySink .reMeta) { s with reMetaSink := [] }
  | emptyRdOut : ActEndsIn s (.emptySink .rdOut) { s with rdOutSink := [] }
  | emptyLaneData {r : Nat} : r < s.lanes.length →
      ActEndsIn s (.emptySink (.laneData r)) { s with lanes := s.lanes.modify r fun l => { l with dataSink := [] } }
  | emptyLaneMeta {r : Nat} : r < s.lanes.length →
      ActEndsIn s (.emptySink (.laneMeta r)) { s with lanes := s.lanes.modify r fun l => { l with metaSink := [] } }
  | reset : ActEndsIn s .reset (resetBlock s)

theorem issue_endsIn {c : Command} {s t : State} (h : issue c s = .next t) : ActEndsIn s (.command c) t := by
  unfold issue at h
  split at h
  next i hd => exact .command hd (exec_endsIn h)
  next e hd => cases h; exact .illegal hd

/-- A change of a lane that the host makes is a change of a lane that exists (R20). -/
theorem onLane_next {r : Nat} {change : Lane → Lane} {s t : State} (h : onLane r change s = .next t) :
    r < s.lanes.length ∧ t = { s with lanes := s.lanes.modify r change } := by
  unfold onLane at h
  split at h
  next hr => cases h; exact ⟨hr, rfl⟩
  next => cases h

theorem emptySink_endsIn {sink : SinkName} {s t : State} (h : emptySink sink s = .next t) :
    ActEndsIn s (.emptySink sink) t := by
  cases sink with
  | bp => cases h; exact .emptyBp
  | vw => cases h; exact .emptyVw
  | reData => cases h; exact .emptyReData
  | reMeta => cases h; exact .emptyReMeta
  | rdOut => cases h; exact .emptyRdOut
  | laneData r => obtain ⟨hr, rfl⟩ := onLane_next h; exact .emptyLaneData hr
  | laneMeta r => obtain ⟨hr, rfl⟩ := onLane_next h; exact .emptyLaneMeta hr

theorem perform_endsIn {a : HostAction} {s t : State} (h : perform a s = .next t) : ActEndsIn s a t := by
  cases a with
  | command c => exact issue_endsIn h
  | loadBufMem bytes =>
    by_cases hb : bytes.length ≤ s.bufMax
    · cases (hostLoadBufMem_fits hb).symm.trans h; exact .loadBufMem hb
    · cases (hostLoadBufMem_tooLong hb).symm.trans h
  | loadVrSrc bytes => cases h; exact .loadVrSrc
  | loadRdMetaSrc bytes => cases h; exact .loadRdMetaSrc
  | loadRdDataSrc bytes => cases h; exact .loadRdDataSrc
  | loadPdFile bytes =>
    by_cases hb : bytes.length < 2 ^ 64
    · cases (hostLoadPdFile_fits hb).symm.trans h; exact .loadPdFile hb
    · cases (hostLoadPdFile_tooLong hb).symm.trans h
  | emptySink sink => exact emptySink_endsIn h
  | reset => cases h; exact .reset

/-- A property that the list of pending actions has no part in and that every action keeps is kept by every step (R224, R251). -/
theorem step_keeps {P : State → Prop} (hpending : ∀ s rest, P s → P { s with pending := rest })
    (hact : ∀ s a t, P s → ActEndsIn s a t → P t) {s t : State} (hs : P s) (h : step s = .next t) : P t := by
  unfold step at h
  split at h
  next => cases h; exact hs
  next a rest _ => exact hact _ a t (hpending s rest hs) (perform_endsIn h)

theorem illegalCommand_cases (cw : CmdWord) (s : State) :
    illegalCommand cw s = raise cw .illegalCommand 0#64 s ∨ illegalCommand cw s = refuse s := by
  rcases accept_cases s (raise cw .illegalCommand 0#64) with ⟨-, e⟩ | ⟨-, e⟩
  · exact .inl e
  · exact .inr e

theorem Memory.wf_illegalCommand {s : State} (hs : Memory.wf s) (cw : CmdWord) : Memory.wf (illegalCommand cw s) := by
  rcases illegalCommand_cases cw s with e | e <;> rw [e]
  · exact Memory.wf_raise hs _ _ _
  · exact Memory.wf_refuse hs

theorem State.Inv.illegalCommand {s : State} (hs : s.Inv) (cw : CmdWord) : (illegalCommand cw s).Inv := by
  rcases illegalCommand_cases cw s with e | e <;> rw [e]
  · exact hs.raise cw (by decide) _
  · exact hs.refuse

theorem ActEndsIn.memory_wf {a : HostAction} {s t : State} (h : ActEndsIn s a t) (hs : Memory.wf s) : Memory.wf t := by
  have ⟨_, _, _, hlanes⟩ := hs
  cases h with
  | command _ hends => exact hends.memory_wf hs
  | illegal => exact Memory.wf_illegalCommand hs _
  | loadBufMem hb => exact Memory.wf_loadBufMem hs hb
  | loadPdFile hb => exact Memory.wf_loadPdFile hs hb
  | emptyLaneData | emptyLaneMeta => exact Memory.wf_lanes hs (forall_modify_lanes hlanes fun _ h => h)
  | reset => exact Memory.wf_resetBlock hs
  | _ => exact hs

/-- The reset event gives every unit its reset record and leaves the storage and the number of lanes (R29, R245). -/
theorem resetBlock_inv {s : State} (hmem : Memory.wf s) (hn : 1 ≤ s.lanes.length ∧ s.lanes.length ≤ 255) :
    (resetBlock s).Inv where
  memory := Memory.wf_resetBlock hmem
  nLanes := by simpa using hn
  bx := Extractor.reset_inv _
  bp := Packer.reset_inv
  vr := Reader.reset_inv
  vw := Writer.reset_inv
  re := Encoder.reset_inv
  rd := Decoder.reset_inv
  lanes := fun l hl => by
    obtain ⟨_, _, rfl⟩ := List.mem_map.mp hl
    exact Lane.reset_inv _
  noFault := fun _ => ⟨rfl, rfl⟩

/-- The state after power-on is one that the reset event leaves as it is (R29, R245). -/
theorem resetBlock_reset : resetBlock State.reset = State.reset := by
  simp [resetBlock, State.reset]

theorem ActEndsIn.inv {a : HostAction} {s t : State} (h : ActEndsIn s a t) (hs : s.Inv) : t.Inv := by
  have hmem := h.memory_wf hs.memory
  cases h with
  | command _ hends => exact hends.inv hs
  | illegal => exact hs.illegalCommand _
  | emptyLaneData =>
    exact { hs with
      memory := hmem
      nLanes := by simpa using hs.nLanes
      lanes := forall_modify_lanes hs.lanes fun _ hl => hl.emptyData }
  | emptyLaneMeta =>
    exact { hs with
      memory := hmem
      nLanes := by simpa using hs.nLanes
      lanes := forall_modify_lanes hs.lanes fun _ hl => hl.emptyMeta }
  | reset => exact resetBlock_inv hs.memory hs.nLanes
  | _ => exact { hs with memory := hmem }

/-- `NLANES` is from 1 to 255 (R4). -/
theorem nLanes_bounds : 1 ≤ Config.nLanes ∧ Config.nLanes ≤ 255 :=
  ⟨Nat.le_max_left _ _, Nat.max_le.mpr ⟨by norm_num, Nat.min_le_right _ _⟩⟩

/-- Settles O54: the state after power-on is its own reset. -/
theorem resetMeetsTheInvariant : Obligations.ResetMeetsTheInvariant := by
  unfold Obligations.ResetMeetsTheInvariant
  rw [← resetBlock_reset]
  exact resetBlock_inv Memory.wf_reset (by simpa [State.reset] using nLanes_bounds)

/-- Settles O55: every way in which a command or another action of the host can end keeps the invariant. -/
theorem everyStepKeepsTheInvariant : Obligations.EveryStepKeepsTheInvariant := by
  unfold Obligations.EveryStepKeepsTheInvariant
  exact fun s t => step_keeps (fun _ _ hs => { hs with }) fun _ _ _ hs h => h.inv hs

/-- Settles O56: of all updates only the host's loads, which are checked, and `PD.RUN`, whose lanes fit or are emptied, touch storage
with bounds. -/
theorem everyStepKeepsStorageInBounds : Obligations.EveryStepKeepsStorageInBounds := by
  unfold Obligations.EveryStepKeepsStorageInBounds
  exact fun s t => step_keeps (fun _ _ hs => hs) fun _ _ _ hs h => h.memory_wf hs

/-! ### Reset values, numbers, ports -/

/-- After the reset event every piece of state of R29's table has the value the table gives. -/
theorem resetBlock_table (s : State) : Claims.ResetTable (resetBlock s) where
  fault := rfl
  bx := rfl
  bp := rfl
  vr := rfl
  vw := rfl
  reRun := ⟨rfl, rfl, rfl, rfl, rfl⟩
  reResult := ⟨rfl, rfl, rfl, rfl⟩
  rePrivate := ⟨rfl, rfl, rfl⟩
  rdHeader := ⟨rfl, rfl, rfl, rfl, rfl⟩
  rdPrivate := ⟨rfl, rfl, rfl⟩
  pd := rfl
  lanes := by simp [Lane.reset]
  sinks := ⟨rfl, rfl, rfl, rfl, rfl⟩

/-- Settles O9: the reset event has the values of the table in every state, and the state after power-on is its own reset. -/
theorem resetTakesTheValuesOfTheTable : Obligations.ResetTakesTheValuesOfTheTable := by
  unfold Obligations.ResetTakesTheValuesOfTheTable
  refine ⟨resetBlock_reset ▸ resetBlock_table State.reset, fun s => ⟨resetBlock s, rfl, resetBlock_table s, ?_⟩⟩
  exact ⟨by simp, rfl, rfl, rfl, rfl, rfl, rfl⟩

/-- Settles O14: each number is read off the definition. -/
theorem codesHaveTheNumbersOfTheSpec : Obligations.CodesHaveTheNumbersOfTheSpec := by
  unfold Obligations.CodesHaveTheNumbersOfTheSpec
  and_intros <;> intros <;> rfl

/-- Settles O15: a command decides on other fields only, and every end of it writes the reply anew. -/
theorem noCommandReadsAnEarlierReply : Obligations.NoCommandReadsAnEarlierReply := by
  unfold Obligations.NoCommandReadsAnEarlierReply
  intro i s r
  cases i <;> rfl

end Sys2Proof.Machine

/-! SUPPORT. What the memories and sources give and take: the bytes that a stream bit and a group of `BX` read, and what the host's
loads and emptyings change. -/

namespace Sys2Proof.Machine

/-! ### The bytes that BX.ADVANCE reads (R92, R94, R98) -/

/-- A bit of the padded stream depends on one byte, and on none at or past the size (R92). -/
theorem bufBit?_congr {mem other : Bytes} {size i : Nat} (hmem : size ≤ mem.length) (hother : size ≤ other.length)
    (hbyte : i / 8 < size → mem[i / 8]? = other[i / 8]?) : bufBit? mem size i = bufBit? other size i := by
  by_cases hi : i < 8 * size
  · rw [bufBit?_inside _ _ _ (.inl hi), bufBit?_inside _ _ _ (.inl hi), bitsOf_getElem?, bitsOf_getElem?, streamBit?, streamBit?,
      hbyte (by omega)]
  · rw [bufBit?, bufBit?, if_neg (by omega), if_neg (by omega)]

/-- `BX.ADVANCE` where a group is left (R94). -/
theorem exec_bxAdvance_hasNext {s : State} (hc : s.Clear) (hr : s.bx.st = .ready) (hn : s.bx.hasNext = true) :
    exec .bxAdvance s = .next (answer (s.bx.group (bxBit s))
      { s with bx := s.bx.moved, drawn := if s.bufMem.length < s.bx.size.toNat then s.drawn + 1 else s.drawn }) :=
  congrArg Host.Outcome.next ((accept_clear hc _).trans ((checkReady_ready hr _ _ s).trans (if_pos hn)))

/-- `BX.ADVANCE` where a group is left and the buffer is at least as long as its size: no free value is drawn (R94). -/
theorem exec_bxAdvance_inBuffer {s : State} (hc : s.Clear) (hr : s.bx.st = .ready) (hn : s.bx.hasNext = true)
    (hsize : s.bx.size.toNat ≤ s.bufMem.length) :
    exec .bxAdvance s = .next (answer (s.bx.group (bxBit s)) { s with bx := s.bx.moved }) := by
  rw [exec_bxAdvance_hasNext hc hr hn, if_neg (Nat.not_lt.mpr hsize)]

/-- `BX.ADVANCE` at or past the end of the buffer (R94). -/
theorem exec_bxAdvance_exhausted {s : State} (hc : s.Clear) (hr : s.bx.st = .ready) (hn : ¬ s.bx.hasNext = true) :
    exec .bxAdvance s = .next (raise Instr.bxAdvance.word .exhausted s.bx.cur s) :=
  congrArg Host.Outcome.next ((accept_clear hc _).trans ((checkReady_ready hr _ _ s).trans (if_neg hn)))

/-- Settles O25: bit `j` of the group lies in byte `(cur + j) / 8`, one of those on which the buffers agree, or past the size, and
whether there is a group at all does not depend on the buffer. -/
theorem bxAdvanceReadsOnlyTheBytesOfItsGroup : Obligations.BxAdvanceReadsOnlyTheBytesOfItsGroup := by
  unfold Obligations.BxAdvanceReadsOnlyTheBytesOfItsGroup
  intro s other hc hr _ hmem hother hagree
  by_cases hn : s.bx.hasNext = true
  · have hgroup : s.bx.group (bxBit s) = s.bx.group (bxBit { s with bufMem := other }) := by
      refine s.bx.group_congr fun j hj => ?_
      have hbyte := hagree ((s.bx.cur.toNat + j) / 8) (Nat.div_le_div_right (by omega)) (Nat.div_le_div_right (by omega))
      simp only [bxBit, bufBit?_congr hmem hother hbyte]
    refine ⟨_, exec_bxAdvance_inBuffer hc hr hn hmem, ?_⟩
    rw [hgroup]
    exact exec_bxAdvance_inBuffer (s := { s with bufMem := other }) hc hr hn hother
  · exact ⟨_, exec_bxAdvance_exhausted hc hr hn, exec_bxAdvance_exhausted (s := { s with bufMem := other }) hc hr hn⟩

/-! ### What the host changes (R45, R224) -/

/-- With no action pending the block holds its state (R224). -/
theorem step_idle {s : State} (h : s.pending = []) : step s = .next s := by
  rw [step, h]
  rfl

/-- A change of a lane that exists writes that lane alone (R20). -/
theorem onLane_of_getElem? {s : State} {r : Nat} {l : Lane} (h : s.lanes[r]? = some l) (change : Lane → Lane) :
    onLane r change s = .next { s with lanes := s.lanes.set r (change l) } := by
  rw [onLane_lane (List.getElem?_eq_some_iff.mp h).1, List.modify_eq_set_getElem?, h]
  rfl

/-- Settles O8: a bounded load is decided by its bound, a lane's sink is emptied in that lane, and the other actions update one field. -/
theorem hostActionsChangeOnlyWhatTheyName : Obligations.HostActionsChangeOnlyWhatTheyName := by
  unfold Obligations.HostActionsChangeOnlyWhatTheyName
  exact fun s bytes =>
    ⟨step_idle,
      hostLoadBufMem_fits, fun h => hostLoadBufMem_tooLong (Nat.not_le.mpr h),
      rfl, rfl, rfl,
      hostLoadPdFile_fits, fun h => hostLoadPdFile_tooLong (Nat.not_lt.mpr h),
      rfl, rfl, rfl, rfl, rfl,
      fun _ _ h => ⟨onLane_of_getElem? h _, onLane_of_getElem? h _⟩⟩

end Sys2Proof.Machine

/-! SUPPORT. The opcode map: a word lies in a row exactly when its five fields are those of the row, so the encoder and the decoder
invert each other and the illegal words are those that rule R66 lists. -/

namespace Sys2Proof

/-! ### Rows by their fields (R60, R61, R65) -/

/-- The operations whose row leaves field `A` to an argument (R65). -/
abbrev Opcode.TakesA (op : Opcode) : Prop := op ∈ [.bxInit, .bpInit, .vrRead, .vwWrite, .reEncode, .pdRun]

/-- The operations whose row leaves field `B` to an argument (R65). -/
abbrev Opcode.TakesB (op : Opcode) : Prop := op ∈ [.reEncode, .pdRun]

theorem getLsbD_eq_of_extractLsb'_eq {x y : CmdWord} {start len k : Nat} (h : x.extractLsb' start len = y.extractLsb' start len)
    (hk : start ≤ k ∧ k < start + len) : x.getLsbD k = y.getLsbD k := by
  have hbit := congrArg (·.getLsbD (k - start)) h
  simpa [show k - start < len by omega, Nat.add_sub_cancel' hk.1] using hbit

/-- The five fields make up the word (R60). -/
theorem cmdWord_eq_iff (x y : CmdWord) :
    x = y ↔ unitField x = unitField y ∧ opField x = opField y ∧ mbzField x = mbzField y ∧ argB x = argB y ∧ argA x = argA y := by
  simp only [unitField, opField, mbzField, argB, argA, BitVec.toNat_inj]
  constructor
  · rintro rfl
    exact ⟨rfl, rfl, rfl, rfl, rfl⟩
  · rintro ⟨hunit, hop, hmbz, hB, hA⟩
    refine BitVec.eq_of_getLsbD_eq fun k hk => ?_
    by_cases h8 : k < 8
    · exact getLsbD_eq_of_extractLsb'_eq hA (by omega)
    by_cases h16 : k < 16
    · exact getLsbD_eq_of_extractLsb'_eq hB (by omega)
    by_cases h24 : k < 24
    · exact getLsbD_eq_of_extractLsb'_eq hmbz (by omega)
    by_cases h28 : k < 28
    · exact getLsbD_eq_of_extractLsb'_eq hop (by omega)
    · exact getLsbD_eq_of_extractLsb'_eq hunit (by omega)

/-- Every mask compares the fields `UNIT`, `OP` and `MBZ` whole. -/
theorem mask_top (op : Opcode) :
    (opcodeRow op).mask.extractLsb' 28 4 = BitVec.allOnes 4 ∧ (opcodeRow op).mask.extractLsb' 24 4 = BitVec.allOnes 4 ∧
      (opcodeRow op).mask.extractLsb' 16 8 = BitVec.allOnes 8 := by
  cases op <;> decide

/-- A mask compares an argument field whole where the command has no such argument, and not at all where it has one. -/
theorem mask_args (op : Opcode) :
    (opcodeRow op).mask.extractLsb' 8 8 = (if op.TakesB then 0#8 else BitVec.allOnes 8) ∧
      (opcodeRow op).mask.extractLsb' 0 8 = (if op.TakesA then 0#8 else BitVec.allOnes 8) := by
  cases op <;> decide

/-- Below `OP` every row's `match` is 0. -/
theorem matchBits_fields (op : Opcode) :
    mbzField (opcodeRow op).matchBits = 0 ∧ argB (opcodeRow op).matchBits = 0 ∧ argA (opcodeRow op).matchBits = 0 := by
  cases op <;> decide

/-- What a mask leaves of an argument field is 0 exactly when the mask leaves nothing or the field is 0. -/
theorem masked_eq_zero_iff {p : Prop} [Decidable p] (x : BitVec 8) :
    (x &&& if p then 0#8 else BitVec.allOnes 8).toNat = 0 ↔ x.toNat = 0 ∨ p := by
  by_cases h : p
  · simp [h]
  · simp only [h, if_false, BitVec.and_allOnes, or_false]

/-- A word lies in a row exactly when it has the row's `UNIT` and `OP`, `MBZ` 0, and 0 in every argument field that the command
does not have (R60, R61, R65). -/
theorem covers_iff (op : Opcode) (cw : CmdWord) :
    (opcodeRow op).covers cw = true ↔
      unitField cw = unitField (opcodeRow op).matchBits ∧ opField cw = opField (opcodeRow op).matchBits ∧ mbzField cw = 0 ∧
        (argA cw = 0 ∨ op.TakesA) ∧ (argB cw = 0 ∨ op.TakesB) := by
  obtain ⟨hmbz, hB, hA⟩ := matchBits_fields op
  obtain ⟨mUnit, mOp, mMbz⟩ := mask_top op
  obtain ⟨mB, mA⟩ := mask_args op
  rw [OpcodeRow.covers, beq_iff_eq, cmdWord_eq_iff, hmbz, hB, hA]
  simp only [unitField, opField, mbzField, argB, argA, BitVec.extractLsb'_and, mUnit, mOp, mMbz, mB, mA, BitVec.and_allOnes,
    masked_eq_zero_iff]
  rw [and_comm (a := _ ∨ op.TakesB)]

/-- Settles O4: every row of the table is an operation's row, and a word lies in the row of at most one operation. -/
theorem opcodeRowsAreDisjoint : Obligations.OpcodeRowsAreDisjoint := by
  unfold Obligations.OpcodeRowsAreDisjoint
  intro cw p q hp hq hpc hqc
  obtain ⟨op, rfl⟩ := mem_opcodeTable p hp
  obtain ⟨op', rfl⟩ := mem_opcodeTable q hq
  rw [covers_unique op op' cw hpc hqc]

/-! ### Encoder and decoder (R61, R62) -/

/-- The word of a well-formed command lies in the command's row. -/
theorem opcodeRow_covers_word (i : Instr) (h : i.WellFormed) : (opcodeRow i.opcode).covers i.word = true := by
  cases i with
  | bxInit a d => exact Laws.EncodedWordInRow.bxInit a d h
  | bxHasNext => exact Laws.EncodedWordInRow.bxHasNext h
  | bxAdvance => exact Laws.EncodedWordInRow.bxAdvance h
  | bxUnused => exact Laws.EncodedWordInRow.bxUnused h
  | bpInit a => exact Laws.EncodedWordInRow.bpInit a h
  | bpPush d => exact Laws.EncodedWordInRow.bpPush d h
  | bpClose => exact Laws.EncodedWordInRow.bpClose h
  | vrInit => exact Laws.EncodedWordInRow.vrInit h
  | vrRead a => exact Laws.EncodedWordInRow.vrRead a h
  | vwInit => exact Laws.EncodedWordInRow.vwInit h
  | vwWrite a d => exact Laws.EncodedWordInRow.vwWrite a d h
  | vwClose => exact Laws.EncodedWordInRow.vwClose h
  | reEncode a b => exact Laws.EncodedWordInRow.reEncode a b h
  | rdDecode => exact Laws.EncodedWordInRow.rdDecode h
  | pdRun a b => exact Laws.EncodedWordInRow.pdRun a b h

/-- Settles O2: the word lies in the command's row, and its argument fields are the command's arguments. -/
theorem decodeInvertsEncode : Obligations.DecodeInvertsEncode := by
  unfold Obligations.DecodeInvertsEncode
  intro i h
  calc decode (encode i)
      = .ok (i.opcode.instr (argA i.word) (argB i.word) i.din) := decode_of_covers i.opcode (encode i) (opcodeRow_covers_word i h)
    _ = .ok (i.opcode.instr i.fieldA i.fieldB i.din) := by rw [argA_word i h, argB_word i h]
    _ = .ok i := by rw [instr_of_fields]

@[simp] theorem opcode_instr (op : Opcode) (a b : Nat) (d : Word) : (op.instr a b d).opcode = op := by cases op <;> rfl

theorem instr_wellFormed (op : Opcode) {a b : Nat} (d : Word) (ha : FitsField a) (hb : FitsField b) :
    (op.instr a b d).WellFormed := by
  cases op with
  | bxInit | bpInit | vrRead | vwWrite => exact ha
  | reEncode | pdRun => exact ⟨ha, hb⟩
  | _ => trivial

/-- A command made of the fields of a word in its row has just these fields. -/
theorem fieldA_instr {op : Opcode} {a : Nat} (b : Nat) (d : Word) (h : a = 0 ∨ op.TakesA) : (op.instr a b d).fieldA = a := by
  cases op with
  | bxInit | bpInit | vrRead | vwWrite | reEncode | pdRun => rfl
  | _ => exact (h.resolve_right (by decide)).symm

theorem fieldB_instr {op : Opcode} (a : Nat) {b : Nat} (d : Word) (h : b = 0 ∨ op.TakesB) : (op.instr a b d).fieldB = b := by
  cases op with
  | reEncode | pdRun => rfl
  | _ => exact (h.resolve_right (by decide)).symm

/-- The word of a command made of the fields of a word in its row is that word: the two agree in all five fields. -/
theorem word_instr {op : Opcode} {cw : CmdWord} (h : (opcodeRow op).covers cw = true) (d : Word) :
    (op.instr (argA cw) (argB cw) d).WellFormed ∧ (op.instr (argA cw) (argB cw) d).word = cw := by
  have hwf : (op.instr (argA cw) (argB cw) d).WellFormed := instr_wellFormed op d (BitVec.isLt _) (BitVec.isLt _)
  have hrow := opcodeRow_covers_word _ hwf
  rw [opcode_instr] at hrow
  obtain ⟨hunit, hop, hmbz, hA, hB⟩ := (covers_iff op cw).mp h
  obtain ⟨hunit', hop', hmbz', -, -⟩ := (covers_iff op _).mp hrow
  refine ⟨hwf, (cmdWord_eq_iff _ _).mpr ⟨hunit'.trans hunit.symm, hop'.trans hop.symm, hmbz'.trans hmbz.symm, ?_, ?_⟩⟩
  · rw [argB_word _ hwf, fieldB_instr _ d hB]
  · rw [argA_word _ hwf, fieldA_instr _ d hA]

/-- Settles O3: the word lies in the row of the command it decodes to. -/
theorem encodeInvertsDecode : Obligations.EncodeInvertsDecode := by
  unfold Obligations.EncodeInvertsDecode
  intro c i h
  obtain ⟨op, hrow, rfl⟩ := covers_of_decode c i h
  exact word_instr hrow c.din

/-- Settles O1: each word is decoded by evaluation. -/
theorem decodeReadsTheWordsOfTheSpec : Obligations.DecodeReadsTheWordsOfTheSpec := by
  unfold Obligations.DecodeReadsTheWordsOfTheSpec
  and_intros <;> rfl

/-! ### Illegal words (R66) -/

/-- An `OP` beyond the unit's last, where a unit that does not exist has none. -/
theorem opCount_le_iff (u o : Nat) :
    opCount u ≤ o ↔
      u = 0 ∨ 8 ≤ u ∨ (u = 1 ∧ 4 ≤ o) ∨ ((u = 2 ∨ u = 4) ∧ 3 ≤ o) ∨ (u = 3 ∧ 2 ≤ o) ∨ ((u = 5 ∨ u = 6 ∨ u = 7) ∧ 1 ≤ o) := by
  match u with
  | 0 | 1 | 2 | 3 | 4 | 5 | 6 | 7 => simp [opCount]
  | u + 8 => simp [opCount]

theorem opField_lt_opCount (op : Opcode) : opField (opcodeRow op).matchBits < opCount (unitField (opcodeRow op).matchBits) := by
  cases op <;> decide

/-- Every operation number of a unit has its row. -/
theorem exists_opcode_of_lt {cw : CmdWord} (h : opField cw < opCount (unitField cw)) :
    ∃ op, unitField cw = unitField (opcodeRow op).matchBits ∧ opField cw = opField (opcodeRow op).matchBits := by
  have table : ∀ u o : Fin 16, o.val < opCount u.val →
      ∃ row ∈ opcodeTable, u.val = unitField row.matchBits ∧ o.val = opField row.matchBits := by
    decide
  obtain ⟨row, hrow, hfields⟩ := table ⟨unitField cw, BitVec.isLt _⟩ ⟨opField cw, BitVec.isLt _⟩ h
  obtain ⟨op, rfl⟩ := mem_opcodeTable row hrow
  exact ⟨op, hfields⟩

theorem takesA_iff (op : Opcode) :
    op.TakesA ↔ (unitField (opcodeRow op).matchBits, opField (opcodeRow op).matchBits) ∈
      [(1, 0), (2, 0), (3, 1), (4, 1), (5, 0), (7, 0)] := by
  cases op <;> decide

theorem takesB_iff (op : Opcode) :
    op.TakesB ↔ (unitField (opcodeRow op).matchBits, opField (opcodeRow op).matchBits) ∈ [(5, 0), (7, 0)] := by
  cases op <;> decide

/-- Which words are legal, by their fields (R65, R66). -/
theorem exists_covers_iff (cw : CmdWord) :
    (∃ op, (opcodeRow op).covers cw = true) ↔
      opField cw < opCount (unitField cw) ∧ mbzField cw = 0 ∧
        (argA cw = 0 ∨ (unitField cw, opField cw) ∈ [(1, 0), (2, 0), (3, 1), (4, 1), (5, 0), (7, 0)]) ∧
        (argB cw = 0 ∨ (unitField cw, opField cw) ∈ [(5, 0), (7, 0)]) := by
  constructor
  · rintro ⟨op, h⟩
    obtain ⟨hunit, hop, hmbz, hA, hB⟩ := (covers_iff op cw).mp h
    rw [takesA_iff, ← hunit, ← hop] at hA
    rw [takesB_iff, ← hunit, ← hop] at hB
    exact ⟨hunit ▸ hop ▸ opField_lt_opCount op, hmbz, hA, hB⟩
  · rintro ⟨hlt, hmbz, hA, hB⟩
    obtain ⟨op, hunit, hop⟩ := exists_opcode_of_lt hlt
    rw [hunit, hop, ← takesA_iff] at hA
    rw [hunit, hop, ← takesB_iff] at hB
    exact ⟨op, (covers_iff op cw).mpr ⟨hunit, hop, hmbz, hA, hB⟩⟩

theorem decode_error_iff_not_covers (c : Command) : (∃ e, decode c = .error e) ↔ ¬ ∃ op, (opcodeRow op).covers c.cw = true := by
  simp [decode_error_iff]

/-! ### The reach of DIN (R62) -/

/-- Three operations take `DIN` as their operand (R62); the command of any other is the same whatever `DIN` is. -/
theorem instr_din (op : Opcode) (a b : Nat) (d d' : Word) :
    if op = .bxInit ∨ op = .bpPush ∨ op = .vwWrite then (op.instr a b d).din = d else op.instr a b d' = op.instr a b d := by
  cases op <;> rfl

theorem decode_din {cw : CmdWord} {d : Word} {i : Instr} (d' : Word) (h : decode ⟨cw, d⟩ = .ok i) :
    if i.opcode = .bxInit ∨ i.opcode = .bpPush ∨ i.opcode = .vwWrite then i.din = d else decode ⟨cw, d'⟩ = .ok i := by
  obtain ⟨op, hrow, rfl⟩ := covers_of_decode _ i h
  rw [opcode_instr, decode_of_covers op ⟨cw, d'⟩ hrow, Except.ok.injEq]
  exact instr_din op _ _ d d'

end Sys2Proof

/-! SUPPORT. What commands do with the words and operands they are given: an illegal word, the operand `DIN`, the reply, and the Fragment
that `RE.ENCODE` writes and `RD.DECODE` reads. -/

namespace Sys2Proof.Machine

/-! ### Illegal words at the command port (R66) -/

/-- The step that presents an illegal word to a block without a latched fault (R66, R219). -/
theorem step_illegal {s : State} {c : Command} {rest : List HostAction} {e : Illegal} (hc : s.Clear)
    (hpending : s.pending = .command c :: rest) (h : decode c = .error e) :
    step s = .next (raise c.cw .illegalCommand 0#64 { s with pending := rest }) := by
  have hissue : step s = issue c { s with pending := rest } := by rw [step, hpending]; rfl
  rw [hissue, issue, h]
  exact congrArg Host.Outcome.next (accept_clear (s := { s with pending := rest }) hc _)

/-- Settles O5: a word is rejected when no row covers it, which is the negation of what its fields are in a legal word. -/
theorem illegalWordsRaiseIllegalCommand : Obligations.IllegalWordsRaiseIllegalCommand := by
  unfold Obligations.IllegalWordsRaiseIllegalCommand
  refine ⟨fun c => ?_, fun s c rest hc hpending ⟨e, he⟩ => step_illegal hc hpending he⟩
  rw [decode_error_iff_not_covers, exists_covers_iff]
  simp only [not_and_or, not_or, Nat.not_lt, opCount_le_iff, or_assoc, ne_eq]

/-! ### The bits of DIN that count (R62, R107, R128) -/

/-- A field takes only the low bits of a value. -/
theorem field_congr {w : Nat} {v v' : Word} (h : ∀ k < w, v.getLsbD k = v'.getLsbD k) : field w v = field w v' := by
  unfold field
  refine List.map_congr_left fun k hk => h _ ?_
  have := List.mem_range.mp hk
  omega

theorem lowBits_congr {w : Nat} {v v' : Word} (h : ∀ k < w, v.getLsbD k = v'.getLsbD k) : lowBits w v = lowBits w v' := by
  rw [← ofBits_field, ← ofBits_field, field_congr h]

theorem Packer.push_congr (p : Packer) {v v' : Word} (h : ∀ k < p.width.toNat, v.getLsbD k = v'.getLsbD k) :
    p.push v = p.push v' := by
  rw [Packer.push, Packer.push, lowBits_congr h]

theorem exec_bpPush_congr {s : State} {v v' : Word} (h : ∀ k < s.bp.width.toNat, v.getLsbD k = v'.getLsbD k) :
    exec (.bpPush v) s = exec (.bpPush v') s := by
  show execBpPush v s = execBpPush v' s
  simp only [execBpPush, accept, checkReady, Packer.push_congr _ h]
  rfl

theorem exec_vwWrite_congr {s : State} {w : Nat} {v v' : Word} (h : ∀ k < w, v.getLsbD k = v'.getLsbD k) :
    exec (.vwWrite w v) s = exec (.vwWrite w v') s := by
  show execVwWrite w v s = execVwWrite w v' s
  simp only [execVwWrite, Writer.write, field_congr h]
  rfl

/-- Settles O6: `DIN` enters the command of its row alone, and a packer and a writer take the bits of the field. -/
theorem dinReachesOnlyThreeCommands : Obligations.DinReachesOnlyThreeCommands := by
  unfold Obligations.DinReachesOnlyThreeCommands
  exact ⟨fun _ _ d' _ h => decode_din d' h, fun _ _ _ h => exec_bpPush_congr h, fun _ _ _ _ h => exec_vwWrite_congr h⟩

/-! ### The reply (R64, R219, R220) -/

/-- Every end of a command writes a reply: a result and no fault, a fault with its code, or a refusal. -/
theorem EndsIn.reply {i : Instr} {s t : State} (h : EndsIn s i t) :
    ∃ r, t.reply = some r ∧
      ((s.Clear ∧ r.status = .ended .ok ∧ t.fault = s.fault) ∨
        (s.Clear ∧ t.fault.code ≠ .ok ∧ t.fault.cw = i.word ∧ r = ⟨.ended t.fault.code, 0#64⟩) ∨
        (¬ s.Clear ∧ r = ⟨.refused, 0#64⟩ ∧ t.fault = s.fault)) := by
  cases h with
  | refused hc => exact ⟨_, rfl, .inr (.inr ⟨hc, rfl, rfl⟩)⟩
  | raised hc _ hcode => exact ⟨_, rfl, .inr (.inl ⟨hc, hcode, rfl, rfl⟩)⟩
  | rdDecodeFault hc hrun => exact ⟨_, rfl, .inr (.inl ⟨hc, (Decoder.run_raised_inv hrun).2, rfl, rfl⟩)⟩
  | pdAbort hc => exact ⟨_, rfl, .inr (.inl ⟨hc, by simp, rfl, rfl⟩)⟩
  | _ => exact ⟨_, rfl, .inl ⟨‹s.Clear›, rfl, rfl⟩⟩

/-- Settles O12: every command ends in one of the ways of `EndsIn`, each of which writes a reply. -/
theorem everyCommandEndsWithAReply : Obligations.EveryCommandEndsWithAReply := by
  unfold Obligations.EveryCommandEndsWithAReply
  intro i s
  obtain ⟨t, hexec, hends⟩ := exec_next i s
  obtain ⟨r, hreply⟩ := hends.reply
  exact ⟨t, r, hexec, hreply⟩

/-! ### Fragments written and read (R71 to R75) -/

/-- Settles O39: an accepted encode leaves what `Encoder.run_spec` says of its run. -/
theorem encodeProducesTheFragmentOfTheRuns : Obligations.EncodeProducesTheFragmentOfTheRuns := by
  unfold Obligations.EncodeProducesTheFragmentOfTheRuns
  intro s kw np hc hw hb
  obtain ⟨keys, counts, h⟩ := s.re.run_spec kw np s.bufMem hw hb
  have hresult : (s.re.run kw np s.bufMem).enc.numRuns.zeroExtend 64 = BitVec.ofNat 64 keys.length := by
    rw [← h.numRuns]
    exact BitVec.eq_of_toNat_eq (by simp)
  refine ⟨_, keys, counts, exec_reEncode_accepted hc hw, ?_, h.lengths, h.expand, h.differ, h.nonzero, h.sum, h.dataBytes,
    h.metaBytes, h.keyWidth, h.np, h.numRuns, h.maxCount, h.rcs⟩
  rw [hresult]
  rfl

/-- A decode that ends without a fault (R166). -/
theorem exec_rdDecode_going {s : State} {d : Decoding} (hc : s.Clear) (h : s.rd.run s.rdMetaSrc s.rdDataSrc = .going d) :
    exec .rdDecode s = .next (answer 0#64 (withDecoding s d)) := by
  refine congrArg Host.Outcome.next ((accept_clear hc _).trans ?_)
  simp only [h]

theorem metaBits_append (np numRuns runWidth : Nat) (body rest : List Bool) :
    metaBits np numRuns runWidth (body ++ rest) = metaBits np numRuns runWidth body ++ rest := by
  simp [metaBits]

/-- Settles O43: `Decoder.run_records` with the header bytes of the widths and counts. -/
theorem decodeExpandsTheRunRecords : Obligations.DecodeExpandsTheRunRecords := by
  unfold Obligations.DecodeExpandsTheRunRecords
  intro s np kw rw records metaRest dataRest hc hnp hkw hrw hlen hfit hm hd hmeta hdata
  have eNp : (BitVec.ofNat 8 np).toNat = np := Nat.mod_eq_of_lt hnp
  have eKw : (BitVec.ofNat 8 kw).toNat = kw := Nat.mod_eq_of_lt (hkw.2.trans_lt (by norm_num))
  have eRw : (BitVec.ofNat 8 rw).toNat = rw := Nat.mod_eq_of_lt (hrw.2.trans_lt (by norm_num))
  have eLen : (BitVec.ofNat 48 records.length).toNat = records.length := Nat.mod_eq_of_lt hlen
  obtain ⟨d, hrun, hout, dNp, dRuns, dRw, dKw, dI, hrm, hrk⟩ :=
    s.rd.run_records (np := BitVec.ofNat 8 np) (kw := BitVec.ofNat 8 kw) (rw := BitVec.ofNat 8 rw) hm hd (by rwa [eRw])
      (by rwa [eKw]) records hlen (by rwa [eRw, eKw]) (by rw [eNp, eRw, metaBits_append, hmeta])
      (by rw [eKw, hdata, List.append_assoc])
  rw [eKw] at hout
  exact ⟨_, exec_rdDecode_going hc hrun, rfl, hout, dNp ▸ eNp, dRuns ▸ eLen, dRw ▸ eRw, dKw ▸ eKw, dI ▸ eLen, hrm, hrk⟩

end Sys2Proof.Machine

/-! SUPPORT. The commands of `BX`: how each ends, the next group in bits, and the groups of a whole buffer, which are its keys
left-justified (R91 to R97). -/

namespace Sys2Proof.Machine

/-! ### A command that needs a ready unit -/

theorem accept_checkReady_ready {s : State} {st : UnitState} (hc : s.Clear) (hr : st = .ready) (cw : CmdWord) (run : State → State) :
    accept s (checkReady cw st run) = run s := (accept_clear hc _).trans (checkReady_ready hr cw run s)

theorem accept_checkReady_other {s : State} {st : UnitState} (hc : s.Clear) (hr : st ≠ .ready) (cw : CmdWord)
    (run : State → State) : accept s (checkReady cw st run) = raise cw .badState (auxOfState st) s :=
  (accept_clear hc _).trans (checkReady_other hr cw run s)

/-! ### BX.INIT (R91) -/

theorem exec_bxInit_badArgument {s : State} {w : Nat} (hc : s.Clear) (hw : ¬ WidthOk w) (size : Word) :
    exec (.bxInit w size) s = .next (raise (Instr.bxInit w size).word .badArgument (auxOfNat w) s) :=
  congrArg Host.Outcome.next ((accept_clear hc _).trans (checkWidth_bad hw _ _ s))

theorem exec_bxInit_tooLarge {s : State} {w : Nat} {size : Word} (hc : s.Clear) (hw : WidthOk w)
    (hsize : s.bufMem.length < size.toNat) :
    exec (.bxInit w size) s = .next (raise (Instr.bxInit w size).word .resource size s) :=
  congrArg Host.Outcome.next ((accept_clear hc _).trans ((checkWidth_ok hw _ _ s).trans (if_pos hsize)))

theorem exec_bxInit_accepted {s : State} {w : Nat} {size : Word} (hc : s.Clear) (hw : WidthOk w)
    (hsize : ¬ s.bufMem.length < size.toNat) :
    exec (.bxInit w size) s = .next (answer 0#64 { s with bx := Extractor.init w size }) :=
  congrArg Host.Outcome.next ((accept_clear hc _).trans ((checkWidth_ok hw _ _ s).trans (if_neg hsize)))

/-- Settles O19: the width decides first, then the size against the buffer memory. -/
theorem bxInitStartsTheExtractor : Obligations.BxInitStartsTheExtractor := by
  unfold Obligations.BxInitStartsTheExtractor
  intro s w size hc
  by_cases hw : WidthOk w
  · rw [if_neg (not_not_intro hw)]
    by_cases hsize : s.bufMem.length < size.toNat
    · rw [if_pos hsize]
      exact exec_bxInit_tooLarge hc hw hsize
    · rw [if_neg hsize]
      exact exec_bxInit_accepted hc hw hsize
  · rw [if_pos hw]
    exact exec_bxInit_badArgument hc hw size

/-! ### BX.HASNEXT and BX.UNUSED (R93, R95) -/

theorem exec_bxHasNext_ready {s : State} (hc : s.Clear) (hr : s.bx.st = .ready) :
    exec .bxHasNext s = .next (answer (if s.bx.cur.toNat < 8 * s.bx.size.toNat then 1#64 else 0#64) s) := by
  simp only [← Extractor.hasNext_iff]
  exact congrArg Host.Outcome.next (accept_checkReady_ready hc hr _ _)

/-- `BX.HASNEXT` returns 1 exactly where a real bit is left (R93). -/
theorem exec_bxHasNext_one_iff {s : State} (hc : s.Clear) (hr : s.bx.st = .ready) :
    exec .bxHasNext s = .next (answer 1#64 s) ↔ s.bx.cur.toNat < 8 * s.bx.size.toNat := by
  rw [exec_bxHasNext_ready hc hr]
  by_cases hn : s.bx.cur.toNat < 8 * s.bx.size.toNat <;> simp [hn, answer]

/-- Settles O20: an open extractor answers whether a bit is left, any other state is the fault. -/
theorem bxHasNextTellsWhetherABitRemains : Obligations.BxHasNextTellsWhetherABitRemains := by
  unfold Obligations.BxHasNextTellsWhetherABitRemains
  intro s hc
  by_cases hr : s.bx.st = .ready
  · rw [if_neg (not_not_intro hr)]
    exact exec_bxHasNext_ready hc hr
  · rw [if_pos hr]
    exact congrArg Host.Outcome.next (accept_checkReady_other hc hr _ _)

/-- The count of the real bits left, where the size in bits is a 64-bit number (R95). -/
theorem Extractor.unused_toNat (x : Extractor) (h : 8 * x.size.toNat < 2 ^ 64) :
    x.unused.toNat = 8 * x.size.toNat - x.cur.toNat :=
  Nat.mod_eq_of_lt ((Nat.sub_le _ _).trans_lt h)

/-- Settles O23: the count is a truncated difference, which is not 0 exactly while the cursor is before the end. -/
theorem bxUnusedCountsTheRemainingBits : Obligations.BxUnusedCountsTheRemainingBits := by
  unfold Obligations.BxUnusedCountsTheRemainingBits
  intro s hc
  refine ⟨fun hr => congrArg Host.Outcome.next (accept_checkReady_other hc hr _ _), fun hr hsize => ?_⟩
  have hcount := s.bx.unused_toNat hsize
  refine ⟨s.bx.unused, congrArg Host.Outcome.next (accept_checkReady_ready hc hr _ _), ?_, ?_⟩
  · rw [hcount]
    split <;> omega
  · calc s.bx.unused ≠ 0#64 ↔ s.bx.unused.toNat ≠ 0 := not_congr BitVec.toNat_inj.symm
      _ ↔ s.bx.cur.toNat < 8 * s.bx.size.toNat := by omega
      _ ↔ _ := (exec_bxHasNext_one_iff hc hr).symm

/-! ### BX.ADVANCE (R94) -/

/-- In a buffer at least as long as the size, `BX` sees the bits of the padded stream (R92). -/
theorem bxBit_eq_paddedBit {s : State} (hsize : s.bx.size.toNat ≤ s.bufMem.length) (j : Nat) :
    bxBit s j = Claims.paddedBit s.bufMem s.bx.size.toNat (s.bx.cur.toNat + j) := by
  rw [bxBit, bufBit?_eq _ _ _ hsize, Option.getD_some]

/-- Only the cursor moves, by the group width (R94). -/
theorem Extractor.moved_eq (x : Extractor) : x.moved = { x with cur := BitVec.ofNat 64 (x.cur.toNat + x.step.toNat) } := by
  have hcur : x.cur + x.step.zeroExtend 64 = BitVec.ofNat 64 (x.cur.toNat + x.step.toNat) :=
    BitVec.eq_of_toNat_eq (by simp [BitVec.toNat_add])
  rw [Extractor.moved, hcur]

/-- Settles O21: the bits of a group are those of the padded stream, and the move is the addition of the width. -/
theorem bxAdvanceReturnsTheNextGroup : Obligations.BxAdvanceReturnsTheNextGroup := by
  unfold Obligations.BxAdvanceReturnsTheNextGroup
  intro s hc
  refine ⟨fun hr => congrArg Host.Outcome.next (accept_checkReady_other hc hr _ _),
    fun hr hend => exec_bxAdvance_exhausted hc hr (s.bx.hasNext_iff.not.mpr (Nat.not_lt.mpr hend)),
    fun hr hn hw _ hsize => ⟨s.bx.group (bxBit s), ?_, fun j hj => ?_, s.bx.group_low _⟩⟩
  · rw [← Extractor.moved_eq]
    exact exec_bxAdvance_inBuffer hc hr (s.bx.hasNext_iff.mpr hn) hsize
  · rw [s.bx.group_bit _ hw j hj, bxBit_eq_paddedBit hsize]

/-! ### The groups of a buffer (R96, R97) -/

/-- `BX` has taken `g` groups of width `w` of `buf`, the first bytes of the buffer memory. -/
structure Extracting (w : Nat) (buf : Bytes) (g : Nat) (s : State) : Prop where
  clear : s.Clear
  ready : s.bx.st = .ready
  step : s.bx.step.toNat = w
  size : s.bx.size.toNat = buf.length
  buf_prefix : buf <+: s.bufMem
  cur : s.bx.cur.toNat = g * w

theorem Extracting.size_le {w : Nat} {buf : Bytes} {g : Nat} {s : State} (h : Extracting w buf g s) :
    s.bx.size.toNat ≤ s.bufMem.length := h.size ▸ h.buf_prefix.length_le

/-- Right after `BX.INIT` no group has been taken (R91). -/
theorem Extracting.init {s : State} {w n : Nat} (hc : s.Clear) (hw : WidthOk w) (hn : n ≤ s.bufMem.length) (hb : n < 2 ^ 64)
    (v : Word) : Extracting w (s.bufMem.take n) 0 (answer v { s with bx := Extractor.init w (BitVec.ofNat 64 n) }) where
  clear := hc
  ready := rfl
  step := Extractor.init_step w _ hw
  size := by
    rw [List.length_take_of_le hn]
    exact Nat.mod_eq_of_lt hb
  buf_prefix := List.take_prefix n s.bufMem
  cur := (Nat.zero_mul w).symm

/-- A group remains exactly while not all groups of the buffer are taken (R93, R96). -/
theorem Extracting.bits_left_iff {w : Nat} {buf : Bytes} {g : Nat} {s : State} (h : Extracting w buf g s) (hw : WidthOk w) :
    s.bx.cur.toNat < 8 * s.bx.size.toNat ↔ g < groupCount buf.length w := by
  rw [h.cur, h.size, lt_groupCount_iff _ _ _ hw.1]

/-- The next group is the buffer's next key, left-justified (R6, R97). -/
theorem Extracting.group {w : Nat} {buf : Bytes} {g : Nat} {s : State} (h : Extracting w buf g s)
    (hg : g < (keysOf w buf).length) : s.bx.group (bxBit s) = leftJustify w (keysOf w buf)[g] := by
  have hbit : bxBit s = fun j => (bitsOf buf).getD (g * w + j) false := by
    funext j
    rw [bxBit_eq_paddedBit h.size_le, Claims.paddedBit, h.size, h.cur, ← List.prefix_iff_eq_take.mp h.buf_prefix]
  rw [Extractor.group, h.step, hbit, keysOf_getElem]

/-- One `BX.ADVANCE` takes one group more, as long as the cursor fits its 64 bits (R94). -/
theorem Extracting.moved {w : Nat} {buf : Bytes} {g : Nat} {s : State} (h : Extracting w buf g s)
    (hfit : g * w + w < 2 ^ 64) (v : Word) : Extracting w buf (g + 1) (answer v { s with bx := s.bx.moved }) where
  clear := h.clear
  ready := h.ready
  step := h.step
  size := h.size
  buf_prefix := h.buf_prefix
  cur := by
    have hcur := s.bx.moved_cur (by rwa [h.cur, h.step])
    rwa [h.cur, h.step, ← Nat.succ_mul] at hcur

theorem Extracting.advance {w : Nat} {buf : Bytes} {g : Nat} {s : State} (h : Extracting w buf g s) (hw : WidthOk w)
    (hb : buf.length ≤ 2 ^ 45 - 1) (hg : g < (keysOf w buf).length) :
    ∃ t, exec .bxAdvance s = .next t ∧ t.reply = some ⟨.ended .ok, leftJustify w (keysOf w buf)[g]⟩ ∧ Extracting w buf (g + 1) t := by
  have hleft : g < groupCount buf.length w := by simpa using hg
  have hbits := (lt_groupCount_iff _ _ _ hw.1).mp hleft
  have hn : s.bx.hasNext = true := s.bx.hasNext_iff.mpr ((h.bits_left_iff hw).mpr hleft)
  have hw2 := hw.2
  refine ⟨_, exec_bxAdvance_inBuffer h.clear h.ready hn h.size_le, ?_, h.moved (by omega) _⟩
  rw [answer_reply, h.group hg]

/-- The first `k` groups of the buffer are its first `k` keys, left-justified (R97). -/
theorem Extracting.run {w : Nat} {buf : Bytes} {s : State} (h : Extracting w buf 0 s) (hw : WidthOk w)
    (hb : buf.length ≤ 2 ^ 45 - 1) (k : Nat) (hk : k ≤ (keysOf w buf).length) :
    ∃ t, runOk (List.replicate k .bxAdvance) s = some (t, ((keysOf w buf).take k).map (leftJustify w)) ∧ Extracting w buf k t := by
  induction k with
  | zero => exact ⟨s, rfl, h⟩
  | succ k ih =>
    obtain ⟨t, hrun, ht⟩ := ih (by omega)
    obtain ⟨u, hexec, hreply, hu⟩ := ht.advance hw hb (by omega)
    refine ⟨u, ?_, hu⟩
    rw [List.replicate_succ', ← List.take_concat_get' _ k (by omega), List.map_append]
    exact runOk_append hrun (runOk_cons hexec hreply rfl)

/-- All the groups of the buffer. -/
theorem Extracting.run_all {w : Nat} {buf : Bytes} {s : State} (h : Extracting w buf 0 s) (hw : WidthOk w)
    (hb : buf.length ≤ 2 ^ 45 - 1) :
    ∃ t, runOk (List.replicate (groupCount buf.length w) .bxAdvance) s = some (t, (keysOf w buf).map (leftJustify w)) ∧
      Extracting w buf (groupCount buf.length w) t := by
  have hrun := h.run hw hb (keysOf w buf).length le_rfl
  rwa [List.take_length, keysOf_length] at hrun

/-! ### The keys of a buffer and its bytes (R97) -/

/-- Shifting a left-justified key back gives the key. -/
theorem rightJustify_leftJustify_key {w : Nat} (hw : w ≤ 64) {buf : Bytes} {key : Word} (hkey : key ∈ keysOf w buf) :
    rightJustify w (leftJustify w key) = key := by
  obtain ⟨g, hg, rfl⟩ := List.mem_iff_getElem.mp hkey
  exact rightJustify_leftJustify w _ hw (keysOf_lt w hw buf g hg)

theorem byteBits_setWidth (v : Word) : (List.range 8).map (byteBit (v.setWidth 8)) = field 8 v := by
  rw [byteBits_eq_field, ← field_lowBits 8 v, BitVec.toNat_setWidth]
  rfl

theorem bitsOf_map_setWidth (keys : List Word) : bitsOf (keys.map (BitVec.setWidth 8)) = keys.flatMap (field 8) := by
  simp only [bitsOf, List.flatMap_map, byteBits_setWidth]

/-- At width 8 the keys are the bytes: they have the same bits, and no group is padded (R97). -/
theorem keysOf_eight (buf : Bytes) : (keysOf 8 buf).map (BitVec.setWidth 8) = buf := by
  have hcount : groupCount buf.length 8 * 8 - 8 * buf.length = 0 := by
    rw [groupCount]
    omega
  apply bitsOf_injective
  rw [bitsOf_map_setWidth, flatMap_keysOf 8 (by decide), hcount, List.replicate_zero, List.append_nil]

/-- Settles O24: the groups are the keys of the first `n` bytes, left-justified; after the last of them no bit is left. -/
theorem bxGroupsReproduceTheBuffer : Obligations.BxGroupsReproduceTheBuffer := by
  unfold Obligations.BxGroupsReproduceTheBuffer
  intro s w n hc hw hn hb
  have hlen : (s.bufMem.take n).length = n := List.length_take_of_le hn
  have hsize : (BitVec.ofNat 64 n).toNat = n := Nat.mod_eq_of_lt (by omega)
  have hinit := exec_bxInit_accepted (size := BitVec.ofNat 64 n) hc hw (by rw [hsize]; omega)
  obtain ⟨t, hrun, ht⟩ := (Extracting.init hc hw hn (by omega) 0#64).run_all hw (hlen.trans_le hb)
  have hright : ∀ key ∈ keysOf w (s.bufMem.take n), leftJustify w key >>> (64 - w) = key :=
    fun key hkey => rightJustify_leftJustify_key hw.2 hkey
  have hend : ¬ t.bx.cur.toNat < 8 * t.bx.size.toNat := (ht.bits_left_iff hw).not.mpr (lt_irrefl _)
  have hnone := exec_bxHasNext_ready ht.clear ht.ready
  rw [if_neg hend] at hnone
  rw [hlen] at hrun
  refine ⟨t, _, runOk_cons hinit rfl hrun, by rw [List.length_map, keysOf_length, hlen], ?_, (groupCount_mul n w hw.1).1,
    (groupCount_mul n w hw.1).2, hnone, exec_bxAdvance_exhausted ht.clear ht.ready (t.bx.hasNext_iff.not.mpr hend), ?_⟩
  · have hbits := flatMap_keysOf w hw (s.bufMem.take n)
    rw [hlen] at hbits
    rw [List.flatMap_map, ← hbits]
    exact List.flatMap_congr fun key hkey => congrArg (field w) (hright key hkey)
  · rintro rfl
    rw [List.map_map]
    exact (List.map_congr_left fun key hkey => congrArg (BitVec.setWidth 8) (hright key hkey)).trans (keysOf_eight _)

end Sys2Proof.Machine

/-! SUPPORT. The commands of `BP` and of `VW`: how each ends, and what a session of pushes or of writes has put into its sink, in bits
(R106 to R111, R126 to R130). -/

namespace Sys2Proof.Machine

/-! ### How the commands of `BP` end (R106, R108, R109) -/

theorem exec_bpInit_badArgument {s : State} {w : Nat} (hc : s.Clear) (hw : ¬ WidthOk w) :
    exec (.bpInit w) s = .next (raise (Instr.bpInit w).word .badArgument (auxOfNat w) s) :=
  congrArg Host.Outcome.next ((accept_clear hc _).trans (checkWidth_bad hw _ _ s))

theorem exec_bpInit_badState {s : State} {w : Nat} (hc : s.Clear) (hw : WidthOk w) (hr : s.bp.st = .ready) :
    exec (.bpInit w) s = .next (raise (Instr.bpInit w).word .badState (auxOfState s.bp.st) s) :=
  congrArg Host.Outcome.next ((accept_clear hc _).trans ((checkWidth_ok hw _ _ s).trans (checkNotReady_ready hr _ _ s)))

theorem exec_bpInit_accepted {s : State} {w : Nat} (hc : s.Clear) (hw : WidthOk w) (hr : s.bp.st ≠ .ready) :
    exec (.bpInit w) s = .next (answer 0#64 { s with bp := Packer.init w }) :=
  congrArg Host.Outcome.next ((accept_clear hc _).trans ((checkWidth_ok hw _ _ s).trans (checkNotReady_other hr _ _ s)))

theorem exec_bpPush_ready {s : State} (hc : s.Clear) (hr : s.bp.st = .ready) (v : Word) :
    exec (.bpPush v) s = .next (answer 0#64 { s with bp := (s.bp.push v).1, bpSink := s.bpSink ++ (s.bp.push v).2 }) :=
  congrArg Host.Outcome.next (accept_checkReady_ready hc hr _ _)

theorem exec_bpClose_ready {s : State} (hc : s.Clear) (hr : s.bp.st = .ready) :
    exec .bpClose s = .next (answer 0#64 { s with bp := s.bp.close.1, bpSink := s.bpSink ++ s.bp.close.2 }) :=
  congrArg Host.Outcome.next (accept_checkReady_ready hc hr _ _)

/-- Settles O26: the width decides first, then the packer's state. -/
theorem bpInitOpensThePacker : Obligations.BpInitOpensThePacker := by
  unfold Obligations.BpInitOpensThePacker
  intro s w hc
  by_cases hw : WidthOk w
  · rw [if_neg (not_not_intro hw)]
    by_cases hr : s.bp.st = .ready
    · rw [if_pos hr, exec_bpInit_badState hc hw hr, hr]
      rfl
    · rw [if_neg hr]
      exact exec_bpInit_accepted hc hw hr
  · rw [if_pos hw]
    exact exec_bpInit_badArgument hc hw

/-- Settles O27: the packer's own law of a push, which emits one word at most because the accumulator and a field hold fewer than 128
bits. -/
theorem bpPushAppendsTheLowBits : Obligations.BpPushAppendsTheLowBits := by
  unfold Obligations.BpPushAppendsTheLowBits
  intro s v hc
  refine ⟨fun hr => congrArg Host.Outcome.next (accept_checkReady_other hc hr _ _), fun hr hinv => ?_⟩
  have hw := hinv.width hr
  obtain ⟨hst, hwidth, -, hfill, hlen, hbits⟩ := s.bp.push_spec v hw hinv.low
  refine ⟨_, _, exec_bpPush_ready hc hr v, hst.trans hr, hwidth, hinv.push hr v, hfill, ?_, hbits⟩
  have hF := s.bp.fill_lt
  obtain ⟨-, hw64⟩ := hw
  rw [hlen]
  split <;> omega

/-- Settles O28: under the invariant the bytes of the accumulator that are flushed are the packed pending bits. -/
theorem bpCloseFlushesThePendingBits : Obligations.BpCloseFlushesThePendingBits := by
  unfold Obligations.BpCloseFlushesThePendingBits
  intro s hc
  refine ⟨fun hr => congrArg Host.Outcome.next (accept_checkReady_other hc hr _ _), fun hr hinv => ?_⟩
  rw [exec_bpClose_ready hc hr, s.bp.close_bytes hinv.low]
  rfl

/-! ### A session of `BP` (R110, R111) -/

theorem flatMap_field_length (w : Nat) (vs : List Word) : (vs.flatMap (field w)).length = vs.length * w := by
  simp [List.length_flatMap]

/-- `BP` is open at width `w` and has received `bits` since its sink held `before`: behind `before` the sink holds `out`, the whole
64-bit words of `bits`, and the accumulator the rest. -/
structure Packing (w : Nat) (before out : Bytes) (bits : List Bool) (s : State) : Prop where
  clear : s.Clear
  ready : s.bp.st = .ready
  width : s.bp.width.toNat = w
  inv : s.bp.Inv
  sink : s.bpSink = before ++ out
  words : out.length = 8 * (bits.length / 64)
  content : bitsOf out ++ s.bp.pendingBits = bits

/-- Right after `BP.INIT` nothing has been received (R106). -/
theorem Packing.init {s : State} {w : Nat} (hc : s.Clear) (hw : WidthOk w) (v : Word) :
    Packing w s.bpSink [] [] (answer v { s with bp := Packer.init w }) where
  clear := hc
  ready := rfl
  width := Packer.init_width w hw
  inv := Packer.init_inv hw
  sink := (List.append_nil _).symm
  words := rfl
  content := Packer.init_pendingBits w

/-- The bits that are not in whole words are in the accumulator. -/
theorem Packing.fill {w : Nat} {before out : Bytes} {bits : List Bool} {s : State} (h : Packing w before out bits s) :
    s.bp.fill.toNat = bits.length % 64 := by
  have hlen := congrArg List.length h.content
  rw [List.length_append, bitsOf_length, Packer.pendingBits_length, h.words] at hlen
  omega

/-- One `BP.PUSH` adds one field (R108). -/
theorem Packing.push {w : Nat} {before out : Bytes} {bits : List Bool} {s : State} (h : Packing w before out bits s) (v r : Word) :
    Packing w before (out ++ (s.bp.push v).2) (bits ++ field w v)
      (answer r { s with bp := (s.bp.push v).1, bpSink := s.bpSink ++ (s.bp.push v).2 }) := by
  obtain ⟨hst, hwidth, -, -, hlen, hbits⟩ := s.bp.push_spec v (h.inv.width h.ready) h.inv.low
  have hfill := h.fill
  exact {
    clear := h.clear
    ready := hst.trans h.ready
    width := (congrArg BitVec.toNat hwidth).trans h.width
    inv := h.inv.push h.ready v
    sink := by rw [answer_bpSink, h.sink, List.append_assoc]
    words := by
      rw [List.length_append, List.length_append, field_length, h.words, hlen, h.width]
      omega
    content := by
      rw [answer_bp, bitsOf_append, List.append_assoc, hbits, ← List.append_assoc, h.content, h.width] }

/-- Pushes one after another add their fields back to back (R110). -/
theorem Packing.run {w : Nat} {before out : Bytes} {bits : List Bool} {s : State} (h : Packing w before out bits s)
    (vs : List Word) :
    ∃ t ds out', runOk (vs.map Instr.bpPush) s = some (t, ds) ∧ Packing w before out' (bits ++ vs.flatMap (field w)) t := by
  induction vs generalizing s out bits with
  | nil => exact ⟨s, [], out, rfl, (List.append_nil bits).symm ▸ h⟩
  | cons v vs ih =>
    obtain ⟨t, ds, out', hrun, ht⟩ := ih (h.push v 0#64)
    rw [List.append_assoc] at ht
    exact ⟨t, _, out', runOk_cons (exec_bpPush_ready h.clear h.ready v) rfl hrun, ht⟩

/-- What `BP.CLOSE` leaves in the sink: everything received, packed into bytes (R109, R110). -/
theorem Packing.close {w : Nat} {before out : Bytes} {bits : List Bool} {s : State} (h : Packing w before out bits s) :
    s.bpSink ++ s.bp.close.2 = before ++ packBits bits := by
  rw [s.bp.close_bytes h.inv.low, h.sink, List.append_assoc, ← packBits_bitsOf_append, h.content]

/-- `BP.INIT` and pushes, from any packer that is not open. -/
theorem runOk_bpInit_pushes {s : State} {w : Nat} (hc : s.Clear) (hw : WidthOk w) (hr : s.bp.st ≠ .ready) (vs : List Word) :
    ∃ t ds out, runOk (.bpInit w :: vs.map Instr.bpPush) s = some (t, ds) ∧
      Packing w s.bpSink out (vs.flatMap (field w)) t := by
  obtain ⟨t, ds, out, hrun, ht⟩ := (Packing.init hc hw 0#64).run vs
  exact ⟨t, _, out, runOk_cons (exec_bpInit_accepted hc hw hr) rfl hrun, ht⟩

/-- `BP.INIT`, pushes and `BP.CLOSE`: the sink receives the fields, packed into bytes (R110). -/
theorem runOk_bpSession {s : State} {w : Nat} (hc : s.Clear) (hw : WidthOk w) (hr : s.bp.st ≠ .ready) (vs : List Word) :
    ∃ t ds, runOk (.bpInit w :: (vs.map Instr.bpPush ++ [.bpClose])) s = some (t, ds) ∧
      t.bpSink = s.bpSink ++ packBits (vs.flatMap (field w)) := by
  obtain ⟨t, ds, out, hrun, ht⟩ := runOk_bpInit_pushes hc hw hr vs
  exact ⟨_, _, runOk_append hrun (runOk_cons (exec_bpClose_ready ht.clear ht.ready) rfl rfl), ht.close⟩

/-- Settles O30: the invariant of a session says where the whole words and the other bits are. -/
theorem packerEmitsOnlyWholeWords : Obligations.PackerEmitsOnlyWholeWords := by
  unfold Obligations.PackerEmitsOnlyWholeWords
  intro s w vs hc hw hr
  obtain ⟨t, ds, out, hrun, ht⟩ := runOk_bpInit_pushes hc hw hr vs
  have hlen := flatMap_field_length w vs
  refine ⟨t, ds, out, hrun, ht.sink, hlen ▸ ht.words, hlen ▸ ht.fill, ?_⟩
  rw [← ht.content, List.take_left' (bitsOf_length out)]

/-! ### A session of `VW` (R126 to R130) -/

theorem exec_vwInit_accepted {s : State} (hc : s.Clear) (hr : s.vw.st ≠ .ready) :
    exec .vwInit s = .next (answer 0#64 { s with vw := Writer.init }) :=
  congrArg Host.Outcome.next ((accept_clear hc _).trans (checkNotReady_other hr _ _ s))

theorem exec_vwWrite_accepted {s : State} {w : Nat} (hc : s.Clear) (hw : WidthOk w) (hr : s.vw.st = .ready) (v : Word) :
    exec (.vwWrite w v) s =
      .next (answer 0#64 { s with vw := (s.vw.write w v).1, vwSink := s.vwSink ++ (s.vw.write w v).2 }) :=
  congrArg Host.Outcome.next ((accept_clear hc _).trans ((checkWidth_ok hw _ _ s).trans (checkReady_ready hr _ _ s)))

theorem exec_vwClose_ready {s : State} (hc : s.Clear) (hr : s.vw.st = .ready) :
    exec .vwClose s = .next (answer 0#64 { s with vw := s.vw.close.1, vwSink := s.vwSink ++ s.vw.close.2 }) :=
  congrArg Host.Outcome.next (accept_checkReady_ready hc hr _ _)

/-- `VW` is open and has received `bits` since its sink held `before`: behind `before` the sink holds `out`, the whole bytes of `bits`,
and the partial byte the rest. -/
structure Writing (before out : Bytes) (bits : List Bool) (s : State) : Prop where
  clear : s.Clear
  ready : s.vw.st = .ready
  inv : s.vw.Inv
  sink : s.vwSink = before ++ out
  content : bitsOf out ++ s.vw.pendingBits = bits

/-- Right after `VW.INIT` nothing has been received (R126). -/
theorem Writing.init {s : State} (hc : s.Clear) (v : Word) : Writing s.vwSink [] [] (answer v { s with vw := Writer.init }) where
  clear := hc
  ready := rfl
  inv := Writer.init_inv
  sink := (List.append_nil _).symm
  content := Writer.init_pendingBits

/-- One `VW.WRITE` adds one field (R128). -/
theorem Writing.write {before out : Bytes} {bits : List Bool} {s : State} (h : Writing before out bits s) (w : Nat) (v r : Word) :
    Writing before (out ++ (s.vw.write w v).2) (bits ++ field w v)
      (answer r { s with vw := (s.vw.write w v).1, vwSink := s.vwSink ++ (s.vw.write w v).2 }) := by
  obtain ⟨hst, -, hbits⟩ := s.vw.writeBits_spec (field w v) h.inv.low
  exact {
    clear := h.clear
    ready := hst.trans h.ready
    inv := h.inv.write h.ready w v
    sink := by rw [answer_vwSink, h.sink, List.append_assoc]
    content := by
      rw [answer_vw, bitsOf_append, List.append_assoc, Writer.write, hbits, ← List.append_assoc, h.content] }

/-- Writes one after another add their fields back to back (R130). -/
theorem Writing.run {before out : Bytes} {bits : List Bool} {s : State} (h : Writing before out bits s)
    (fs : List (Nat × Word)) (hw : ∀ f ∈ fs, WidthOk f.1) :
    ∃ t ds out', runOk (fs.map fun f => .vwWrite f.1 f.2) s = some (t, ds) ∧
      Writing before out' (bits ++ fs.flatMap fun f => field f.1 f.2) t := by
  induction fs generalizing s out bits with
  | nil => exact ⟨s, [], out, rfl, (List.append_nil bits).symm ▸ h⟩
  | cons f fs ih =>
    obtain ⟨hf, hfs⟩ := List.forall_mem_cons.mp hw
    obtain ⟨t, ds, out', hrun, ht⟩ := ih (h.write f.1 f.2 0#64) hfs
    rw [List.append_assoc] at ht
    exact ⟨t, _, out', runOk_cons (exec_vwWrite_accepted h.clear hf h.ready f.2) rfl hrun, ht⟩

/-- What `VW.CLOSE` leaves in the sink: everything received, packed into bytes (R129, R130). -/
theorem Writing.close {before out : Bytes} {bits : List Bool} {s : State} (h : Writing before out bits s) :
    s.vwSink ++ s.vw.close.2 = before ++ packBits bits := by
  rw [s.vw.close_bytes h.inv.low, h.sink, List.append_assoc, ← packBits_bitsOf_append, h.content]

/-- `VW.INIT` and writes, from any writer that is not open. -/
theorem runOk_vwInit_writes {s : State} (hc : s.Clear) (hr : s.vw.st ≠ .ready) (fs : List (Nat × Word))
    (hw : ∀ f ∈ fs, WidthOk f.1) :
    ∃ t ds out, runOk (.vwInit :: fs.map fun f => .vwWrite f.1 f.2) s = some (t, ds) ∧
      Writing s.vwSink out (fs.flatMap fun f => field f.1 f.2) t := by
  obtain ⟨t, ds, out, hrun, ht⟩ := (Writing.init hc 0#64).run fs hw
  exact ⟨t, _, out, runOk_cons (exec_vwInit_accepted hc hr) rfl hrun, ht⟩

/-- `VW.INIT`, writes and `VW.CLOSE`: the sink receives the fields, packed into bytes (R130). -/
theorem runOk_vwSession {s : State} (hc : s.Clear) (hr : s.vw.st ≠ .ready) (fs : List (Nat × Word)) (hw : ∀ f ∈ fs, WidthOk f.1) :
    ∃ t ds, runOk (.vwInit :: ((fs.map fun f => .vwWrite f.1 f.2) ++ [.vwClose])) s = some (t, ds) ∧
      t.vwSink = s.vwSink ++ packBits (fs.flatMap fun f => field f.1 f.2) := by
  obtain ⟨t, ds, out, hrun, ht⟩ := runOk_vwInit_writes hc hr fs hw
  exact ⟨_, _, runOk_append hrun (runOk_cons (exec_vwClose_ready ht.clear ht.ready) rfl rfl), ht.close⟩

/-- Settles O29: a session of either unit leaves the packed fields, however it buffers them. -/
theorem packerWritesItsFieldsBackToBack : Obligations.PackerWritesItsFieldsBackToBack := by
  unfold Obligations.PackerWritesItsFieldsBackToBack
  intro s w vs hc hw hbp hvw
  obtain ⟨t, ds, hrun, hsink⟩ := runOk_bpSession hc hw hbp vs
  obtain ⟨u, es, hrun', hsink'⟩ := runOk_vwSession hc hvw (vs.map (w, ·)) (List.forall_mem_map.mpr fun _ _ => hw)
  rw [List.map_map] at hrun'
  rw [List.flatMap_map] at hsink'
  exact ⟨t, u, ds, es, hrun, hsink, by rw [packBits_length, flatMap_field_length], hrun', hsink'⟩

end Sys2Proof.Machine

/-! SUPPORT. The commands of `VR` and `VW`: how each ends, what a session of reads returns, and that reading inverts writing
(R121 to R131). -/

namespace Sys2Proof.Machine

/-! ### A command that checks a width and then a unit -/

section Checks

variable {s : State} {w : Nat} {st : UnitState}

theorem accept_checkWidth_bad (hc : s.Clear) (hw : ¬ WidthOk w) (cw : CmdWord) (run : State → State) :
    accept s (checkWidth cw w run) = raise cw .badArgument (auxOfNat w) s :=
  (accept_clear hc _).trans (checkWidth_bad hw cw run s)

theorem accept_checkWidth_checkReady_ready (hc : s.Clear) (hw : WidthOk w) (hr : st = .ready) (cw : CmdWord)
    (run : State → State) : accept s (checkWidth cw w (checkReady cw st run)) = run s :=
  (accept_clear hc _).trans ((checkWidth_ok hw cw _ s).trans (checkReady_ready hr cw run s))

theorem accept_checkWidth_checkReady_other (hc : s.Clear) (hw : WidthOk w) (hr : st ≠ .ready) (cw : CmdWord)
    (run : State → State) : accept s (checkWidth cw w (checkReady cw st run)) = raise cw .badState (auxOfState st) s :=
  (accept_clear hc _).trans ((checkWidth_ok hw cw _ s).trans (checkReady_other hr cw run s))

end Checks

/-! ### The commands of `VR` (R121, R122, R124) -/

theorem exec_vrInit_accepted {s : State} (hc : s.Clear) :
    exec .vrInit s = .next (answer 0#64 { s with vr := Reader.init }) :=
  congrArg Host.Outcome.next (accept_clear hc _)

/-- Settles O31: the command checks nothing but the latch. -/
theorem vrInitRewindsTheReader : Obligations.VrInitRewindsTheReader := by
  unfold Obligations.VrInitRewindsTheReader
  exact fun s hc => exec_vrInit_accepted hc

theorem exec_vrRead_some {s : State} {w : Nat} {r : Reader} {v : Word} (hc : s.Clear) (hw : WidthOk w) (hr : s.vr.st = .ready)
    (hread : s.vr.read s.vrSrc w = some (r, v)) : exec (.vrRead w) s = .next (answer v { s with vr := r }) :=
  congrArg Host.Outcome.next ((accept_checkWidth_checkReady_ready hc hw hr _ _).trans (by simp only [hread]))

theorem exec_vrRead_none {s : State} {w : Nat} (hc : s.Clear) (hw : WidthOk w) (hr : s.vr.st = .ready)
    (hread : s.vr.read s.vrSrc w = none) :
    exec (.vrRead w) s = .next (raise (Instr.vrRead w).word .sourceUnderrun s.vr.pos s) :=
  congrArg Host.Outcome.next ((accept_checkWidth_checkReady_ready hc hw hr _ _).trans (by simp only [hread]))

/-- A read that succeeds takes its bits one after another, and there are enough of them (R122, R124). -/
theorem Reader.read_some {r r' : Reader} {src : Bytes} {w : Nat} {v : Word} (h : r.read src w = some (r', v)) :
    w ≤ (r.unread src).length ∧ Reader.takeBits src w r 0#64 = (r', v) := by
  rw [r.unread_length]
  unfold Reader.read at h
  split at h
  next => cases h
  next hav => exact ⟨Nat.le_of_not_lt hav, Option.some.inj h⟩

/-- Where a read leaves the reader (R122): within its byte, or in the last byte that it had to fetch. -/
theorem Reader.read_position {r r' : Reader} {src : Bytes} {w : Nat} {v : Word} (hs : src.length < 2 ^ 64)
    (hu : r.used.toNat ≤ 8) (h : r.read src w = some (r', v)) :
    r'.pos.toNat = r.pos.toNat + (w - (8 - r.used.toNat) + 7) / 8 ∧
      r'.curb = (if w ≤ 8 - r.used.toNat then r.curb else src.getD (r'.pos.toNat - 1) 0#8) ∧
      r'.used.toNat = (if w ≤ 8 - r.used.toNat then r.used.toNat + w else (w - (8 - r.used.toNat) + 7) % 8 + 1) := by
  obtain ⟨hn, htake⟩ := Reader.read_some h
  obtain ⟨hwithin, hbeyond⟩ := Reader.takeBits_position src hs w r 0#64 hu hn
  rw [htake] at hwithin hbeyond
  by_cases hw : w ≤ 8 - r.used.toNat
  · obtain ⟨hpos, hcurb, hused⟩ := hwithin hw
    rw [if_pos hw, if_pos hw]
    refine ⟨?_, hcurb, hused⟩
    rw [congrArg BitVec.toNat hpos]
    omega
  · rw [if_neg hw, if_neg hw]
    exact hbeyond (Nat.lt_of_not_le hw)

/-- Settles O32: the reader's own law of a read, and where it leaves the reader. -/
theorem vrReadTakesTheNextBits : Obligations.VrReadTakesTheNextBits := by
  unfold Obligations.VrReadTakesTheNextBits
  intro s w hc
  refine ⟨fun hw => congrArg Host.Outcome.next (accept_checkWidth_bad hc hw _ _),
    fun hw hr => congrArg Host.Outcome.next (accept_checkWidth_checkReady_other hc hw hr _ _),
    fun hw hr hshort => exec_vrRead_none hc hw hr (s.vr.read_short _ _ hshort), fun hw hr hu hs hn => ?_⟩
  obtain ⟨r, v, hread, hst, -, hfield, hlt, hunread⟩ := s.vr.read_spec s.vrSrc w hs hu hw.2 hn
  exact ⟨r, v, exec_vrRead_some hc hw hr hread, hfield, hlt, hst.trans hr, hunread, Reader.read_position hs hu hread⟩

/-! ### The commands of `VW` (R126, R128, R129) -/

theorem exec_vwInit_badState {s : State} (hc : s.Clear) (hr : s.vw.st = .ready) :
    exec .vwInit s = .next (raise Instr.vwInit.word .badState (auxOfState s.vw.st) s) :=
  congrArg Host.Outcome.next ((accept_clear hc _).trans (checkNotReady_ready hr _ _ s))

/-- Settles O34: the writer's state decides. -/
theorem vwInitOpensTheWriter : Obligations.VwInitOpensTheWriter := by
  unfold Obligations.VwInitOpensTheWriter
  intro s hc
  by_cases hr : s.vw.st = .ready
  · rw [if_pos hr, exec_vwInit_badState hc hr, hr]
    rfl
  · rw [if_neg hr]
    exact exec_vwInit_accepted hc hr

/-- The bits written and those pending before are now in the emitted bytes or pending. -/
theorem Writer.write_length {w : Writer} (h : w.LowZero) (width : Nat) (v : Word) :
    8 * (w.write width v).2.length + (w.write width v).1.used.toNat = w.used.toNat + width := by
  obtain ⟨-, -, hbits⟩ := w.writeBits_spec (field width v) h
  simpa [Writer.write] using congrArg List.length hbits

/-- Settles O35: the writer's own law of written bits; as fewer than 8 of them stay pending, their number fixes how many bytes are
emitted. -/
theorem vwWriteAppendsTheLowBits : Obligations.VwWriteAppendsTheLowBits := by
  unfold Obligations.VwWriteAppendsTheLowBits
  intro s width v hc
  refine ⟨fun hw => congrArg Host.Outcome.next (accept_checkWidth_bad hc hw _ _),
    fun hw hr => congrArg Host.Outcome.next (accept_checkWidth_checkReady_other hc hw hr _ _), fun hw hr hinv => ?_⟩
  obtain ⟨hst, -, hbits⟩ := s.vw.writeBits_spec (field width v) hinv.low
  have hlen := Writer.write_length hinv.low width v
  have hused := (s.vw.write width v).1.used_lt
  exact ⟨_, _, exec_vwWrite_accepted hc hw hr v, hst.trans hr, hinv.write hr width v, by omega, by omega, hbits⟩

/-- Settles O36: under the invariant the partial byte that is flushed is the packed pending bits. -/
theorem vwCloseFlushesThePartialByte : Obligations.VwCloseFlushesThePartialByte := by
  unfold Obligations.VwCloseFlushesThePartialByte
  intro s hc
  refine ⟨fun hr => congrArg Host.Outcome.next (accept_checkReady_other hc hr _ _), fun hr hinv => ?_⟩
  rw [exec_vwClose_ready hc hr, s.vw.close_bytes hinv.low, s.vw.close_record]
  rfl

/-! ### A session of `VW` beside one of `BP` (R130) -/

theorem flatMap_fields_length (fs : List (Nat × Word)) :
    (fs.flatMap fun f => field f.1 f.2).length = (fs.map Prod.fst).sum := by
  simp only [List.length_flatMap, field_length]

/-- While `VW` is open, its sink has received the whole bytes of the bits written (R128, R130). -/
theorem Writing.out_eq_take {before out : Bytes} {bits : List Bool} {s : State} (h : Writing before out bits s) :
    out = (packBits bits).take (bits.length / 8) := by
  have hlen := congrArg List.length h.content
  rw [List.length_append, bitsOf_length, Writer.pendingBits_length] at hlen
  have hused := s.vw.used_lt
  rw [← h.content, packBits_bitsOf_append, h.content, List.take_left' (by omega)]

/-- Settles O37: the invariant of a session before the close, and the whole sessions of both units. -/
theorem writerWritesItsFieldsBackToBack : Obligations.WriterWritesItsFieldsBackToBack := by
  unfold Obligations.WriterWritesItsFieldsBackToBack
  intro s fs hc hws hvw
  obtain ⟨t, ds, out, hrun, ht⟩ := runOk_vwInit_writes hc hvw fs hws
  obtain ⟨u, es, hrun', hsink'⟩ := runOk_vwSession hc hvw fs hws
  refine ⟨t, u, ds, es, hrun, ?_, hrun', hsink', fun w hw hall hbp => ?_⟩
  · rw [ht.sink, ← flatMap_fields_length]
    exact congrArg (s.vwSink ++ ·) ht.out_eq_take
  · obtain ⟨b, bs, hpush, hsink⟩ := runOk_bpSession hc hw hbp (fs.map Prod.snd)
    have hfields : ((fs.map Prod.snd).flatMap (field w)) = fs.flatMap fun f => field f.1 f.2 := by
      rw [List.flatMap_map]
      exact List.flatMap_congr fun f hf => by rw [hall f hf]
    rw [List.map_map] at hpush
    exact ⟨b, bs, hpush, hfields ▸ hsink⟩

/-! ### A session of `VR` (R121 to R124) -/

/-- `VR` is open on the source `src`, in which `bits` are unread. -/
structure Reading (src : Bytes) (bits : List Bool) (s : State) : Prop where
  clear : s.Clear
  ready : s.vr.st = .ready
  used : s.vr.used.toNat ≤ 8
  source : s.vrSrc = src
  unread : s.vr.unread src = bits

/-- Right after `VR.INIT` the whole source is unread (R121). -/
theorem Reading.init {s : State} (hc : s.Clear) (v : Word) :
    Reading s.vrSrc (bitsOf s.vrSrc) (answer v { s with vr := Reader.init }) where
  clear := hc
  ready := rfl
  used := le_rfl
  source := rfl
  unread := Reader.init_unread s.vrSrc

/-- One `VR.READ` returns the field that stands first among the unread bits (R122). -/
theorem Reading.read {src : Bytes} {w : Nat} {c : Word} {rest : List Bool} {s : State} (h : Reading src (field w c ++ rest) s)
    (hs : src.length < 2 ^ 64) (hw : WidthOk w) (hfit : c.toNat < 2 ^ w) :
    ∃ t, exec (.vrRead w) s = .next t ∧ t.reply = some ⟨.ended .ok, c⟩ ∧ Reading src rest t := by
  obtain ⟨r, hread, hst, hused, hunread⟩ := s.vr.read_field src w c rest hs h.used hw.2 hfit h.unread
  exact ⟨_, exec_vrRead_some h.clear hw h.ready (h.source.symm ▸ hread), rfl, h.clear, hst.trans h.ready, hused, h.source, hunread⟩

/-- Reads one after another return the fields that stand first among the unread bits (R123). -/
theorem Reading.run {src : Bytes} {fs : List (Nat × Word)} {rest : List Bool} {s : State}
    (h : Reading src ((fs.flatMap fun f => field f.1 f.2) ++ rest) s) (hs : src.length < 2 ^ 64)
    (hw : ∀ f ∈ fs, WidthOk f.1) (hfit : ∀ f ∈ fs, f.2.toNat < 2 ^ f.1) :
    ∃ t, runOk (fs.map fun f => .vrRead f.1) s = some (t, fs.map Prod.snd) ∧ Reading src rest t := by
  induction fs generalizing s with
  | nil => exact ⟨s, rfl, h⟩
  | cons f fs ih =>
    obtain ⟨hf, hfs⟩ := List.forall_mem_cons.mp hw
    obtain ⟨hfit1, hfits⟩ := List.forall_mem_cons.mp hfit
    rw [List.flatMap_cons, List.append_assoc] at h
    obtain ⟨t, hexec, hreply, ht⟩ := h.read hs hf hfit1
    obtain ⟨u, hrun, hu⟩ := ih ht hfs hfits
    exact ⟨u, runOk_cons hexec hreply hrun, hu⟩

/-- `VR.INIT` and reads of fields that the source begins with (R123). -/
theorem runOk_vrSession {s : State} {fs : List (Nat × Word)} {rest : List Bool} (hc : s.Clear) (hs : s.vrSrc.length < 2 ^ 64)
    (hw : ∀ f ∈ fs, WidthOk f.1) (hfit : ∀ f ∈ fs, f.2.toNat < 2 ^ f.1)
    (hbits : bitsOf s.vrSrc = (fs.flatMap fun f => field f.1 f.2) ++ rest) :
    ∃ t, runOk (.vrInit :: fs.map fun f => .vrRead f.1) s = some (t, 0#64 :: fs.map Prod.snd) ∧ Reading s.vrSrc rest t := by
  obtain ⟨t, hrun, ht⟩ := (hbits ▸ Reading.init hc 0#64).run hs hw hfit
  exact ⟨t, runOk_cons (exec_vrInit_accepted hc) rfl hrun, ht⟩

/-- A bit list that is long enough starts with fields of the given widths. -/
theorem exists_fields (ws : List Nat) (l : List Bool) (hw : ∀ w ∈ ws, WidthOk w) (hl : ws.sum ≤ l.length) :
    ∃ fs : List (Nat × Word), fs.map Prod.fst = ws ∧ (∀ f ∈ fs, f.2.toNat < 2 ^ f.1) ∧
      l = (fs.flatMap fun f => field f.1 f.2) ++ l.drop ws.sum := by
  induction ws generalizing l with
  | nil => exact ⟨[], rfl, by simp, rfl⟩
  | cons w ws ih =>
    obtain ⟨hw1, hws⟩ := List.forall_mem_cons.mp hw
    rw [List.sum_cons] at hl ⊢
    obtain ⟨v, hv, hfirst⟩ := exists_field l w hw1.2 (by omega)
    obtain ⟨fs, rfl, hfit, hrest⟩ := ih (l.drop w) hws (by rw [List.length_drop]; omega)
    refine ⟨(w, v) :: fs, rfl, List.forall_mem_cons.mpr ⟨hv, hfit⟩, ?_⟩
    rw [List.flatMap_cons, List.append_assoc, ← List.drop_drop, ← hrest]
    exact hfirst

/-- Settles O33: the source begins with fields of the widths read, and these are what the reads return. -/
theorem successiveReadsFollowTheStream : Obligations.SuccessiveReadsFollowTheStream := by
  unfold Obligations.SuccessiveReadsFollowTheStream
  intro s ws hc hw hs hsum
  obtain ⟨fs, rfl, hfit, hbits⟩ := exists_fields ws (bitsOf s.vrSrc) hw (hsum.trans_eq (bitsOf_length _).symm)
  obtain ⟨t, hrun, -⟩ := runOk_vrSession hc hs (List.forall_mem_map.mp hw) hfit hbits
  have hzip : (fs.map Prod.fst).zip (fs.map Prod.snd) = fs := (List.zip_of_prod rfl rfl).symm
  rw [List.map_map]
  refine ⟨t, fs.map Prod.snd, hrun, by simp, ?_, hzip.symm ▸ hfit⟩
  rw [hzip, hbits, List.take_left' (flatMap_fields_length fs)]

/-! ### Reading what was written (R131) -/

/-- What a safe run that begins with a command is made of. -/
theorem runOk_cons_inv {i : Instr} {is : List Instr} {s u : State} {ds : List Word} (h : runOk (i :: is) s = some (u, ds)) :
    ∃ t v es, exec i s = .next t ∧ t.reply = some ⟨.ended .ok, v⟩ ∧ runOk is t = some (u, es) := by
  obtain ⟨t, hexec, hends⟩ := exec_next i s
  obtain ⟨⟨status, v⟩, hreply, -⟩ := hends.reply
  rw [runOk, hexec] at h
  simp only [hreply] at h
  split at h
  next heq =>
    cases heq
    obtain ⟨⟨u', es⟩, hrun, he⟩ := Option.map_eq_some_iff.mp h
    cases he
    exact ⟨t, v, es, hexec, hreply, hrun⟩
  next => cases h
  next => cases h

/-- A command that ends `OK` latches no fault (R64, R219, R220). -/
theorem EndsIn.clear {i : Instr} {s t : State} {v : Word} (h : EndsIn s i t) (hok : t.reply = some ⟨.ended .ok, v⟩) : t.Clear := by
  obtain ⟨r, hr, hcases⟩ := h.reply
  obtain rfl : r = ⟨.ended .ok, v⟩ := Option.some.inj (hr.symm.trans hok)
  rcases hcases with ⟨hc, -, hfault⟩ | ⟨-, hcode, -, hfaulted⟩ | ⟨-, hrefused, -⟩
  · exact (congrArg FaultReg.code hfault).trans hc
  · injection hfaulted with hstatus
    injection hstatus with hcode'
    exact absurd hcode'.symm hcode
  · cases hrefused

/-- A safe run latches no fault. -/
theorem runOk_clear {is : List Instr} {s t : State} {ds : List Word} (hc : s.Clear) (h : runOk is s = some (t, ds)) : t.Clear := by
  induction is generalizing s ds with
  | nil =>
    cases h
    exact hc
  | cons i is ih =>
    obtain ⟨u, v, es, hexec, hreply, hrun⟩ := runOk_cons_inv h
    exact ih ((exec_endsIn hexec).clear hreply) hrun

/-- A field with its value cut to its width (R128). -/
def cutField (f : Nat × Word) : Nat × Word := (f.1, lowBits f.1 f.2)

theorem flatMap_cutField (fs : List (Nat × Word)) :
    ((fs.map cutField).flatMap fun f => field f.1 f.2) = fs.flatMap fun f => field f.1 f.2 := by
  rw [List.flatMap_map]
  exact List.flatMap_congr fun f _ => field_lowBits f.1 f.2

theorem lowBits_toNat (w : Nat) (v : Word) : (lowBits w v).toNat = v.toNat % 2 ^ w :=
  Nat.mod_eq_of_lt ((Nat.mod_le _ _).trans_lt v.isLt)

/-- Settles O38: the written stream begins with the fields, each of which is also the field of its value cut to its width, and the rest
is the padding of the last byte. -/
theorem readingInvertsWriting : Obligations.ReadingInvertsWriting := by
  unfold Obligations.ReadingInvertsWriting
  intro s fs hc hw hvw hempty hsum
  obtain ⟨t, ds, hrun, hsink⟩ := runOk_vwSession hc hvw fs hw
  rw [hempty, List.nil_append] at hsink
  have hbits := bitsOf_packBits (fs.flatMap fun f => field f.1 f.2)
  rw [← hsink, ← flatMap_cutField] at hbits
  have hlen := packBits_length (fs.flatMap fun f => field f.1 f.2)
  rw [← hsink, flatMap_fields_length] at hlen
  have ht : t.Clear := runOk_clear hc hrun
  have hsize : t.vwSink.length < 2 ^ 64 := by omega
  obtain ⟨u, hread, hu⟩ := runOk_vrSession (s := { t with vrSrc := t.vwSink }) (fs := fs.map cutField) ht hsize
    (List.forall_mem_map.mpr hw) (List.forall_mem_map.mpr fun f _ => lowBits_toNat_lt f.1 f.2) hbits
  rw [List.map_map] at hread
  refine ⟨t, u, ds, _, hrun, hread, ?_, ?_, ?_⟩
  · rw [List.map_map, List.map_map]
    exact List.map_congr_left fun f _ => lowBits_toNat f.1 f.2
  · rw [hu.source, hu.unread, List.length_replicate]
    omega
  · rw [hu.source, hu.unread]
    exact fun b hb => List.eq_of_mem_replicate hb

end Sys2Proof.Machine

/-! SUPPORT. What `RE.ENCODE` leaves, read off the runs of the buffer: the width of its counts, the Fragment of no run, and that of equal
keys (R148 to R156). -/

namespace Sys2Proof.Machine

/-- An accepted encode ends with `DOUT` the number of runs, and what it leaves in `RE` and the two sinks is described by the runs of the
buffer (R152, R154). -/
theorem exec_reEncode_describes {s : State} {kw : Nat} (np : Nat) (hc : s.Clear) (hw : WidthOk kw)
    (hb : s.bufMem.length ≤ 2 ^ 45 - 1) :
    ∃ t keys counts, exec (.reEncode kw np) s = .next t ∧ t.reply = some ⟨.ended .ok, BitVec.ofNat 64 keys.length⟩ ∧
      Encoded.Describes kw np s.bufMem keys counts ⟨t.re, t.reDataSink, t.reMetaSink⟩ := by
  obtain ⟨keys, counts, h⟩ := s.re.run_spec kw np s.bufMem hw hb
  have hdout : (s.re.run kw np s.bufMem).enc.numRuns.zeroExtend 64 = BitVec.ofNat 64 keys.length := by
    rw [← h.numRuns]
    exact BitVec.eq_of_toNat_eq (by simp)
  refine ⟨_, keys, counts, exec_reEncode_accepted hc hw, ?_, h⟩
  rw [answer_reply, hdout]

/-! ### The run width (R149) -/

/-- The register holds the width of the largest count, whatever the length of the buffer. -/
theorem Encoder.run_runWidth (e : Encoder) (kw np : Nat) (buf : Bytes) :
    (e.run kw np buf).enc.runWidth.toNat = runWidthOf (e.run kw np buf).enc.maxCount := by
  simp only [Encoder.run_eq]
  generalize (Encoder.loop buf (8 * buf.length) (e.start kw np buf.length).1).1.flush.1 = f
  obtain ⟨-, hmax, -, -, -, hwidth, -⟩ := f.closed_finished
  have hle := (runWidthOf_spec f.maxCount).1.2
  rw [hwidth, hmax]
  exact Nat.mod_eq_of_lt (hle.trans_lt (by norm_num))

/-- No run is longer than the buffer has groups. -/
theorem Encoded.Describes.maxCount_le {kw np : Nat} {buf : Bytes} {keys counts : List Word} {r : Encoded}
    (h : Encoded.Describes kw np buf keys counts r) : r.enc.maxCount.toNat ≤ groupCount buf.length kw := by
  rw [h.maxCount, ← h.sum]
  exact foldl_max_le _ 0 _ (Nat.zero_le _) fun _ hx => List.le_sum_of_mem hx

/-- Settles O40: the width is `runWidthOf` of the largest count; a buffer within the limit of R4 has fewer than `2 ^ 48` groups, so its
largest count fits 48 bits. -/
theorem runWidthIsTheLeastThatFits : Obligations.RunWidthIsTheLeastThatFits := by
  unfold Obligations.RunWidthIsTheLeastThatFits
  intro s kw np hc hw
  have hwidth := s.re.run_runWidth kw np s.bufMem
  obtain ⟨⟨hpos, -⟩, hfits, hleast⟩ := runWidthOf_spec (s.re.run kw np s.bufMem).enc.maxCount
  rw [← hwidth] at hpos hfits hleast
  refine ⟨_, exec_reEncode_accepted hc hw, hpos, hfits, hleast, fun hb => hleast 48 (by norm_num) ?_⟩
  obtain ⟨keys, counts, h⟩ := s.re.run_spec kw np s.bufMem hw hb
  have hgroups := groupCount_le s.bufMem.length kw hw.1
  exact (h.maxCount_le.trans hgroups).trans_lt (by omega)

/-! ### A buffer of equal keys (R148, R154) -/

/-- Neighbours that differ and are all equal are one element. -/
theorem NeighboursDiffer.eq_singleton {l : List Word} {k : Word} (h : NeighboursDiffer l) (hk : ∀ x ∈ l, x = k) (hne : l ≠ []) :
    l = [k] := by
  match l, h with
  | [], _ => exact absurd rfl hne
  | [a], _ => rw [hk a (by simp)]
  | a :: b :: _, ⟨hab, _⟩ => exact absurd ((hk a (by simp)).trans (hk b (by simp)).symm) hab

/-- The one run of a buffer of equal keys. -/
theorem Encoded.Describes.one_run {kw np n : Nat} {buf : Bytes} {k : Word} {keys counts : List Word} {r : Encoded}
    (h : Encoded.Describes kw np buf keys counts r) (hn : 1 ≤ n) (hbuf : keysOf kw buf = List.replicate n k) :
    keys = [k] ∧ counts = [BitVec.ofNat 64 n] := by
  have hexpand := h.expand.trans hbuf
  have hne : keys ≠ [] := by
    rintro rfl
    exact absurd (List.replicate_eq_nil_iff k |>.mp hexpand.symm) (by omega)
  have hkeys : keys = [k] := h.differ.eq_singleton
    (fun x hx => List.eq_of_mem_replicate (hexpand ▸ keys_of_expandRuns_mem keys counts h.lengths h.nonzero x hx)) hne
  obtain ⟨c, rfl⟩ := List.length_eq_one_iff.mp (h.lengths.symm.trans (congrArg List.length hkeys))
  have hc : c.toNat = n := by
    have hlen := congrArg List.length hexpand
    rwa [expandRuns_length keys _ h.lengths, List.length_replicate, List.map_singleton, List.sum_singleton] at hlen
  exact ⟨hkeys, by rw [← hc, BitVec.ofNat_toNat, BitVec.setWidth_eq]⟩

/-- Settles O42: the runs are maximal and expand to equal keys, so there is one, and it was flushed. -/
theorem equalKeysMakeOneRun : Obligations.EqualKeysMakeOneRun := by
  unfold Obligations.EqualKeysMakeOneRun
  intro s kw np n k hc hw hb hn hbuf
  obtain ⟨t, keys, counts, hexec, hreply, h⟩ := exec_reEncode_describes np hc hw hb
  obtain ⟨rfl, rfl⟩ := h.one_run hn hbuf
  exact ⟨t, hexec, hreply, h.dataBytes, h.metaBytes⟩

/-! ### The empty buffer (R156) -/

theorem Encoded.Describes.no_run {kw np : Nat} {keys counts : List Word} {r : Encoded}
    (h : Encoded.Describes kw np [] keys counts r) (hw : WidthOk kw) : keys = [] ∧ counts = [] := by
  have hsum : (counts.map BitVec.toNat).sum = 0 := h.sum.trans (groupCount_zero kw hw.1)
  have hcounts := length_le_sum_of_ne_zero counts h.nonzero
  have hlengths := h.lengths
  exact ⟨List.length_eq_zero_iff.mp (by omega), List.length_eq_zero_iff.mp (by omega)⟩

/-- The DataRecord of no keys is its header byte (R71). -/
theorem dataRecord_nil (kw : Nat) : dataRecord kw [] = [BitVec.ofNat 8 kw] := by simp [dataRecord, packBits]

/-- The MetaRecord of no counts is its eight header bytes (R72). -/
theorem metaRecord_nil (np : Nat) :
    metaRecord (np % 2 ^ 8) 1 [] = [BitVec.ofNat 8 np, 0#8, 0#8, 0#8, 0#8, 0#8, 0#8, 1#8] := by
  have hnp : field 8 (BitVec.ofNat 64 (np % 2 ^ 8)) = bitsOf [BitVec.ofNat 8 np] := by
    rw [bitsOf_cons, byteBits_eq_field, BitVec.toNat_ofNat, bitsOf_nil, List.append_nil]
  have hrest : field 48 0#64 ++ field 8 1#64 = bitsOf [0#8, 0#8, 0#8, 0#8, 0#8, 0#8, 1#8] := by decide
  have hbits : metaBits (np % 2 ^ 8) 0 1 [] = bitsOf ([BitVec.ofNat 8 np] ++ [0#8, 0#8, 0#8, 0#8, 0#8, 0#8, 1#8]) := by
    rw [bitsOf_append, ← hnp, ← hrest, metaBits, List.append_nil, List.append_assoc]
  exact (congrArg packBits hbits).trans (packBits_bitsOf _)

/-- Settles O41: an empty buffer has no run, so the records are their headers and the largest count is 0, of width 1. -/
theorem encodeOfAnEmptyBuffer : Obligations.EncodeOfAnEmptyBuffer := by
  unfold Obligations.EncodeOfAnEmptyBuffer
  intro s kw np hc hw hempty
  obtain ⟨t, keys, counts, hexec, hreply, h⟩ := exec_reEncode_describes np hc hw (by simp [hempty])
  rw [hempty] at h
  obtain ⟨rfl, rfl⟩ := h.no_run hw
  have hmax : t.re.maxCount = 0#64 := BitVec.eq_of_toNat_eq h.maxCount
  have hwidth : t.re.runWidth = 1#7 := by
    refine BitVec.eq_of_toNat_eq (h.runWidth.trans ?_)
    rw [hmax]
    decide
  have hmeta := h.metaBytes
  simp only [hwidth] at hmeta
  exact ⟨t, hexec, hreply, h.dataBytes.trans (dataRecord_nil kw), hmeta.trans (metaRecord_nil np), BitVec.eq_of_toNat_eq h.numRuns,
    hmax, hwidth, h.haveRun⟩

end Sys2Proof.Machine

/-! SUPPORT. `RD.DECODE` as a whole: the headers it reads, how a cut source ends it, and the round trip of a buffer and of the lanes'
Fragments (R166 to R175, R201). -/

namespace Sys2Proof.Machine

/-! ### The headers of two sources (R71, R72, R167) -/

/-- A value that fits a register comes back whole when the register is widened. -/
theorem ofNat_toNat_setWidth {n : Nat} {v : Word} (hv : v.toNat < 2 ^ n) :
    BitVec.ofNat 64 (v.setWidth n).toNat = v := by
  rw [BitVec.toNat_setWidth, Nat.mod_eq_of_lt hv, BitVec.ofNat_toNat, BitVec.setWidth_eq]

/-- The bits of a byte list with a byte at index k, from there on. -/
theorem bitsOf_drop_of_getElem? {b : Bytes} {k : Nat} {x : Byte} (h : b[k]? = some x) :
    (bitsOf b).drop (8 * k) = field 8 (BitVec.ofNat 64 x.toNat) ++ bitsOf (b.drop (k + 1)) := by
  obtain ⟨hk, rfl⟩ := List.getElem?_eq_some_iff.mp h
  rw [← bitsOf_drop, List.drop_eq_getElem_cons hk, bitsOf_cons, byteBits_eq_field]

/-- A meta source of eight bytes or more begins with a header; its last byte is the run width (R72). -/
theorem exists_metaBits {src : Bytes} {rw : Byte} (h : src[7]? = some rw) :
    ∃ (np : Byte) (numRuns : BitVec 48),
      bitsOf src = metaBits np.toNat numRuns.toNat rw.toNat (bitsOf (src.drop 8)) := by
  obtain ⟨hlen, -⟩ := List.getElem?_eq_some_iff.mp h
  have hbits := bitsOf_length src
  obtain ⟨np, hnp, hfirst⟩ := exists_field (bitsOf src) 8 (by norm_num) (by omega)
  obtain ⟨numRuns, hnum, hsecond⟩ := exists_field ((bitsOf src).drop 8) 48 (by norm_num) (by rw [List.length_drop]; omega)
  rw [List.drop_drop, bitsOf_drop_of_getElem? h] at hsecond
  refine ⟨np.setWidth 8, numRuns.setWidth 48, hfirst.trans ?_⟩
  rw [hsecond, metaBits, ofNat_toNat_setWidth hnp, ofNat_toNat_setWidth hnum]
  simp only [List.append_assoc]

/-- A data source of one byte or more begins with its header byte (R71). -/
theorem bitsOf_dataHeader {src : Bytes} {kw : Byte} (h : src[0]? = some kw) :
    bitsOf src = field 8 (BitVec.ofNat 64 kw.toNat) ++ bitsOf (src.drop 1) := bitsOf_drop_of_getElem? h

section Reads

variable {metaSrc dataSrc : Bytes} {np : Byte} {numRuns : BitVec 48} {rw kw : Byte} {i : BitVec 48}
  {metaRest dataRest written : List Bool} {d : Decoding}

/-- Everything that a read from the meta source can do: it runs short, or it takes the next bits (R122, R174). -/
theorem Decoding.At.readMeta_cases (hs : metaSrc.length < 2 ^ 64) {w : Nat} (hw : w ≤ 64)
    (h : Decoding.At metaSrc dataSrc np numRuns rw kw i metaRest dataRest written d) (next : Word → Decoding → Progress) :
    (metaRest.length < w ∧ d.readMeta metaSrc w next = .raised d .sourceUnderrun 0#64) ∨
      ∃ v d', w ≤ metaRest.length ∧ d.readMeta metaSrc w next = next v d' ∧
        Decoding.At metaSrc dataSrc np numRuns rw kw i (metaRest.drop w) dataRest written d' := by
  by_cases hlen : metaRest.length < w
  · exact .inl ⟨hlen, h.readMeta_short w hlen next⟩
  · obtain ⟨v, hv, hbits⟩ := exists_field metaRest w hw (Nat.le_of_not_lt hlen)
    rw [hbits] at h
    obtain ⟨d', hread, h'⟩ := h.readMeta hs w v hw hv next
    exact .inr ⟨v, d', Nat.le_of_not_lt hlen, hread, h'⟩

/-- The header reads, up to the one of the data source: they run short if the meta source has fewer than the 64 bits of its header
(R167, R174). -/
theorem Decoding.At.readHeaders_cases (hs : metaSrc.length < 2 ^ 64)
    (h : Decoding.At metaSrc dataSrc np numRuns rw kw i metaRest dataRest written d) :
    ∃ np' numRuns' rw' metaRest' d', Decoding.At metaSrc dataSrc np' numRuns' rw' kw i metaRest' dataRest written d' ∧
      ((metaRest.length < 64 ∧ d.readHeaders metaSrc dataSrc = .raised d' .sourceUnderrun 0#64) ∨
        (64 ≤ metaRest.length ∧ ∃ next, d.readHeaders metaSrc dataSrc = d'.readData dataSrc 8 next)) := by
  unfold Decoding.readHeaders
  rcases h.readMeta_cases hs (w := 8) (by norm_num) _ with ⟨hlen, e1⟩ | ⟨v1, d1, hlen1, e1, h1⟩
  · exact ⟨_, _, _, _, d, h, .inl ⟨by omega, e1⟩⟩
  rw [e1]
  have h1' := { h1 with np := rfl : Decoding.At metaSrc dataSrc (v1.setWidth 8) numRuns rw kw i _ _ written
    { d1 with rd := { d1.rd with np := v1.setWidth 8 } } }
  rcases h1'.readMeta_cases hs (w := 48) (by norm_num) _ with ⟨hlen, e2⟩ | ⟨v2, d2, hlen2, e2, h2⟩
  · rw [List.length_drop] at hlen
    exact ⟨_, _, _, _, _, h1', .inl ⟨by omega, e2⟩⟩
  rw [e2]
  have h2' := { h2 with numRuns := rfl : Decoding.At metaSrc dataSrc (v1.setWidth 8) (v2.setWidth 48) rw kw i _ _ written
    { d2 with rd := { d2.rd with numRuns := v2.setWidth 48 } } }
  rcases h2'.readMeta_cases hs (w := 8) (by norm_num) _ with ⟨hlen, e3⟩ | ⟨v3, d3, hlen3, e3, h3⟩
  · simp only [List.length_drop] at hlen
    exact ⟨_, _, _, _, _, h2', .inl ⟨by omega, e3⟩⟩
  rw [e3]
  simp only [List.length_drop] at hlen3
  exact ⟨_, _, _, _, { d3 with rd := { d3.rd with runWidth := v3.setWidth 8 } }, { h3 with runWidth := rfl },
    .inr ⟨by omega, _, rfl⟩⟩

end Reads

/-- A fault while the headers are read ends the decode (R174). -/
theorem Decoder.run_of_readHeaders_raised {rd : Decoder} {metaSrc dataSrc : Bytes} {d : Decoding} {code : Code} {aux : Word}
    (h : (Decoding.start rd).readHeaders metaSrc dataSrc = .raised d code aux) :
    rd.run metaSrc dataSrc = .raised d code aux := by
  unfold Decoder.run
  rw [h]
  rfl

/-- Headers with an illegal width end the decode (R168). -/
theorem Decoder.run_of_badHeader {rd : Decoder} {metaSrc dataSrc : Bytes} {d : Decoding}
    (h : (Decoding.start rd).readHeaders metaSrc dataSrc = .going d)
    (hw : ¬ (WidthOk d.rd.runWidth.toNat ∧ WidthOk d.rd.keyWidth.toNat)) :
    rd.run metaSrc dataSrc = .raised d .badHeader (headerAux d.rd) := by
  have hcheck : d.checkHeaders = .raised d .badHeader (headerAux d.rd) := if_neg hw
  unfold Decoder.run
  rw [h]
  change d.checkHeaders.andThen _ = _
  rw [hcheck]
  rfl

/-- A decode that ends with a fault (R219, R222). -/
theorem exec_rdDecode_raised {s : State} {d : Decoding} {code : Code} {aux : Word} (hc : s.Clear)
    (h : s.rd.run s.rdMetaSrc s.rdDataSrc = .raised d code aux) :
    exec .rdDecode s = .next { s with rd := d.rd, rdOutSink := d.out, fault := ⟨code, 0x60000000#32, aux⟩,
                                      reply := some ⟨.ended code, 0#64⟩ } := by
  refine congrArg Host.Outcome.next ((accept_clear hc _).trans ?_)
  simp only [h]
  rfl

/-! ### Bad headers (R168) -/

/-- The two widths in one number: no carry, since each is a byte. -/
theorem headerAux_eq (rd : Decoder) : headerAux rd = BitVec.ofNat 64 (256 * rd.keyWidth.toNat + rd.runWidth.toNat) := by
  have hk := rd.keyWidth.isLt
  have hr := rd.runWidth.isLt
  refine BitVec.eq_of_toNat_eq ?_
  rw [headerAux, BitVec.toNat_or, BitVec.toNat_shiftLeft, BitVec.toNat_ofNat]
  simp only [BitVec.truncate_eq_setWidth, BitVec.toNat_setWidth]
  rw [Nat.mod_eq_of_lt (by omega : rd.keyWidth.toNat < 2 ^ 64), Nat.mod_eq_of_lt (by omega : rd.runWidth.toNat < 2 ^ 64),
    Nat.shiftLeft_eq, Nat.mod_eq_of_lt (by omega), Nat.mod_eq_of_lt (by omega), Nat.mul_comm]
  exact (Nat.two_pow_add_eq_or_of_lt hr _).symm

/-- Settles O44: the headers are read as they stand in the two sources, and the check that follows raises the fault with them. -/
theorem decodeRejectsBadHeaders : Obligations.DecodeRejectsBadHeaders := by
  unfold Obligations.DecodeRejectsBadHeaders
  intro s kw rw hc hm hd hrw hkw hbad
  obtain ⟨np, numRuns, hmeta⟩ := exists_metaBits hrw
  have hstart := Decoding.At.start s.rd s.rdMetaSrc s.rdDataSrc
  rw [hmeta, bitsOf_dataHeader hkw] at hstart
  obtain ⟨d, hread, h⟩ := hstart.headers hm hd
  have hrun := Decoder.run_of_badHeader hread (by rwa [h.runWidth, h.keyWidth])
  rw [headerAux_eq, h.runWidth, h.keyWidth] at hrun
  refine ⟨_, exec_rdDecode_raised hc hrun, ?_, h.runWidth, h.keyWidth⟩
  rw [h.out_nil]

/-! ### Sources cut short (R174, R222) -/

/-- How a decode can end (R166 to R174). -/
theorem exec_rdDecode_ends {s : State} (hc : s.Clear) : ∃ t, exec .rdDecode s = .next t ∧
    ((t.fault = s.fault ∧ t.reply = some ⟨.ended .ok, 0#64⟩ ∧ t.rd.i = t.rd.numRuns) ∨
      (∃ aux, (aux = 0#64 ∨ aux = 1#64) ∧ t.fault = ⟨.sourceUnderrun, 0x60000000#32, aux⟩ ∧
        t.reply = some ⟨.ended .sourceUnderrun, 0#64⟩) ∨
      (t.fault.code = .badHeader ∧ t.fault.cw = 0x60000000#32 ∧ t.rdOutSink = [])) := by
  have hends := s.rd.run_ends s.rdMetaSrc s.rdDataSrc
  cases hrun : s.rd.run s.rdMetaSrc s.rdDataSrc with
  | going d =>
    rw [hrun] at hends
    obtain ⟨-, -, -, hi⟩ := hends
    exact ⟨_, exec_rdDecode_going hc hrun, .inl ⟨rfl, rfl, hi⟩⟩
  | raised d code aux =>
    rw [hrun] at hends
    obtain ⟨-, ⟨rfl, haux⟩ | ⟨rfl, hout⟩⟩ := hends
    · exact ⟨_, exec_rdDecode_raised hc hrun, .inr (.inl ⟨aux, haux, rfl, rfl⟩)⟩
    · exact ⟨_, exec_rdDecode_raised hc hrun, .inr (.inr ⟨rfl, rfl, hout⟩)⟩

/-- A meta source cut in its header (R167, R174). -/
theorem exec_rdDecode_metaHeaderCut {s : State} (hc : s.Clear) (hm : s.rdMetaSrc.length < 8) :
    ∃ t, exec .rdDecode s = .next t ∧ t.fault = ⟨.sourceUnderrun, 0x60000000#32, 0#64⟩ ∧ t.rdOutSink = [] ∧ t.rd.i = s.rd.i := by
  have hbits := bitsOf_length s.rdMetaSrc
  obtain ⟨_, _, _, _, d, h, ⟨-, hread⟩ | ⟨hlen, -⟩⟩ :=
    (Decoding.At.start s.rd s.rdMetaSrc s.rdDataSrc).readHeaders_cases (by omega)
  · exact ⟨_, exec_rdDecode_raised hc (Decoder.run_of_readHeaders_raised hread), rfl, h.out_nil, h.i⟩
  · omega

/-- A data source without its header byte (R167, R174). -/
theorem exec_rdDecode_noDataHeader {s : State} (hc : s.Clear) (hlen : 8 ≤ s.rdMetaSrc.length) (hm : s.rdMetaSrc.length < 2 ^ 64)
    (hd : s.rdDataSrc = []) :
    ∃ t, exec .rdDecode s = .next t ∧ t.fault = ⟨.sourceUnderrun, 0x60000000#32, 1#64⟩ ∧ t.rdOutSink = [] := by
  have hbits := bitsOf_length s.rdMetaSrc
  obtain ⟨_, _, _, _, d, h, ⟨hcut, -⟩ | ⟨-, next, hread⟩⟩ :=
    (Decoding.At.start s.rd s.rdMetaSrc s.rdDataSrc).readHeaders_cases hm
  · omega
  · have hraised := hread.trans (h.readData_short 8 (by simp [hd]) next)
    exact ⟨_, exec_rdDecode_raised hc (Decoder.run_of_readHeaders_raised hraised), rfl, h.out_nil⟩

/-- The number of runs stands in bits 8 to 55 of the header; it is not 0 if one of them is set (R72). -/
theorem numRuns_pos_of_any {np : Byte} {numRuns : BitVec 48} {rw : Byte} {body : List Bool}
    (h : (((metaBits np.toNat numRuns.toNat rw.toNat body).drop 8).take 48).any id = true) : 0 < numRuns.toNat := by
  refine Nat.pos_of_ne_zero fun h0 => ?_
  have hbits : ((metaBits np.toNat numRuns.toNat rw.toNat body).drop 8).take 48 = field 48 0#64 := by
    unfold metaBits
    rw [h0, List.append_assoc, List.append_assoc, List.drop_left' (by simp), List.take_left' (by simp)]
  rw [hbits] at h
  exact absurd h (by decide)

/-- A decode whose records end short after whole ones, in the block (R174, R222). -/
theorem exec_rdDecode_short {s : State} {np kw rw : Byte} {numRuns : BitVec 48} {records : List RunRecord}
    {metaRest dataRest metaLeft dataLeft : List Bool} {emitted : List Word} {aux : Word} (hc : s.Clear)
    (hm : s.rdMetaSrc.length < 2 ^ 64) (hd : s.rdDataSrc.length < 2 ^ 64) (hr : WidthOk rw.toNat) (hk : WidthOk kw.toNat)
    (hlen : records.length < numRuns.toNat) (hfit : ∀ r ∈ records, r.Fits rw.toNat kw.toNat)
    (hcut : CutShort rw.toNat kw.toNat metaRest dataRest emitted metaLeft dataLeft aux)
    (hmeta : bitsOf s.rdMetaSrc =
      metaBits np.toNat numRuns.toNat rw.toNat (records.flatMap (RunRecord.countBits rw.toNat) ++ metaRest))
    (hdata : bitsOf s.rdDataSrc =
      field 8 (BitVec.ofNat 64 kw.toNat) ++ ((records.flatMap RunRecord.keys).flatMap (field kw.toNat) ++ dataRest)) :
    ∃ d, exec .rdDecode s = .next { s with rd := d.rd, rdOutSink := d.out, fault := ⟨.sourceUnderrun, 0x60000000#32, aux⟩,
                                           reply := some ⟨.ended .sourceUnderrun, 0#64⟩ } ∧
      Decoding.At s.rdMetaSrc s.rdDataSrc np numRuns rw kw (BitVec.ofNat 48 records.length) metaLeft dataLeft
        ((records.flatMap RunRecord.output ++ emitted).flatMap (field kw.toNat)) d := by
  obtain ⟨d, hrun, h⟩ := s.rd.run_short hm hd hr hk records hlen hfit hcut hmeta hdata
  exact ⟨d, exec_rdDecode_raised hc hrun, h⟩

/-- A meta source that ends after its header with runs announced (R166, R174). -/
theorem exec_rdDecode_noRecord {s : State} {kw rw : Byte} (hc : s.Clear) (hm : s.rdMetaSrc.length = 8)
    (hd : s.rdDataSrc.length < 2 ^ 64) (hrw : s.rdMetaSrc[7]? = some rw) (hkw : s.rdDataSrc[0]? = some kw)
    (hr : WidthOk rw.toNat) (hk : WidthOk kw.toNat) (hany : (((bitsOf s.rdMetaSrc).drop 8).take 48).any id = true) :
    ∃ t, exec .rdDecode s = .next t ∧ t.fault = ⟨.sourceUnderrun, 0x60000000#32, 0#64⟩ ∧ t.rdOutSink = [] ∧
      t.rd.i = 0#48 := by
  obtain ⟨np, numRuns, hmeta⟩ := exists_metaBits hrw
  rw [hmeta] at hany
  rw [List.drop_eq_nil_of_le hm.le] at hmeta
  obtain ⟨d, hexec, h⟩ := exec_rdDecode_short (records := []) (metaRest := []) hc (by omega) hd hr hk
    (numRuns_pos_of_any hany) (by simp) (.count hr.1) hmeta (bitsOf_dataHeader hkw)
  exact ⟨_, hexec, rfl, h.out_nil, h.i⟩

/-- Settles O45: the ends of every decode, and one lemma per place where a source can be cut. -/
theorem decodeUnderrunNamesItsSource : Obligations.DecodeUnderrunNamesItsSource := by
  unfold Obligations.DecodeUnderrunNamesItsSource
  refine ⟨fun s hc => exec_rdDecode_ends hc, fun s hc hm => exec_rdDecode_metaHeaderCut hc hm,
    fun s hc hlen hm hd => exec_rdDecode_noDataHeader hc hlen hm hd,
    fun s kw rw hc hm hd hrw hkw hr hk hany => exec_rdDecode_noRecord hc hm hd hrw hkw hr hk hany, ?_⟩
  intro s np kw rw numRuns records metaRest dataRest metaLeft dataLeft emitted aux hc hnp hkw hrw hlen hruns hfit hm hd hcut
    hmeta hdata
  have eNp : (BitVec.ofNat 8 np).toNat = np := Nat.mod_eq_of_lt hnp
  have eKw : (BitVec.ofNat 8 kw).toNat = kw := Nat.mod_eq_of_lt (hkw.2.trans_lt (by norm_num))
  have eRw : (BitVec.ofNat 8 rw).toNat = rw := Nat.mod_eq_of_lt (hrw.2.trans_lt (by norm_num))
  have eRuns : (BitVec.ofNat 48 numRuns).toNat = numRuns := Nat.mod_eq_of_lt hruns
  have eLen : (BitVec.ofNat 48 records.length).toNat = records.length := Nat.mod_eq_of_lt (hlen.trans hruns)
  obtain ⟨d, hexec, h⟩ := exec_rdDecode_short (np := BitVec.ofNat 8 np) (kw := BitVec.ofNat 8 kw) (rw := BitVec.ofNat 8 rw)
    (numRuns := BitVec.ofNat 48 numRuns) hc hm hd (by rwa [eRw]) (by rwa [eKw]) (by rwa [eRuns]) (by rwa [eRw, eKw])
    (by rwa [eRw, eKw]) (by rw [eNp, eRuns, eRw, hmeta]) (by rw [eKw, hdata, List.append_assoc])
  rw [eKw] at h
  obtain ⟨hout, hpending⟩ := h.out_pending
  exact ⟨_, _, hexec, rfl, h.i ▸ eLen, h.numRuns ▸ eRuns, rfl, hout, h.woSt, hpending, h.rm, h.rk⟩

/-! ### The round trip of a buffer (R175) -/

/-- The zero bytes that follow a buffer of n bytes when it comes back from an encode with key width w (R175): the padding of its last
group, to whole bytes. -/
def paddingBytes (n w : Nat) : Nat := (groupCount n w * w - 8 * n + 7) / 8

theorem add_paddingBytes {w : Nat} (hw : WidthOk w) (n : Nat) : n + paddingBytes n w = (groupCount n w * w + 7) / 8 := by
  have hle := (groupCount_mul n w hw.1).1
  unfold paddingBytes
  omega

theorem paddingBytes_le {w : Nat} (hw : WidthOk w) (n : Nat) : paddingBytes n w ≤ 8 := by
  have hle := (groupCount_mul n w hw.1).2
  have hmax := hw.2
  unfold paddingBytes
  omega

/-- The groups end with the buffer exactly when the width divides its bit length (R96). -/
theorem groupCount_mul_eq_iff {w : Nat} (hw : WidthOk w) (n : Nat) : groupCount n w * w = 8 * n ↔ w ∣ 8 * n := by
  obtain ⟨hle, hlt⟩ := groupCount_mul n w hw.1
  constructor
  · exact Dvd.intro_left _
  · intro hdvd
    have hpad : groupCount n w * w - 8 * n = 0 :=
      Nat.eq_zero_of_dvd_of_lt (Nat.dvd_sub (Nat.dvd_mul_left w _) hdvd) (hlt.trans_lt (Nat.sub_lt hw.1 one_pos))
    omega

theorem paddingBytes_eq_zero_iff {w : Nat} (hw : WidthOk w) (n : Nat) : paddingBytes n w = 0 ↔ w ∣ 8 * n := by
  have hle := (groupCount_mul n w hw.1).1
  rw [← groupCount_mul_eq_iff hw]
  unfold paddingBytes
  omega

/-- Decoding the Fragment of a buffer, with the Fragment in the two sources (R175). -/
theorem exec_rdDecode_fragment {s : State} {kw np : Nat} {buf : Bytes} {keys counts : List Word} {r : Encoded} (hc : s.Clear)
    (hw : WidthOk kw) (hb : buf.length ≤ 2 ^ 45 - 1) (h : Encoded.Describes kw np buf keys counts r) :
    ∃ u, exec .rdDecode { s with rdMetaSrc := r.metaBytes, rdDataSrc := r.dataBytes } = .next u ∧
      u.reply = some ⟨.ended .ok, 0#64⟩ ∧ u.rdOutSink = buf ++ List.replicate (paddingBytes buf.length kw) 0#8 := by
  obtain ⟨d, hrun, hout⟩ := s.rd.run_encoded hw hb h
  exact ⟨_, exec_rdDecode_going (s := { s with rdMetaSrc := r.metaBytes, rdDataSrc := r.dataBytes }) hc hrun, rfl, hout⟩

/-- Settles O46: the output is the buffer and the padding of its last group, which is empty exactly when the width divides. -/
theorem decodeInvertsEncodeOfABuffer : Obligations.DecodeInvertsEncodeOfABuffer := by
  unfold Obligations.DecodeInvertsEncodeOfABuffer
  intro s kw np hc hw hb
  obtain ⟨t, keys, counts, hexec, hreply, h⟩ := exec_reEncode_describes np hc hw hb
  obtain ⟨u, hdecode, hok, hout⟩ := exec_rdDecode_fragment ((exec_endsIn hexec).clear hreply) hw hb h
  have hlen : u.rdOutSink.length = s.bufMem.length + paddingBytes s.bufMem.length kw := by
    rw [hout, List.length_append, List.length_replicate]
  have hpad : u.rdOutSink.length - s.bufMem.length = paddingBytes s.bufMem.length kw := by omega
  refine ⟨t, u, hexec, hdecode, hok, hlen.trans (add_paddingBytes hw _), ?_, ?_, ?_⟩
  · rw [hpad, hout]
  · rw [hpad]
    exact paddingBytes_le hw _
  · rw [hout, List.append_right_eq_self, List.replicate_eq_nil_iff]
    exact paddingBytes_eq_zero_iff hw _

/-! ### The round trip of the lanes (R198, R201) -/

/-- The byte ranges of all lanes, in rank order, are the file (R192): the last lane takes what the others leave. -/
theorem flatMap_laneBytes_all (file : Bytes) {n : Nat} (hn : 1 ≤ n) : (List.range n).flatMap (laneBytes file n) = file := by
  obtain ⟨k, rfl⟩ := Nat.exists_eq_add_of_le' hn
  have hsize : laneSize file (k + 1) k = file.length - k * chunkSize file (k + 1) := by
    have hdiv := Nat.div_add_mod file.length (k + 1)
    rw [Nat.add_mul, Nat.one_mul] at hdiv
    rw [laneSize, if_pos rfl, chunkSize]
    generalize file.length / (k + 1) = q at hdiv ⊢
    omega
  have hlast : laneBytes file (k + 1) k = file.drop (k * chunkSize file (k + 1)) := by
    rw [laneBytes, memRead, laneOffset, hsize, List.take_of_length_le (by rw [List.length_drop])]
  rw [List.range_succ, List.flatMap_append, flatMap_laneBytes file (k + 1) k k.lt_succ_self, List.flatMap_singleton, hlast,
    List.take_append_drop]

/-- A run whose lanes all fit completes (R195 to R198). -/
theorem exec_pdRun_fits {s : State} {kw n : Nat} (hc : s.Clear) (hw : WidthOk kw) (hn : 1 ≤ n ∧ n ≤ s.lanes.length)
    (hf : s.pdFile.length < 2 ^ 64) (hfit : ∀ r < n, laneSize s.pdFile n r ≤ s.bufMax) :
    exec (.pdRun kw n) s =
      .next (answer (pdStart kw n s).pd.chunk (pdFinish kw n (pdSized n (pdStart kw n s)))) := by
  rw [exec_pdRun_accepted hc hw hn, pdProtocol]
  simp only [pdSized_bufMax, pdStart_bufMax, (failingLane_none kw n s hn.2 hf).mpr hfit]
  rfl

/-- After a run in which every buffer fits, a lane of the run holds the size of its byte range and the Fragment of it (R198). -/
theorem pdFinish_lane_describes {s : State} {kw n r : Nat} (hw : WidthOk kw) (hn : n ≤ s.lanes.length)
    (hf : s.pdFile.length < 2 ^ 64) (hr : r < n) (hb : laneSize s.pdFile n r ≤ 2 ^ 45 - 1) :
    ∃ l keys counts, (pdFinish kw n (pdSized n (pdStart kw n s))).lanes[r]? = some l ∧ l.size.toNat = laneSize s.pdFile n r ∧
      Encoded.Describes kw n (laneBytes s.pdFile n r) keys counts ⟨l.enc, l.dataSink, l.metaSink⟩ := by
  have hlane := pdFinish_lane kw n s r
  rw [List.getElem?_eq_getElem (hr.trans_le hn), Option.map_some, if_pos hr] at hlane
  obtain ⟨keys, counts, h⟩ := (s.lanes[r]'(hr.trans_le hn)).enc.run_spec kw n (laneBytes s.pdFile n r) hw
    (by rwa [laneBytes_length _ _ _ hr])
  exact ⟨_, keys, counts, hlane, ofNat_laneSize_toNat _ _ _ hr hf, h⟩

/-- Settles O49: each lane's Fragment decodes to its byte range, which is what the trim leaves, and the ranges make up the file. -/
theorem pdFragmentsDecodeToTheFile : Obligations.PdFragmentsDecodeToTheFile := by
  unfold Obligations.PdFragmentsDecodeToTheFile
  intro s kw n hc hw hn1 hn hf hmax hfit
  refine ⟨_, (List.range n).map (laneBytes s.pdFile n), exec_pdRun_fits hc hw ⟨hn1, hn⟩ hf hfit, by simp,
    flatMap_laneBytes_all s.pdFile hn1, fun r hr => ?_⟩
  have hb : laneSize s.pdFile n r ≤ 2 ^ 45 - 1 := (hfit r hr).trans hmax
  have hlen := laneBytes_length s.pdFile n r hr
  obtain ⟨l, keys, counts, hlane, hsize, h⟩ := pdFinish_lane_describes hw hn hf hr hb
  obtain ⟨u, hdecode, hok, hout⟩ := exec_rdDecode_fragment
    (s := answer (pdStart kw n s).pd.chunk (pdFinish kw n (pdSized n (pdStart kw n s)))) hc hw (hlen.trans_le hb) h
  refine ⟨l, u, laneBytes s.pdFile n r, hlane, by simp [hr], hdecode, hok, ?_, ?_⟩
  · rw [hout, hsize, List.take_left' hlen]
  · rw [hout, hsize, List.length_append, List.length_replicate, hlen, Nat.add_sub_cancel_left]
    exact paddingBytes_le hw _

end Sys2Proof.Machine

/-! SUPPORT. `PD.RUN` as a whole: the partition of the file, the two ways in which the command ends, and that every schedule of the lanes
ends in the same way, within a bound on its moves (R186 to R199). -/

namespace Sys2Proof.Machine

/-! ### The partition (R192) -/

theorem laneSize_of_not_last (file : Bytes) {n r : Nat} (hr : r + 1 < n) : laneSize file n r = file.length / n :=
  if_neg hr.ne

theorem laneSize_last (file : Bytes) {n : Nat} (hn : 1 ≤ n) : laneSize file n (n - 1) = file.length / n + file.length % n :=
  if_pos (Nat.sub_add_cancel hn)

/-- Each byte range begins where the one before it ends (R192). -/
theorem laneOffset_succ (file : Bytes) {n r : Nat} (hr : r + 1 < n) :
    laneOffset file n (r + 1) = laneOffset file n r + laneSize file n r := by
  rw [laneSize_of_not_last file hr]
  exact Nat.succ_mul r (file.length / n)

/-- Settles O47: the ranges of all lanes are the file; the sizes are the two cases of their definition. -/
theorem laneRangesCoverTheFile : Obligations.LaneRangesCoverTheFile := by
  unfold Obligations.LaneRangesCoverTheFile
  intro file n hn
  exact ⟨flatMap_laneBytes_all file hn,
    fun r hr => ⟨laneBytes_length file n r hr, laneOffset_add_laneSize_le file n r hr⟩,
    fun r hr => ⟨laneSize_of_not_last file hr, laneOffset_succ file hr⟩,
    laneSize_last file hn⟩

/-! ### The two ways in which `PD.RUN` ends (R198, R199) -/

/-- Settles O48: the lanes at the end of a run that fits are those of `pdFinish_lane`, and the Fragment of a buffer does not depend on
what its encoder held before, so a lane's own encoder makes the same as `RE` (R197). -/
theorem pdRunLeavesEveryLaneItsFragment : Obligations.PdRunLeavesEveryLaneItsFragment := by
  unfold Obligations.PdRunLeavesEveryLaneItsFragment
  intro s kw n hc hw hn1 hn hf hfit
  refine ⟨_, exec_pdRun_fits hc hw ⟨hn1, hn⟩ hf hfit, rfl, ?_, fun r hr => ?_, fun r l m hr hl hm => ?_⟩
  · simp
  · have hlane := pdFinish_lane kw n s r
    rw [List.getElem?_eq_getElem (hr.trans_le hn), Option.map_some, if_pos hr,
      Encoder.run_congr _ s.re kw n (laneBytes s.pdFile n r)] at hlane
    exact ⟨_, _, hlane, rfl, ofNat_laneSize_toNat _ _ _ hr hf, rfl, laneBytes_length _ _ _ hr,
      exec_reEncode_accepted (s := { s with bufMem := laneBytes s.pdFile n r }) hc hw, rfl, rfl⟩
  · rw [answer_lanes, pdFinish_lane, hm, Option.map_some, if_neg hr.not_gt, Option.some.injEq] at hl
    exact hl.symm

/-- A run with a lane that does not fit aborts the group (R195, R199). -/
theorem exec_pdRun_aborts {s : State} {kw n r : Nat} (hc : s.Clear) (hw : WidthOk kw) (hn : 1 ≤ n ∧ n ≤ s.lanes.length)
    (hf : s.pdFile.length < 2 ^ 64) (hr : r < n) (hbig : s.bufMax < laneSize s.pdFile n r) :
    exec (.pdRun kw n) s =
      .next (raise (Instr.pdRun kw n).word .resource
        (BitVec.ofNat 64 (if s.bufMax < s.pdFile.length / n then s.pdFile.length / n else laneSize s.pdFile n (n - 1)))
        { pdSized n (pdStart kw n s) with lanes := onLanes n (fun _ l => l.abort) (pdSized n (pdStart kw n s)).lanes }) := by
  obtain ⟨failing, hfails, hsize⟩ := failingLane_some kw n s hn.1 hn.2 hf r hr hbig
  rw [exec_pdRun_accepted hc hw hn, pdProtocol, ← hsize]
  simp only [pdSized_bufMax, pdStart_bufMax, hfails]

/-- Settles O50: the aborted lanes are those of `pdAbort_lane`. -/
theorem pdRunAbortsTheWholeGroup : Obligations.PdRunAbortsTheWholeGroup := by
  unfold Obligations.PdRunAbortsTheWholeGroup
  intro s kw n r hc hw hn1 hn hf hr hbig
  refine ⟨_, exec_pdRun_aborts hc hw ⟨hn1, hn⟩ hf hr hbig, rfl, fun q m hm => ?_⟩
  rw [raise_lanes, pdAbort_lane, hm]
  rfl

/-! ### Every schedule (R190) -/

/-- Every schedule of a run leads to a stage, with its moves, messages and barriers counted. -/
theorem Group.follow_start {s : State} {kw n : Nat} {moves : List Move} {g : Group} (hn1 : 1 ≤ n) (hn : n ≤ s.lanes.length)
    (hf : s.pdFile.length < 2 ^ 64) (h : Group.follow (runConfig kw n s) (Group.start n s.lanes) moves = some g) :
    ∃ st : Stage, st.Holds (runConfig kw n s) s.lanes g ∧
      st.Counted n (moves.length, messageCount moves, barrierCount moves) := by
  have hcounted : Stage.start.Counted n (0, 0, 0) := rfl
  have hreach := (Stage.holds_start kw n s hn).follow hf hn1 moves h hcounted
  simp only [Nat.zero_add] at hreach
  exact hreach

/-- No stage is reached by more than `4 * N + 4` moves (R256). -/
theorem Stage.Counted.moves_le {c : RunConfig} {st : Stage} (hfits : st.Fits c) {p : Nat × Nat × Nat} (h : st.Counted c.n p) :
    p.1 ≤ 4 * c.n + 4 := by
  have hcount : ∀ d, (List.range c.n).countP d ≤ c.n := fun d => List.countP_le_length.trans_eq List.length_range
  cases st with
  | start => subst h; exact Nat.zero_le _
  | sizing k =>
    obtain ⟨-, hk⟩ := hfits
    subst h
    simp only [Stage.moves]
    omega
  | allocating d =>
    have := hcount d
    subst h
    simp only [Stage.moves]
    omega
  | sending k =>
    obtain ⟨-, hk, -⟩ := hfits
    subst h
    simp only [Stage.moves]
    omega
  | compressing d =>
    have := hcount d
    subst h
    simp only [Stage.moves]
    omega
  | aborted => exact h.trans (by omega)

/-- Settles O52: in every stage that is not an end some move is possible, and each stage knows the number of moves that lead to it. -/
theorem noScheduleBlocks : Obligations.NoScheduleBlocks := by
  unfold Obligations.NoScheduleBlocks
  intro s kw n moves g hn1 hn hf h
  obtain ⟨st, hst, hcounted⟩ := Group.follow_start hn1 hn hf h
  exact ⟨Stage.Counted.moves_le hst.fits hcounted, hst.canMove hn1⟩

/-- A lane is finished only in the stage in which all lanes compress (R197). -/
theorem Stage.eq_compressing {n r : Nat} {st : Stage} (h : st.pc n r = .finished) : ∃ d, st = .compressing d ∧ d r = true := by
  cases st with
  | compressing d =>
    refine ⟨d, rfl, ?_⟩
    by_contra hd
    simp [Stage.pc, hd] at h
  | start => cases h
  | aborted => cases h
  | allocating d => simp only [Stage.pc] at h; split at h <;> cases h
  | sizing k | sending k => simp only [Stage.pc] at h; split at h <;> split at h <;> cases h

/-- A lane is stopped only when the whole group is aborted (R199). -/
theorem Stage.eq_aborted {n r : Nat} {st : Stage} (h : st.pc n r = .stopped) : st = .aborted := by
  cases st with
  | aborted => rfl
  | start => cases h
  | allocating d | compressing d => simp only [Stage.pc] at h; split at h <;> cases h
  | sizing k | sending k => simp only [Stage.pc] at h; split at h <;> split at h <;> cases h

section Ends

variable {c : RunConfig} {lanes : List Lane} {g : Group} {st : Stage} {x : AgentPc}

/-- Where all agents of a group stand is where its stage puts them. -/
theorem Stage.Holds.pc_of_all (h : st.Holds c lanes g) (hall : ∀ a ∈ g, a.pc = x) {r : Nat} (hr : r < c.n) :
    st.pc c.n r = x := by
  have hget := List.getElem?_eq_getElem (hr.trans_eq h.length.symm)
  obtain ⟨l, -, ha⟩ := h.agent r _ hget
  rw [← hall _ (List.mem_of_getElem? hget), ha]

/-- The lanes of a group whose agents all stand at the same place. -/
theorem Stage.Holds.lanes_of_all (h : st.Holds c lanes g) (hall : ∀ a ∈ g, a.pc = x) {after : List Lane}
    (hafter : ∀ r < c.n, after[r]? = lanes[r]?.map fun l => laneAt c r l x) : g.map Agent.lane = after.take c.n := by
  refine List.ext_getElem? fun r => ?_
  rw [List.getElem?_map, List.getElem?_take]
  by_cases hr : r < c.n
  · have hget := List.getElem?_eq_getElem (hr.trans_eq h.length.symm)
    obtain ⟨l, hl, ha⟩ := h.agent r _ hget
    rw [if_pos hr, hafter r hr, hl, hget, ha, h.pc_of_all hall hr]
    rfl
  · rw [if_neg hr, List.getElem?_eq_none (h.length.trans_le (Nat.le_of_not_lt hr))]
    rfl

end Ends

/-- A run has ended when all its agents are finished or all are stopped. -/
theorem Group.ended_iff (g : Group) : g.ended = true ↔ (∀ a ∈ g, a.pc = .finished) ∨ ∀ a ∈ g, a.pc = .stopped := by
  simp [Group.ended]

/-- Settles O53: a completed run has compressed in every lane, and that stage is reached by these numbers. -/
theorem completeRunPassesFourBarriers : Obligations.CompleteRunPassesFourBarriers := by
  unfold Obligations.CompleteRunPassesFourBarriers
  intro s kw n moves g hn1 hn hf h hall
  obtain ⟨st, hst, hcounted⟩ := Group.follow_start hn1 hn hf h
  obtain ⟨d, rfl, -⟩ := Stage.eq_compressing (hst.pc_of_all hall hn1)
  simp only [Stage.Counted, Stage.moves, Prod.mk.injEq] at hcounted
  obtain ⟨-, hmessages, hbarriers⟩ := hcounted
  exact ⟨hbarriers, hmessages⟩

/-- Settles O51: an ended run is in the stage of its end, which says whether the lanes fit and what each of them holds; `PD.RUN` leaves the
same. -/
theorem everyScheduleEndsAsPdRunDoes : Obligations.EveryScheduleEndsAsPdRunDoes := by
  unfold Obligations.EveryScheduleEndsAsPdRunDoes
  intro s kw n moves g hc hw hn1 hn hf h hend
  obtain ⟨st, hst, -⟩ := Group.follow_start hn1 hn hf h
  rcases g.ended_iff.mp hend with hall | hall
  · obtain ⟨d, rfl, -⟩ := Stage.eq_compressing (hst.pc_of_all hall hn1)
    refine ⟨_, exec_pdRun_fits hc hw ⟨hn1, hn⟩ hf hst.fits, hst.lanes_of_all hall fun r (hr : r < n) => ?_,
      iff_of_true hc hall⟩
    rw [answer_lanes, pdFinish_lane]
    simp only [if_pos hr]
    rfl
  · obtain rfl := Stage.eq_aborted (hst.pc_of_all hall hn1)
    obtain ⟨r, hr, hbig⟩ := hst.fits
    refine ⟨_, exec_pdRun_aborts hc hw ⟨hn1, hn⟩ hf hr hbig, hst.lanes_of_all hall fun q (hq : q < n) => ?_,
      iff_of_false ?_ ?_⟩
    · rw [raise_lanes, pdAbort_lane]
      simp only [if_pos hq]
      rfl
    · exact fun hclear => nomatch hclear
    · intro hfinished
      cases (hst.pc_of_all hall hn1).symm.trans (hst.pc_of_all hfinished hn1)

end Sys2Proof.Machine

/-! SUPPORT. Faults: a latched one refuses every command (R220), a command that raises one changes nothing else (R219, R222), and which
check of a command raises which fault (R216, R217, R221). -/

namespace Sys2Proof.Machine

/-! ### While a fault is latched (R220) -/

/-- A refusal is the only end of a command while a fault is latched. -/
theorem EndsIn.eq_refuse {i : Instr} {s t : State} (h : EndsIn s i t) (hl : ¬ s.Clear) : t = refuse s := by
  cases h with
  | refused => rfl
  | _ => exact absurd ‹s.Clear› hl

theorem exec_latched {s : State} (hl : ¬ s.Clear) (i : Instr) : exec i s = .next (refuse s) := by
  obtain ⟨t, hexec, hends⟩ := exec_next i s
  rw [hexec, hends.eq_refuse hl]

theorem illegalCommand_latched {s : State} (hl : ¬ s.Clear) (cw : CmdWord) : illegalCommand cw s = refuse s :=
  accept_latched hl _

/-- At the command port a legal word and an illegal one are refused alike. -/
theorem issue_latched {s : State} (hl : ¬ s.Clear) (c : Command) : issue c s = .next (refuse s) := by
  unfold issue
  split
  next i _ => exact exec_latched hl i
  next => exact congrArg Host.Outcome.next (illegalCommand_latched hl c.cw)

theorem step_pending {s : State} {a : HostAction} {rest : List HostAction} (h : s.pending = a :: rest) :
    step s = perform a { s with pending := rest } := by
  rw [step, h]

/-- Only the reset event writes `FAULT` while a fault is latched (R223). -/
theorem ActEndsIn.fault_latched {s t : State} {a : HostAction} (h : ActEndsIn s a t) (hl : ¬ s.Clear) (ha : a ≠ .reset) :
    t.fault = s.fault := by
  cases h with
  | command _ hends => rw [hends.eq_refuse hl, refuse_fault]
  | illegal => rw [illegalCommand_latched hl, refuse_fault]
  | reset => exact absurd rfl ha
  | _ => rfl

/-- Settles O10: a command at the port ends in a refusal, and every other action but reset leaves `FAULT` alone. -/
theorem latchedBlockRefusesEveryCommand : Obligations.LatchedBlockRefusesEveryCommand := by
  unfold Obligations.LatchedBlockRefusesEveryCommand
  refine ⟨fun s c rest hl hpending => ?_, fun s t a rest hl hpending ha hstep => ?_⟩
  · rw [step_pending hpending]
    exact issue_latched (s := { s with pending := rest }) hl c
  · rw [step_pending hpending] at hstep
    exact (perform_endsIn hstep).fault_latched hl ha

/-! ### What a fault leaves unchanged (R219, R222) -/

/-- A command that latches a fault records its own word and ends with the code of the fault. -/
theorem EndsIn.fault_reply {i : Instr} {s t : State} (h : EndsIn s i t) (hs : s.Clear) (ht : ¬ t.Clear) :
    t.fault.cw = i.word ∧ t.reply = some ⟨.ended t.fault.code, 0#64⟩ := by
  obtain ⟨r, hreply, ⟨-, -, hfault⟩ | ⟨-, -, hcw, rfl⟩ | ⟨hl, -⟩⟩ := h.reply
  · exact absurd ((congrArg FaultReg.code hfault).trans hs) ht
  · exact ⟨hcw, hreply⟩
  · exact absurd hs hl

/-- Every command but `RD.DECODE` and `PD.RUN` raises its fault before it has changed anything. -/
theorem EndsIn.fault_frame {i : Instr} {s t : State} (h : EndsIn s i t) (hs : s.Clear) (ht : ¬ t.Clear)
    (hrd : i ≠ .rdDecode) (hpd : ∀ kw n, i ≠ .pdRun kw n) : t = { s with fault := t.fault, reply := t.reply } := by
  cases h with
  | refused hl => exact absurd hs hl
  | raised => rfl
  | rdDecodeFault => exact absurd rfl hrd
  | pdAbort => exact absurd rfl (hpd _ _)
  | _ => exact absurd hs ht

/-- Settles O11: the reply of a faulting end, and the frame of the ends that are no partial decode and no abort. -/
theorem faultsArePrecise : Obligations.FaultsArePrecise := by
  unfold Obligations.FaultsArePrecise
  intro i s t hs hexec ht
  have hends := exec_endsIn hexec
  obtain ⟨hcw, hreply⟩ := hends.fault_reply hs ht
  exact ⟨hcw, hreply, hends.fault_frame hs ht⟩

/-! ### Which check fails first (R216, R217, R221) -/

section Checks

variable {s : State} {a : Nat} {st : UnitState}

theorem next_checkWidth_bad (hc : s.Clear) (cw : CmdWord) (run : State → State) (hw : ¬ WidthOk a) :
    (.next (accept s (checkWidth cw a run)) : Host.Outcome State Fault Refusal) = .next (raise cw .badArgument (auxOfNat a) s) :=
  congrArg Host.Outcome.next (accept_checkWidth_bad hc hw cw run)

theorem next_checkReady_other (hc : s.Clear) (cw : CmdWord) (run : State → State) (hr : st ≠ .ready) :
    (.next (accept s (checkReady cw st run)) : Host.Outcome State Fault Refusal) = .next (raise cw .badState (auxOfState st) s) :=
  congrArg Host.Outcome.next (accept_checkReady_other hc hr cw run)

theorem next_checkWidth_checkReady_other (hc : s.Clear) (cw : CmdWord) (run : State → State) (hw : WidthOk a) (hr : st ≠ .ready) :
    (.next (accept s (checkWidth cw a (checkReady cw st run))) : Host.Outcome State Fault Refusal) =
      .next (raise cw .badState (auxOfState st) s) :=
  congrArg Host.Outcome.next (accept_checkWidth_checkReady_other hc hw hr cw run)

end Checks

/-- An open packer is in state 1, which the fault records (R106). -/
theorem exec_bpInit_open {s : State} {w : Nat} (hc : s.Clear) (hw : WidthOk w) (hr : s.bp.st = .ready) :
    exec (.bpInit w) s = .next (raise (Instr.bpInit w).word .badState 1#64 s) := by
  rw [exec_bpInit_badState hc hw hr, hr]
  rfl

/-- An open writer is in state 1, which the fault records (R126). -/
theorem exec_vwInit_open {s : State} (hc : s.Clear) (hr : s.vw.st = .ready) :
    exec .vwInit s = .next (raise Instr.vwInit.word .badState 1#64 s) := by
  rw [exec_vwInit_badState hc hr, hr]
  rfl

/-- The worker count is checked after the width (R221). -/
theorem exec_pdRun_badWorkers {s : State} {kw n : Nat} (hc : s.Clear) (hw : WidthOk kw) (hn : ¬ (1 ≤ n ∧ n ≤ s.lanes.length)) :
    exec (.pdRun kw n) s = .next (raise (Instr.pdRun kw n).word .badArgument (auxOfNat n) s) :=
  congrArg Host.Outcome.next ((accept_clear hc _).trans ((checkWidth_ok hw _ _ s).trans (checkWorkers_bad hn _ _)))

/-- Settles O13: unit by unit, the first check that fails raises its fault; a check of the data is reached in a ready unit only. -/
theorem checksComeInTheOrderOfTheSpec : Obligations.ChecksComeInTheOrderOfTheSpec := by
  unfold Obligations.ChecksComeInTheOrderOfTheSpec
  intro s a b d hc
  have bxAdvanceEnd (hr : s.bx.st = .ready) (hend : 8 * s.bx.size.toNat ≤ s.bx.cur.toNat) :=
    exec_bxAdvance_exhausted hc hr (s.bx.hasNext_iff.not.mpr (Nat.not_lt.mpr hend))
  have vrReadShort (hw : WidthOk a) (hr : s.vr.st = .ready) (hshort : (s.vr.unread s.vrSrc).length < a) :=
    exec_vrRead_none hc hw hr (s.vr.read_short _ _ hshort)
  exact
    ⟨-- BX
      next_checkWidth_bad hc _ _, exec_bxInit_tooLarge hc, next_checkReady_other hc _ _, next_checkReady_other hc _ _,
      bxAdvanceEnd, next_checkReady_other hc _ _,
      -- BP
      next_checkWidth_bad hc _ _, exec_bpInit_open hc, next_checkReady_other hc _ _, next_checkReady_other hc _ _,
      -- VR
      next_checkWidth_bad hc _ _, next_checkWidth_checkReady_other hc _ _, vrReadShort,
      -- VW
      exec_vwInit_open hc, next_checkWidth_bad hc _ _, next_checkWidth_checkReady_other hc _ _, next_checkReady_other hc _ _,
      -- RE, PD
      next_checkWidth_bad hc _ _, next_checkWidth_bad hc _ _, exec_pdRun_badWorkers hc⟩

end Sys2Proof.Machine

/-! SUPPORT. One command per step (R251), `BX.ADVANCE` on a shortened `BUFMEM` (U5), and the independence of the units (R252): a command
works on its own unit and on what no unit owns, so the other units may hold anything. -/

namespace Sys2Proof.Machine

/-! ### One command per step (R251) -/

theorem issue_of_decode {c : Command} {i : Instr} (h : decode c = .ok i) (s : State) : issue c s = exec i s := by
  rw [issue, h]

theorem decode_of_decodeTableWord {nbits w : Nat} {i : Instr} (h : decodeTableWord nbits w = some i) :
    decode (commandOfBits nbits w) = .ok i := by
  unfold decodeTableWord at h
  split at h
  next hdecode => cases h; exact hdecode
  next => cases h

theorem step_command {s : State} {c : Command} {rest : List HostAction} {i : Instr} (hp : s.pending = .command c :: rest)
    (h : decode c = .ok i) : step s = exec i { s with pending := rest } :=
  (step_pending hp).trans (issue_of_decode h _)

/-- Settles O7: the step performs the first pending action, which is a command; `withFetchWord` puts its command there. -/
theorem stepRunsTheDecodedCommand : Obligations.StepRunsTheDecodedCommand := by
  unfold Obligations.StepRunsTheDecodedCommand
  exact ⟨fun _ _ _ _ => step_command, fun s _ _ _ h => step_command (s := s.withFetchWord _ _) rfl (decode_of_decodeTableWord h)⟩

/-! ### BX.ADVANCE on a shortened BUFMEM (R253, U5) -/

/-- Below the end of a shortened `BUFMEM`, `BX` sees the bits of the memory (R92). -/
theorem bxBit_of_lt {s : State} (hshort : s.bufMem.length < s.bx.size.toNat) {j : Nat}
    (hj : s.bx.cur.toNat + j < 8 * s.bufMem.length) : some (bxBit s j) = (bitsOf s.bufMem)[s.bx.cur.toNat + j]? := by
  have hlen : s.bx.cur.toNat + j < (bitsOf s.bufMem).length := by rwa [bitsOf_length]
  rw [bxBit, bufBit?_inside _ _ _ (.inr hshort), List.getElem?_eq_getElem hlen, Option.getD_some]

/-- Settles O22: whether a group is left and where the cursor goes do not depend on `BUFMEM`, and a bit of the group below its end is
the memory's. -/
theorem bxAdvanceOnAShortenedBufferRuns : Obligations.BxAdvanceOnAShortenedBufferRuns := by
  unfold Obligations.BxAdvanceOnAShortenedBufferRuns
  intro s hc hr hw _ hn hshort
  refine ⟨s.bx.group (bxBit s), _, exec_bxAdvance_hasNext hc hr (s.bx.hasNext_iff.mpr hn), rfl, rfl, s.bx.moved_eq,
    fun j hj hlt => ?_, s.bx.group_low _⟩
  rw [s.bx.group_bit _ hw j hj, bxBit_of_lt hshort hlt]

/-! ### The units and what they own (R10, R252) -/

/-- The seven units of the block. -/
inductive BlockUnit where
  | bx | bp | vr | vw | re | rd | pd

/-- The unit that a command addresses (R65). -/
def unitOf (i : Instr) : BlockUnit :=
  match i.opcode with
  | .bxInit | .bxHasNext | .bxAdvance | .bxUnused => .bx
  | .bpInit | .bpPush | .bpClose => .bp
  | .vrInit | .vrRead => .vr
  | .vwInit | .vwWrite | .vwClose => .vw
  | .reEncode => .re
  | .rdDecode => .rd
  | .pdRun => .pd

/-- The field `UNIT` of a unit's command words (R65). -/
def BlockUnit.number : BlockUnit → Nat
  | .bx => 1
  | .bp => 2
  | .vr => 3
  | .vw => 4
  | .re => 5
  | .rd => 6
  | .pd => 7

theorem unitField_matchBits (i : Instr) : unitField (opcodeRow i.opcode).matchBits = (unitOf i).number := by
  unfold unitOf
  cases i.opcode <;> rfl

/-- `s` with the registers and sinks of the unit `k` taken from `r`. -/
def withUnit (k : BlockUnit) (s r : State) : State :=
  match k with
  | .bx => { s with bx := r.bx, drawn := r.drawn }
  | .bp => { s with bp := r.bp, bpSink := r.bpSink }
  | .vr => { s with vr := r.vr }
  | .vw => { s with vw := r.vw, vwSink := r.vwSink }
  | .re => { s with re := r.re, reDataSink := r.reDataSink, reMetaSink := r.reMetaSink }
  | .rd => { s with rd := r.rd, rdOutSink := r.rdOutSink }
  | .pd => { s with pd := r.pd, lanes := r.lanes }

/-- `s` with everything that no unit owns taken from `r`: `FAULT`, the reply, the storage that the host loads, `BUF_MAX` and the host's
actions. -/
def withShared (s r : State) : State :=
  { s with
    fault := r.fault
    bufMem := r.bufMem
    vrSrc := r.vrSrc
    rdMetaSrc := r.rdMetaSrc
    rdDataSrc := r.rdDataSrc
    pdFile := r.pdFile
    bufMax := r.bufMax
    pending := r.pending
    reply := r.reply }

/-- The block as a command of the unit `k` sees it in `s`, with the other units as they are in `r`. -/
def viewOf (k : BlockUnit) (r s : State) : State := withUnit k (withShared r s) s

section Units

variable (k : BlockUnit) (s r : State)

@[simp] theorem withUnit_self : withUnit k s s = s := by cases k <;> rfl

@[simp] theorem withUnit_fault : (withUnit k s r).fault = s.fault := by cases k <;> rfl

@[simp] theorem withUnit_reply : (withUnit k s r).reply = s.reply := by cases k <;> rfl

theorem withUnit_withReply (v : Option Reply) : { withUnit k s r with reply := v } = withUnit k { s with reply := v } r := by
  cases k <;> rfl

theorem withShared_withUnit (t : State) : withShared (withUnit k s r) t = withUnit k (withShared s t) r := by cases k <;> rfl

/-- The registers and sinks of different units are different fields. -/
theorem withUnit_comm {k n : BlockUnit} (h : k ≠ n) (s r t : State) :
    withUnit n (withUnit k s r) t = withUnit k (withUnit n s t) r := by
  cases k <;> cases n <;> try rfl
  all_goals exact absurd rfl h

@[simp] theorem viewOf_self : viewOf k s s = s := withUnit_self k s

/-- A view leaves the units that it does not show. -/
theorem viewOf_withUnit {k n : BlockUnit} (h : k ≠ n) (s r t : State) :
    viewOf n (withUnit k s r) t = withUnit k (viewOf n s t) r := by
  rw [viewOf, withShared_withUnit, withUnit_comm h, viewOf]

@[simp] theorem viewOf_fault : (viewOf k r s).fault = s.fault := by cases k <;> rfl

theorem viewOf_refuse : viewOf k r (refuse s) = refuse (viewOf k r s) := by cases k <;> rfl

theorem viewOf_raise (cw : CmdWord) (code : Code) (aux : Word) :
    viewOf k r (raise cw code aux s) = raise cw code aux (viewOf k r s) := by cases k <;> rfl

theorem viewOf_answer (v : Word) : viewOf k r (answer v s) = answer v (viewOf k r s) := by cases k <;> rfl

end Units

/-! ### A command runs on its view alone (R252) -/

section Views

variable {k : BlockUnit} {r s : State} {run run' : State → State}

theorem ite_viewOf {p : Prop} [Decidable p] {t u t' u' : State} (ht : t' = viewOf k r t) (hu : u' = viewOf k r u) :
    (if p then t' else u') = viewOf k r (if p then t else u) := by
  rw [ht, hu, apply_ite (viewOf k r)]

theorem accept_viewOf (h : run' (viewOf k r s) = viewOf k r (run s)) :
    accept (viewOf k r s) run' = viewOf k r (accept s run) := by
  rw [accept, viewOf_fault]
  exact ite_viewOf (viewOf_refuse ..).symm h

theorem checkWidth_viewOf {cw : CmdWord} {a : Nat} (h : run' (viewOf k r s) = viewOf k r (run s)) :
    checkWidth cw a run' (viewOf k r s) = viewOf k r (checkWidth cw a run s) :=
  ite_viewOf h (viewOf_raise ..).symm

theorem checkReady_viewOf {cw : CmdWord} {st : UnitState} (h : run' (viewOf k r s) = viewOf k r (run s)) :
    checkReady cw st run' (viewOf k r s) = viewOf k r (checkReady cw st run s) :=
  ite_viewOf h (viewOf_raise ..).symm

theorem checkNotReady_viewOf {cw : CmdWord} {st : UnitState} (h : run' (viewOf k r s) = viewOf k r (run s)) :
    checkNotReady cw st run' (viewOf k r s) = viewOf k r (checkNotReady cw st run s) :=
  ite_viewOf (viewOf_raise ..).symm h

/-- The number of lanes is in the view of `PD`. -/
theorem checkWorkers_viewOf {cw : CmdWord} {n : Nat} (h : run' (viewOf .pd r s) = viewOf .pd r (run s)) :
    checkWorkers cw n run' (viewOf .pd r s) = viewOf .pd r (checkWorkers cw n run s) :=
  ite_viewOf h (viewOf_raise ..).symm

end Views

theorem pdProtocol_viewOf (cw : CmdWord) (kw n : Nat) (r s : State) :
    pdProtocol cw kw n (viewOf .pd r s) = viewOf .pd r (pdProtocol cw kw n s) := by
  have hsized : pdSized n (pdStart kw n (viewOf .pd r s)) = viewOf .pd r (pdSized n (pdStart kw n s)) := rfl
  unfold pdProtocol
  rw [hsized]
  generalize pdSized n (pdStart kw n s) = u
  dsimp only
  have hfailing : failingLane n (viewOf .pd r u).bufMax (viewOf .pd r u).lanes = failingLane n u.bufMax u.lanes := rfl
  rw [hfailing]
  cases failingLane n u.bufMax u.lanes <;> rfl

/-- Every check and every effect of a command is the same on its view, the other units aside. -/
theorem exec_next_viewOf (j : Instr) (r s : State) :
    ∃ u, exec j s = .next u ∧ exec j (viewOf (unitOf j) r s) = .next (viewOf (unitOf j) r u) := by
  cases j with
  | bxInit => exact ⟨_, rfl, congrArg Host.Outcome.next (accept_viewOf (checkWidth_viewOf (ite_viewOf rfl rfl)))⟩
  | bxAdvance => exact ⟨_, rfl, congrArg Host.Outcome.next (accept_viewOf (checkReady_viewOf (ite_viewOf rfl rfl)))⟩
  | bxHasNext | bxUnused | bpPush | bpClose | vwClose =>
    exact ⟨_, rfl, congrArg Host.Outcome.next (accept_viewOf (checkReady_viewOf rfl))⟩
  | bpInit => exact ⟨_, rfl, congrArg Host.Outcome.next (accept_viewOf (checkWidth_viewOf (checkNotReady_viewOf rfl)))⟩
  | vrInit => exact ⟨_, rfl, congrArg Host.Outcome.next (accept_viewOf rfl)⟩
  | vrRead w =>
    refine ⟨_, rfl, congrArg Host.Outcome.next (accept_viewOf (k := .vr) (checkWidth_viewOf (checkReady_viewOf ?_)))⟩
    have hread : (viewOf .vr r s).vr.read (viewOf .vr r s).vrSrc w = s.vr.read s.vrSrc w := rfl
    rw [hread]
    cases s.vr.read s.vrSrc w <;> rfl
  | vwInit => exact ⟨_, rfl, congrArg Host.Outcome.next (accept_viewOf (checkNotReady_viewOf rfl))⟩
  | vwWrite => exact ⟨_, rfl, congrArg Host.Outcome.next (accept_viewOf (checkWidth_viewOf (checkReady_viewOf rfl)))⟩
  | reEncode => exact ⟨_, rfl, congrArg Host.Outcome.next (accept_viewOf (checkWidth_viewOf rfl))⟩
  | rdDecode =>
    refine ⟨_, rfl, congrArg Host.Outcome.next (accept_viewOf (k := .rd) ?_)⟩
    have hrun : (viewOf .rd r s).rd.run (viewOf .rd r s).rdMetaSrc (viewOf .rd r s).rdDataSrc =
        s.rd.run s.rdMetaSrc s.rdDataSrc := rfl
    rw [hrun]
    cases s.rd.run s.rdMetaSrc s.rdDataSrc <;> rfl
  | pdRun =>
    exact ⟨_, rfl, congrArg Host.Outcome.next (accept_viewOf (checkWidth_viewOf (checkWorkers_viewOf
      (pdProtocol_viewOf _ _ _ _ _))))⟩

theorem exec_viewOf {j : Instr} {s t : State} (h : exec j s = .next t) (r : State) :
    exec j (viewOf (unitOf j) r s) = .next (viewOf (unitOf j) r t) := by
  obtain ⟨u, hu, hexec⟩ := exec_next_viewOf j r s
  cases hu.symm.trans h
  exact hexec

/-- A command changes what its view shows and nothing else. -/
theorem EndsIn.viewOf_eq {i : Instr} {s t : State} (h : EndsIn s i t) : viewOf (unitOf i) s t = t := by
  rw [h.frame]
  cases i <;> rfl

/-- The registers and sinks of another unit have no effect on a command, and it does not change them (R252). -/
theorem exec_withUnit {j : Instr} {k : BlockUnit} (hk : k ≠ unitOf j) {s t : State} (h : exec j s = .next t) (r : State) :
    exec j (withUnit k s r) = .next (withUnit k t r) := by
  have hview := exec_viewOf h (withUnit k s r)
  rwa [viewOf_withUnit hk, viewOf_withUnit hk, viewOf_self, (exec_endsIn h).viewOf_eq] at hview

/-! ### Commands of different units (R252) -/

theorem EndsIn.fault_clear {i : Instr} {s t : State} (h : EndsIn s i t) (ht : t.Clear) : t.fault = s.fault := by
  obtain ⟨r, -, ⟨-, -, hfault⟩ | ⟨-, hcode, -⟩ | ⟨-, -, hfault⟩⟩ := h.reply
  · exact hfault
  · exact absurd ht hcode
  · exact hfault

/-- A command that does not fault changes its own unit and the reply. -/
theorem EndsIn.frame_clear {i : Instr} {s t : State} (h : EndsIn s i t) (ht : t.Clear) :
    t = withUnit (unitOf i) { s with reply := t.reply } t := by
  have hfault : { s with reply := t.reply } = { s with fault := t.fault, reply := t.reply } := by rw [h.fault_clear ht]
  rw [hfault, h.frame]
  cases i <;> rfl

/-- After a command that does not fault, a command of another unit does what it would have done before it. -/
theorem exec_after {i j : Instr} {s t t' : State} (hij : unitOf i ≠ unitOf j) (hi : exec i s = .next t) (ht : t.Clear)
    (hj : exec j s = .next t') : exec j t = .next (withUnit (unitOf i) t' t) := by
  have hreply : exec j { s with reply := t.reply } = .next t' := (noCommandReadsAnEarlierReply j s t.reply).trans hj
  have hexec := exec_withUnit hij hreply t
  rwa [← (exec_endsIn hi).frame_clear ht] at hexec

/-- Settles O17: in either order the second command adds its own unit to what the first leaves, and different units are different
fields. -/
theorem commandsOfDifferentUnitsCommute : Obligations.CommandsOfDifferentUnitsCommute := by
  unfold Obligations.CommandsOfDifferentUnitsCommute
  intro i j s t t' hne _ hi ht hj ht'
  rw [unitField_matchBits, unitField_matchBits] at hne
  have hij : unitOf i ≠ unitOf j := fun h => hne (congrArg BlockUnit.number h)
  refine ⟨_, _, exec_after hij hi ht hj, exec_after hij.symm hj ht' hi, ?_, withUnit_reply .., withUnit_reply .., ?_⟩
  · exact (congrArg FaultReg.code (withUnit_fault ..)).trans ht'
  · rw [withUnit_reply, withUnit_withReply]
    calc withUnit (unitOf i) t' t
        = withUnit (unitOf i) (withUnit (unitOf j) { s with reply := t'.reply } t') t :=
          congrArg (withUnit (unitOf i) · t) ((exec_endsIn hj).frame_clear ht')
      _ = withUnit (unitOf j) { withUnit (unitOf i) { s with reply := t.reply } t with reply := t'.reply } t' := by
          rw [withUnit_comm hij.symm, withUnit_withReply]
      _ = withUnit (unitOf j) { t with reply := t'.reply } t' := by rw [← (exec_endsIn hi).frame_clear ht]

end Sys2Proof.Machine
